-- ==== Sys2Proof/Word.lean ====
section
/-! DEFINITION. The words of the block: bytes, ring indices, command headers, and the two line-end bytes. -/

namespace Sys2Proof

/-- A datum of the block: an unsigned byte (`u8`, rule R13). -/
abbrev Byte := BitVec 8

/-- A ring index: `u7`, because the ring capacity is 128 (rules R7 and R13). -/
abbrev Index := BitVec 7

/-- The 16-bit header `H = byte0 * 256 + byte1` of a command (rule R70). -/
abbrev Header := BitVec 16

/-- Carriage return (rule R15). -/
abbrev cr : Byte := 0x0D#8

/-- Linefeed (rule R15). -/
abbrev lf : Byte := 0x0A#8

end Sys2Proof
end

