-- ==== Sys2Proof/Config.lean ====
section
/-! DEFINITION. The parameters the spec names, and the free values: what the environment decides and no rule fixes. -/

namespace Sys2Proof

/-- The spec's named parameters (92_eei_decisions.md, "Named parameters a model takes as arguments").
A machine never changes them. -/
structure Params where
  /-- Which reading of the ring pop holds (rules R11 and R104): `true` makes a stored 0x00 read as empty. -/
  nulIsEmpty : Bool
  /-- The confirmation text of the switch to interrupt mode (rule R213, D19). -/
  confirmOn : List Byte
  /-- The confirmation text of the switch to polling mode (rule R213, D19). -/
  confirmOff : List Byte
deriving DecidableEq, Repr

/-- The parameters of this hardware: `NUL_IS_EMPTY` false (rule R11), and the texts
"Async mode is now ON" and "Async mode is now OFF" in ASCII (rule R213). -/
def Params.standard : Params where
  nulIsEmpty := false
  confirmOn :=
    [0x41, 0x73, 0x79, 0x6E, 0x63, 0x20, 0x6D, 0x6F, 0x64, 0x65, 0x20, 0x69, 0x73, 0x20, 0x6E, 0x6F,
      0x77, 0x20, 0x4F, 0x4E]
  confirmOff :=
    [0x41, 0x73, 0x79, 0x6E, 0x63, 0x20, 0x6D, 0x6F, 0x64, 0x65, 0x20, 0x69, 0x73, 0x20, 0x6E, 0x6F,
      0x77, 0x20, 0x4F, 0x46, 0x46]

/-- The timeout budget of the two blocking primitives, in milliseconds; no rule reads it (rule R8). -/
def Config.timeoutMs : Nat := 200

/-- One answer of the environment to each question a micro-step may ask (the spec's `draw`, rule R14). -/
structure Draws where
  /-- Which of the enabled moves is made; read modulo their number (rule R56(d)). -/
  pick : Nat
  /-- How many bytes a blocking transmit of `N` bytes emits; read modulo `N + 1` (rules R142, R269). -/
  sent : Nat
  /-- Whether a blocking receive with a byte on the line takes it: TAKE or TIMEOUT (rule R270). -/
  take : Bool
  /-- Whether the polling hook answers TOGGLE (rule R160). -/
  hook : Bool
deriving DecidableEq, Repr

/-- FREE VALUE (assumption 2): the scheduler's `n`-th choice among enabled moves (rule R56(d)). -/
opaque Config.freePick : Nat → Nat

/-- FREE VALUE (assumption 2): the `n`-th outcome of a blocking transmit (rules R142, R269). -/
opaque Config.freeSent : Nat → Nat

/-- FREE VALUE (assumption 2): the `n`-th outcome of a blocking receive (rule R270). -/
opaque Config.freeTake : Nat → Bool

/-- FREE VALUE (assumption 2): the `n`-th answer of the polling hook (rules R160, R273). -/
opaque Config.freeHook : Nat → Bool

/-- The environment's answers number `n`: free values all. -/
def Config.drawsAt (n : Nat) : Draws where
  pick := Config.freePick n
  sent := Config.freeSent n
  take := Config.freeTake n
  hook := Config.freeHook n

end Sys2Proof
end

