-- ==== Sys2Proof/Syntax.lean ====
section
/-! DEFINITION. The seven commands of UIC command set v1, one constructor per row of rule R72. -/

namespace Sys2Proof

/-- A command with its operands. A constructor carries a payload where the format is CMDP and the
capacity for RECEIVE; the other operands must be 0x00 and carry nothing (rules R71 and R72). -/
inductive Instr where
  /-- SEND, opcode 0x01: send the payload (rule R140). -/
  | send (payload : List Byte)
  /-- SEND_LINE, opcode 0x02: send the payload, then CR LF (rule R143). -/
  | sendLine (payload : List Byte)
  /-- RECV_BYTE, opcode 0x03: byte-level receive (rule R164). -/
  | recvByte
  /-- RECEIVE, opcode 0x04: line-level receive into a buffer of `cap` bytes (rule R165). -/
  | receive (cap : Byte)
  /-- TOGGLE, opcode 0x05: switch the operating mode (rule R210). -/
  | toggle
  /-- ACQUIRE, opcode 0x06: the host enters a critical section (rule R122). -/
  | acquire
  /-- RELEASE, opcode 0x07: the host leaves a critical section (rule R123). -/
  | release
deriving DecidableEq, Repr

/-- The payload bytes that follow the header: present in format CMDP only (rule R70). -/
def Instr.payload : Instr → List Byte
  | .send p | .sendLine p => p
  | .recvByte | .receive _ | .toggle | .acquire | .release => []

/-- The length of a command in bytes (rules R72 and R76). -/
def Instr.length (i : Instr) : Nat := 2 + i.payload.length

/-- The pseudo-command CRLF is `SEND "\r\n"` (rule R81). -/
def Instr.crlf : Instr := .send [cr, lf]

/-- The pseudo-command CRITICAL brackets commands with ACQUIRE and RELEASE (rule R81). -/
def Instr.critical (body : List Instr) : List Instr := .acquire :: (body ++ [.release])

end Sys2Proof
end

