-- ==== Sys2Proof/Machine/State.lean ====
section
/-! DEFINITION. The block's state record (10_state.md), its fault and refusal reasons, and its reset value. -/

namespace Sys2Proof.Machine

/-- The driver mode (rule R22): POLLING is encoded 0, INTERRUPT is encoded 1. -/
inductive Mode where
  | polling
  | interrupt
deriving DecidableEq, Repr

/-- The two hardware events (rules R78 and R250). -/
inductive Event where
  /-- RXC, event 0: a one-byte reception completed. -/
  | rxc
  /-- TXC, event 1: a one-byte transmission completed. -/
  | txc
deriving DecidableEq, Repr

/-- Who made the request that raised a fault (rule R241): the running host command (a nested TOGGLE
counts as TOGGLE), or the handler entry of an event. -/
inductive Origin where
  | send | sendLine | recvByte | receive | toggle | acquire | release
  | rxc | txc
deriving DecidableEq, Repr

/-- The five sticky faults with the info each records (rules R240 and R241). Raising one is a next
state that holds it; a step from a state that holds it is the outcome `fault`. -/
inductive Fault where
  /-- Code 1, raised by command intake on an illegal header (rule R242); records the header. Safe:
  the spec's own outcome. -/
  | illegalCommand (header : Header)
  /-- Code 2, raised by any `Acquire()` at depth 255 (rule R243). Safe: the spec's own outcome. -/
  | guardOverflow (origin : Origin)
  /-- Code 3, raised by `Release()` at depth 0, so by RELEASE only (rule R244). Safe: the spec's own
  outcome. -/
  | guardUnderflow (origin : Origin)
  /-- Code 4, raised by a transmit request while a byte is outstanding (rule R245); records the byte
  that was to be sent. Safe: the spec's own outcome. -/
  | txOverlap (origin : Origin) (byte : Byte)
  /-- Code 5, raised by a reception request while one is armed (rule R246). Safe: the spec's own
  outcome. -/
  | rxDoubleArm (origin : Origin)
deriving DecidableEq, Repr

/-- Reasons to refuse. Every command of the spec has its meaning, so none is ever given. -/
inductive Refusal where
  /-- An instruction without a meaning, refused by its arm of `exec`. Safe: no claim can use it. No arm
  gives it. -/
  | notModelled (mnemonic : String)
deriving DecidableEq, Repr

/-- One ring buffer (rule R28): 128 bytes of storage, the next byte to pop and the next free slot. -/
structure Ring where
  buf : Vector Byte 128
  head : Index
  tail : Index
deriving DecidableEq, Repr

/-- The position inside a SEND_LINE: before the SEND of the text, or before that of CR LF (rule R143). -/
inductive LineStage where
  | text
  | crlf
deriving DecidableEq, Repr

/-- The next micro-step of a TOGGLE (rules R210 to R212). -/
inductive TogglePos where
  /-- Micro-step 1: flip the mode. -/
  | flip
  /-- To interrupt, micro-step 2: enable the line. -/
  | enableLine
  /-- To interrupt, micro-step 3: prime the first reception. -/
  | prime
  /-- To interrupt, micro-steps 4 and 5: the ON line. -/
  | onLine (stage : LineStage)
  /-- To polling, micro-step 2: abort the outstanding reception. -/
  | abortRx
  /-- To polling, micro-step 3: disable the line. -/
  | disableLine
  /-- To polling, micro-step 4: clear the in-flight flag. -/
  | clearInFlight
  /-- To polling, micro-step 5: drain both rings. -/
  | drain
  /-- To polling, micro-steps 6 and 7: the OFF line. -/
  | offLine (stage : LineStage)
deriving DecidableEq, Repr

/-- The next micro-step of the byte source (rule R161). -/
inductive SourcePos where
  /-- The polling hook's call (rule R160). -/
  | hook
  /-- A TOGGLE the hook asked for, nested above the receive: its own position (rule R160). -/
  | toggling (pos : TogglePos)
  /-- The attempt itself, by the mode sampled now (rules R162 and R163). -/
  | attempt
deriving DecidableEq, Repr

/-- The next micro-step of a RECV_BYTE (rule R164). -/
inductive RecvPos where
  | source (pos : SourcePos)
  /-- A byte has been got; it is written to `res_byte` next. -/
  | deliver (byte : Byte)
deriving DecidableEq, Repr

/-- The next micro-step of a RECEIVE (rule R165). -/
inductive ReceivePos where
  | source (pos : SourcePos)
  /-- A byte has been got; its echo is sent next. -/
  | echo (byte : Byte)
  /-- The CR has been echoed; the LF is sent next. -/
  | echoLf
  /-- The results are written next. -/
  | finish
deriving DecidableEq, Repr

/-- The command sequencer's position (rule R37): idle, or the command being executed with its operands
and its next micro-step. RECEIVE's working buffer `w[0 .. n-1]` is a list, and `n` is its length. -/
inductive Seq where
  | idle
  | send (payload : List Byte)
  | sendLine (payload : List Byte) (stage : LineStage)
  | recvByte (pos : RecvPos)
  | receive (cap : Byte) (filled : List Byte) (pos : ReceivePos)
  | toggle (pos : TogglePos)
  | acquire
  | release
deriving DecidableEq, Repr

/-- One move: a step of one agent (rules R54 and R56), or a wait where only PER's loss step is enabled. -/
inductive Move where
  /-- IRQ takes an event (rule R254). -/
  | irq
  /-- FG makes its next micro-step, or takes a command (rules R37 and R66). -/
  | foreground
  /-- PER completes a reception (rule R266). -/
  | rxComplete
  /-- PER completes a transmission (rule R267). -/
  | txComplete
  /-- PER loses a line byte (rule R271). -/
  | lineLoss
  /-- No agent steps. PER's loss step is the only one enabled, and it may never happen (rule R271,
  assumption 4). -/
  | wait
deriving DecidableEq, Repr

/-- The state record of rule R20, with the command port of rule R66 and two fields of the model: the
spec's parameters and the count of free values used. -/
structure State where
  /-- The driver mode (rule R22). -/
  mode : Mode
  /-- The transmit-in-flight flag (rule R23). -/
  txInFlight : Bool
  /-- The guard's depth counter (rule R24). -/
  depth : Byte
  /-- The line enable of the interrupt controller (rule R26). -/
  lineEn : Bool
  /-- The pending bit of RXC (rule R27). -/
  rxPend : Bool
  /-- The pending bit of TXC (rule R27). -/
  txPend : Bool
  /-- The RX ring (rule R28). -/
  rx : Ring
  /-- The TX ring (rule R28). -/
  tx : Ring
  /-- The receive handler's staging byte (rule R30). -/
  rxStage : Byte
  /-- The transmit handler's staging byte (rule R31). -/
  txStage : Byte
  /-- A one-byte reception is outstanding (rule R32). -/
  perRxArmed : Bool
  /-- A one-byte transmit is outstanding (rule R33). -/
  perTxBusy : Bool
  /-- The sticky fault (rule R34). -/
  fault : Option Fault
  /-- The bytes the remote end sends that the peripheral has not taken (rule R35). -/
  lineIn : List Byte
  /-- The bytes emitted on the line, in order (rule R35). -/
  lineOut : List Byte
  /-- The result of the last RECV_BYTE (rule R36). -/
  resByte : Byte
  /-- The count of the last RECEIVE (rule R36). -/
  resLen : Byte
  /-- The buffer of the last RECEIVE (rule R36). -/
  resBuf : Vector Byte 255
  /-- The sequencer position (rule R37). -/
  seq : Seq
  /-- The bytes the host has sent on the command port and FG has not taken (rules R66 and R70). -/
  port : List Byte
  /-- The spec's named parameters; no step writes them (assumption 3). -/
  params : Params
  /-- MODEL: how many free values the run has used (assumption 2). -/
  drawn : Nat
deriving DecidableEq, Repr

/-- An empty ring at index 0, its storage 0x00 (rules R28 and R38). -/
def Ring.reset : Ring where
  buf := Vector.replicate 128 0
  head := 0
  tail := 0

/-- The machine right after power-on reset (rules R38, R300 and R301). -/
def State.reset : State where
  mode := .polling
  txInFlight := false
  depth := 0
  lineEn := false
  rxPend := false
  txPend := false
  rx := Ring.reset
  tx := Ring.reset
  rxStage := 0
  txStage := 0
  perRxArmed := false
  perTxBusy := false
  fault := none
  lineIn := []
  lineOut := []
  resByte := 0
  resLen := 0
  resBuf := Vector.replicate 255 0
  seq := .idle
  port := []
  params := Params.standard
  drawn := 0

end Sys2Proof.Machine
end

