-- ==== Sys2Proof/Machine/Operands.lean ====
section
/-! DEFINITION. What a command's operands select: where its micro-steps begin, and whose command a position belongs to. -/

namespace Sys2Proof.Machine

/-- The command a sequencer position belongs to; none when idle (rule R37). -/
def Seq.instr : Seq → Option Instr
  | .idle => none
  | .send p => some (.send p)
  | .sendLine p _ => some (.sendLine p)
  | .recvByte _ => some .recvByte
  | .receive cap _ _ => some (.receive cap)
  | .toggle _ => some .toggle
  | .acquire => some .acquire
  | .release => some .release

/-- Has a SEND of this payload a micro-step? In polling mode an empty payload has none (rule R142). -/
def sendHasStep (m : Mode) (p : List Byte) : Bool :=
  match m with
  | .interrupt => true
  | .polling => !p.isEmpty

/-- The first micro-step of a SEND (rules R140 and R142). -/
def Seq.sendStart (m : Mode) (p : List Byte) : Seq := if sendHasStep m p then .send p else .idle

/-- The first micro-step of a SEND_LINE: the text's, or the CR LF's where the text has none
(rules R142 and R143). -/
def LineStage.start (m : Mode) (p : List Byte) : LineStage := if sendHasStep m p then .text else .crlf

/-- The head of RECEIVE's loop: a full buffer ends the scan, otherwise a byte is fetched, hook first
(rule R165). -/
def ReceivePos.loopHead (cap : Byte) (filled : List Byte) : ReceivePos :=
  if filled.length = cap.toNat then .finish else .source .hook

end Sys2Proof.Machine
end

