-- ==== Sys2Proof/Machine/Flags.lean ====
section
/-! DEFINITION. The derived flags: codes of modes, origins and faults, the interrupt mask, and deliverable events. -/

namespace Sys2Proof.Machine

/-- The encoding of the mode bit (rule R22). -/
def Mode.bit : Mode → Bool
  | .polling => false
  | .interrupt => true

/-- The other mode (rule R210). -/
def Mode.flip : Mode → Mode
  | .polling => .interrupt
  | .interrupt => .polling

/-- The event number (rule R78). -/
def Event.number : Event → Nat
  | .rxc => 0
  | .txc => 1

/-- The origin byte a fault records: the opcode, or 0x80 plus the event number (rule R241). -/
def Origin.byte : Origin → Byte
  | .send => 0x01
  | .sendLine => 0x02
  | .recvByte => 0x03
  | .receive => 0x04
  | .toggle => 0x05
  | .acquire => 0x06
  | .release => 0x07
  | .rxc => 0x80
  | .txc => 0x81

/-- The fault code (rule R241). -/
def Fault.code : Fault → Nat
  | .illegalCommand _ => 1
  | .guardOverflow _ => 2
  | .guardUnderflow _ => 3
  | .txOverlap _ _ => 4
  | .rxDoubleArm _ => 5

/-- The global delivery mask, derived from the depth (rule R25). -/
def State.irqMasked (s : State) : Bool := s.depth != 0#8

/-- The pending bit of an event (rules R27 and R253). -/
def State.pend (s : State) : Event → Bool
  | .rxc => s.rxPend
  | .txc => s.txPend

/-- An event is deliverable: pending, enabled, unmasked, and no fault (rule R253). -/
def State.deliverable (s : State) (e : Event) : Bool :=
  s.pend e && s.lineEn && !s.irqMasked && s.fault.isNone

/-- Some event is deliverable (rules R254 and R256). -/
def State.anyDeliverable (s : State) : Bool := s.deliverable .rxc || s.deliverable .txc

end Sys2Proof.Machine
end

