-- ==== Sys2Proof/Machine/Ring.lean ====
section
/-! DEFINITION. The ring buffer FIFO of 40_ring_buffer.md: predicates, push, pop and drain. -/

namespace Sys2Proof.Machine

/-- The number of bytes held (rule R100); `Index` arithmetic is modulo 128. -/
def Ring.count (q : Ring) : Nat := (q.tail - q.head).toNat

/-- `head == tail` (rule R101). -/
def Ring.isEmpty (q : Ring) : Bool := q.head == q.tail

/-- `(tail + 1) mod C == head` (rule R102). -/
def Ring.isFull (q : Ring) : Bool := q.tail + 1#7 == q.head

/-- The stored byte at an index. -/
def Ring.at (q : Ring) (i : Index) : Byte := q.buf[i.toNat]'i.isLt

/-- The bytes held, oldest first: what pops would return (rules R59 and R100). -/
def Ring.contents (q : Ring) : List Byte :=
  (List.range q.count).map fun k => q.at (q.head + BitVec.ofNat 7 k)

/-- RingPush: store at `tail` and advance it; into a full ring the byte is dropped (rule R103). -/
def Ring.push (q : Ring) (b : Byte) : Ring :=
  if q.isFull then q
  else { q with buf := q.buf.set q.tail.toNat b q.tail.isLt, tail := q.tail + 1#7 }

/-- RingPop: the byte at `head` if there is one, and the ring after it (rule R104). With
`nulIsEmpty` a stored 0x00 is consumed and reads as empty. -/
def Ring.pop (q : Ring) (nulIsEmpty : Bool) : Option Byte × Ring :=
  if q.isEmpty then (none, q)
  else
    let b := q.at q.head
    let q' := { q with head := q.head + 1#7 }
    if b == 0#8 && nulIsEmpty then (none, q') else (some b, q')

/-- RingDrain: discard every byte held (rule R105). -/
def Ring.drain (q : Ring) : Ring := { q with head := q.tail }

/-- SEND's loop: push every byte of a payload in order, each subject to overflow (rule R141). -/
def Ring.pushAll (q : Ring) (p : List Byte) : Ring := p.foldl Ring.push q

end Sys2Proof.Machine
end

