-- ==== Sys2Proof/Machine/Ops.lean ====
section
/-! DEFINITION. The named operations every rule uses: raising a fault, the guard, the peripheral's requests, the line. -/

namespace Sys2Proof.Machine

/-- Raise a fault: record it, write nothing else (rule R240). -/
def State.raise (s : State) (f : Fault) : State := { s with fault := some f }

/-- Go on with `k` unless a fault has been raised: a micro-step makes no write after the raise, and the
writes before it stay (rules R240 and R248). -/
def State.thenDo (s : State) (k : State → State) : State :=
  match s.fault with
  | some _ => s
  | none => k s

/-- Move the sequencer (rule R37). -/
def State.goto (s : State) (q : Seq) : State := { s with seq := q }

/-- Count one free value as used (assumption 2). -/
def State.drew (s : State) : State := { s with drawn := s.drawn + 1 }

/-- `Emit(bs)`: append bytes to the line output (rule R14). -/
def State.emit (s : State) (bs : List Byte) : State := { s with lineOut := s.lineOut ++ bs }

/-- `Acquire()`: one level deeper; at depth 255 the fault GUARD_OVERFLOW (rule R120). -/
def State.acquire (s : State) (o : Origin) : State :=
  if s.depth = 255#8 then s.raise (.guardOverflow o) else { s with depth := s.depth + 1#8 }

/-- `Release()`: one level up; at depth 0 the fault GUARD_UNDERFLOW (rule R121). -/
def State.release (s : State) (o : Origin) : State :=
  if s.depth = 0#8 then s.raise (.guardUnderflow o) else { s with depth := s.depth - 1#8 }

/-- Request a one-byte interrupt-driven reception; with one armed, RX_DOUBLE_ARM (rules R246, R265). -/
def State.armReceive (s : State) (o : Origin) : State :=
  if s.perRxArmed then s.raise (.rxDoubleArm o) else { s with perRxArmed := true }

/-- Request a one-byte interrupt-driven transmit of `b`; with one outstanding, TX_OVERLAP
(rules R245, R265). -/
def State.armTransmit (s : State) (o : Origin) (b : Byte) : State :=
  if s.perTxBusy then s.raise (.txOverlap o b) else { s with perTxBusy := true }

/-- `BlockingTransmit(p)` of a non-empty payload `b :: rest`: the environment's draw says how many of
its bytes go out before the timeout; with a byte outstanding, TX_OVERLAP (rule R269). -/
def State.blockingTransmit (s : State) (d : Draws) (o : Origin) (b : Byte) (rest : List Byte) : State :=
  if s.perTxBusy then s.raise (.txOverlap o b)
  else (s.emit ((b :: rest).take (d.sent % (rest.length + 2)))).drew

/-- `BlockingReceive1()`: the front byte of the line, or the sentinel 0x00 on a timeout; with a
reception armed, RX_DOUBLE_ARM (rule R270). Nothing is drawn when the line is empty. -/
def State.blockingReceive (s : State) (d : Draws) (o : Origin) : Byte × State :=
  if s.perRxArmed then (0#8, s.raise (.rxDoubleArm o))
  else
    match s.lineIn with
    | [] => (0#8, s)
    | b :: rest => if d.take then (b, ({ s with lineIn := rest }).drew) else (0#8, s.drew)

/-- Drain both rings under the guard (rule R215). -/
def State.drainRings (s : State) (o : Origin) : State :=
  (s.acquire o).thenDo fun s => ({ s with rx := s.rx.drain, tx := s.tx.drain }).release o

end Sys2Proof.Machine
end

