-- ==== Sys2Proof/Machine/Foreground.lean ====
section
/-! DEFINITION. One FG move for a command: intake when the sequencer is idle, the command's next micro-step when it runs. -/

namespace Sys2Proof.Machine

/-- FG's move for the command `i`, whose first micro-step is `start` and whose micro-step from the
present position is `micro`:
* with a fault set, no agent steps (rule R240);
* idle: intake sets the sequencer to the first micro-step and changes nothing else (rule R66);
* at a position of `i`: that micro-step;
* at a position of another command: `i` waits, it is taken only when the sequencer is idle (rule R66,
  assumption 5). -/
def State.foreground (s : State) (i : Instr) (start : Seq) (micro : State → State) :
    Host.Outcome State Fault Refusal :=
  match s.fault with
  | some f => .fault f
  | none =>
    match s.seq.instr with
    | none => .next (s.goto start)
    | some j => if j = i then .next (micro s) else .next s

end Sys2Proof.Machine
end

