-- ==== Sys2Proof/Machine/Guard.lean ====
section
/-! DEFINITION. The guard commands ACQUIRE and RELEASE (41_guard.md). -/

namespace Sys2Proof.Machine

/-- ACQUIRE: one micro-step, `Acquire()` (rule R122). -/
def execAcquire (s : State) : Host.Outcome State Fault Refusal :=
  s.foreground .acquire .acquire fun s => (s.acquire .acquire).thenDo fun s => s.goto .idle

/-- RELEASE: one micro-step, `Release()` (rule R123). -/
def execRelease (s : State) : Host.Outcome State Fault Refusal :=
  s.foreground .release .release fun s => (s.release .release).thenDo fun s => s.goto .idle

end Sys2Proof.Machine
end

