-- ==== Sys2Proof/Machine/Handlers.lean ====
section
/-! DEFINITION. The two event handler bodies, interrupt entry, and priming (44_event_handlers.md, rule R254). -/

namespace Sys2Proof.Machine

/-- The RX ring after a staged byte is delivered into it: pushed if it is non-zero (rule R190). -/
def Ring.deliver (q : Ring) (b : Byte) : Ring := if b = 0#8 then q else q.push b

/-- Deliver the staged byte into the RX ring; the staging byte itself keeps its value (rule R190). -/
def State.deliverStaged (s : State) : State := { s with rx := s.rx.deliver s.rxStage }

/-- `RxHandlerBody()`: deliver the staged byte under the guard, then re-arm reception (rule R190). -/
def State.rxHandlerBody (s : State) (o : Origin) : State :=
  (s.acquire o).thenDo fun s => (s.deliverStaged.release o).thenDo fun s => s.armReceive o

/-- What `TxHandlerBody()` does with its pop's answer: stage and arm the byte, or end the burst
(rule R191). -/
def State.transmitPopped (s : State) (o : Origin) : Option Byte → State
  | some b => ({ s with txStage := b }).armTransmit o b
  | none => { s with txInFlight := false }

/-- `TxHandlerBody()`: pop one byte under the guard; arm its transmit, or clear the in-flight flag
(rule R191). -/
def State.txHandlerBody (s : State) (o : Origin) : State :=
  (s.acquire o).thenDo fun s =>
    (({ s with tx := (s.tx.pop s.params.nulIsEmpty).2 }).transmitPopped o
      (s.tx.pop s.params.nulIsEmpty).1).thenDo fun s => s.release o

/-- Entry of the RXC handler by delivery (rule R192). -/
def State.onRxc (s : State) : State := ({ s with rxPend := false }).rxHandlerBody .rxc

/-- Entry of the TXC handler by delivery (rule R193). -/
def State.onTxc (s : State) : State := ({ s with txPend := false }).txHandlerBody .txc

/-- The IRQ step: RXC first, else TXC; it saves nothing, and returns by ending (rules R254, R255, R257). -/
def State.irqStep (s : State) : State := if s.deliverable .rxc then s.onRxc else s.onTxc

/-- `ArmFirstReceive()`: the receive handler's body run by TOGGLE in foreground (rule R194). -/
def State.armFirstReceive (s : State) : State := s.rxHandlerBody .toggle

/-- `ArmFirstTransmit()`: the kickstart, the transmit handler's body run inside SEND (rule R195). -/
def State.armFirstTransmit (s : State) (o : Origin) : State := s.txHandlerBody o

end Sys2Proof.Machine
end

