-- ==== Sys2Proof/Machine/Send.lean ====
section
/-! DEFINITION. The send family, SEND and SEND_LINE (42_send.md). -/

namespace Sys2Proof.Machine

/-- SEND's kickstart: if no transmission is in flight, mark the flag and prime (rule R141). -/
def State.kickstart (s : State) (o : Origin) : State :=
  if s.txInFlight then s else ({ s with txInFlight := true }).armFirstTransmit o

/-- The interrupt path of SEND, one micro-step under one guard (rule R141). -/
def State.sendInterrupt (s : State) (o : Origin) (p : List Byte) : State :=
  (s.acquire o).thenDo fun s =>
    (({ s with tx := s.tx.pushAll p }).kickstart o).thenDo fun s => s.release o

/-- The polling path of SEND: one blocking transmit; nothing for an empty payload (rules R142, R144). -/
def State.sendPolling (s : State) (d : Draws) (o : Origin) : List Byte → State
  | [] => s
  | b :: rest => s.blockingTransmit d o b rest

/-- One whole SEND, its mode sampled now (rules R67 and R140). -/
def State.sendNow (s : State) (d : Draws) (o : Origin) (p : List Byte) : State :=
  match s.mode with
  | .interrupt => s.sendInterrupt o p
  | .polling => s.sendPolling d o p

/-- SEND's move under given draws (rule R140). -/
def sendUnder (d : Draws) (p : List Byte) (s : State) : Host.Outcome State Fault Refusal :=
  s.foreground (.send p) (Seq.sendStart s.mode p) fun s =>
    (s.sendNow d .send p).thenDo fun s => s.goto .idle

/-- SEND_LINE's micro-step from the present position: the text's SEND, then the CR LF's (rule R143). -/
def State.sendLineStep (s : State) (d : Draws) (p : List Byte) : State :=
  match s.seq with
  | .sendLine _ .text =>
    (s.sendNow d .sendLine p).thenDo fun s => s.goto (.sendLine p .crlf)
  | .sendLine _ .crlf => (s.sendNow d .sendLine [cr, lf]).thenDo fun s => s.goto .idle
  | _ => s

/-- SEND_LINE's move under given draws (rule R143). -/
def sendLineUnder (d : Draws) (p : List Byte) (s : State) : Host.Outcome State Fault Refusal :=
  s.foreground (.sendLine p) (.sendLine p (LineStage.start s.mode p)) fun s => s.sendLineStep d p

/-- SEND (rules R140 to R142). -/
def execSend (p : List Byte) (s : State) : Host.Outcome State Fault Refusal :=
  sendUnder (Config.drawsAt s.drawn) p s

/-- SEND_LINE (rule R143). -/
def execSendLine (p : List Byte) (s : State) : Host.Outcome State Fault Refusal :=
  sendLineUnder (Config.drawsAt s.drawn) p s

end Sys2Proof.Machine
end

