-- ==== Sys2Proof/Machine/Toggle.lean ====
section
/-! DEFINITION. The mode controller, TOGGLE (45_mode_controller.md). -/

namespace Sys2Proof.Machine

/-- What each micro-step of TOGGLE does to the block, its own position apart (rules R210 to R213). -/
def State.toggleEffect (s : State) (d : Draws) : TogglePos → State
  | .flip => { s with mode := s.mode.flip }
  | .enableLine => { s with lineEn := true }
  | .prime => s.armFirstReceive
  | .onLine .text => s.sendNow d .toggle s.params.confirmOn
  | .onLine .crlf => s.sendNow d .toggle [cr, lf]
  | .abortRx => { s with perRxArmed := false }
  | .disableLine => { s with lineEn := false }
  | .clearInFlight => { s with txInFlight := false }
  | .drain => s.drainRings .toggle
  | .offLine .text => s.sendNow d .toggle s.params.confirmOff
  | .offLine .crlf => s.sendNow d .toggle [cr, lf]

/-- The micro-step after this one, in the state it left; none at the end (rules R210 to R212). -/
def TogglePos.next (t : TogglePos) (s : State) : Option TogglePos :=
  match t with
  | .flip =>
    match s.mode with
    | .interrupt => some .enableLine
    | .polling => some .abortRx
  | .enableLine => some .prime
  | .prime => some (.onLine (LineStage.start s.mode s.params.confirmOn))
  | .onLine .text => some (.onLine .crlf)
  | .onLine .crlf => none
  | .abortRx => some .disableLine
  | .disableLine => some .clearInFlight
  | .clearInFlight => some .drain
  | .drain => some (.offLine (LineStage.start s.mode s.params.confirmOff))
  | .offLine .text => some (.offLine .crlf)
  | .offLine .crlf => none

/-- Where the sequencer goes after a micro-step of a TOGGLE command (rule R210). -/
def Seq.afterToggle (t : TogglePos) (s : State) : Seq :=
  match t.next s with
  | some t' => .toggle t'
  | none => .idle

/-- TOGGLE's micro-step from the present position (rule R210). -/
def State.toggleStep (s : State) (d : Draws) : State :=
  match s.seq with
  | .toggle t => (s.toggleEffect d t).thenDo fun s => s.goto (Seq.afterToggle t s)
  | _ => s

/-- TOGGLE's move under given draws (rule R210). -/
def toggleUnder (d : Draws) (s : State) : Host.Outcome State Fault Refusal :=
  s.foreground .toggle (.toggle .flip) fun s => s.toggleStep d

/-- TOGGLE (rules R210 to R213). -/
def execToggle (s : State) : Host.Outcome State Fault Refusal :=
  toggleUnder (Config.drawsAt s.drawn) s

end Sys2Proof.Machine
end

