-- ==== Sys2Proof/Machine/Receive.lean ====
section
/-! DEFINITION. The polling hook, the byte source, RECV_BYTE and RECEIVE (43_receive.md). -/

namespace Sys2Proof.Machine

/-- `Attempt_interrupt()`: one guarded pop of the RX ring; 0x00 for "no data" (rule R162). -/
def State.attemptInterrupt (s : State) (o : Origin) : Byte × State :=
  ((s.rx.pop s.params.nulIsEmpty).1.getD 0#8,
    (s.acquire o).thenDo fun s =>
      ({ s with rx := (s.rx.pop s.params.nulIsEmpty).2 }).release o)

/-- One attempt, its mode sampled now, after the hook's call (rules R67 and R161 to R163). -/
def State.attempt (s : State) (d : Draws) (o : Origin) : Byte × State :=
  match s.mode with
  | .interrupt => s.attemptInterrupt o
  | .polling => s.blockingReceive d o

/-- What a micro-step of the byte source leads to. -/
inductive SourceNext where
  /-- The source goes on at this position. -/
  | goOn (pos : SourcePos)
  /-- It has got a byte, never 0x00. -/
  | got (byte : Byte)
deriving DecidableEq, Repr

/-- The hook's answer: NOTHING leads to the attempt, TOGGLE to a nested TOGGLE (rule R160). -/
def SourcePos.afterHook (toggles : Bool) : SourcePos :=
  if toggles then .toggling .flip else .attempt

/-- Where the source goes after a micro-step of the nested TOGGLE: at its end, back to the interrupted
receive's next micro-step (rule R160). -/
def SourcePos.afterToggle (t : TogglePos) (s : State) : SourcePos :=
  match t.next s with
  | some t' => .toggling t'
  | none => .attempt

/-- After an attempt: 0x00 means "no data" and the spin goes on, hook first (rule R161). -/
def SourceNext.afterAttempt (b : Byte) : SourceNext := if b = 0#8 then .goOn .hook else .got b

/-- One micro-step of the byte source (rule R161): what it leads to, and the state it leaves. A nested
TOGGLE keeps its own origin (rule R241). -/
def State.sourceStep (s : State) (d : Draws) (o : Origin) : SourcePos → SourceNext × State
  | .hook => (.goOn (SourcePos.afterHook d.hook), s.drew)
  | .toggling t =>
    (.goOn (SourcePos.afterToggle t (s.toggleEffect d t)), s.toggleEffect d t)
  | .attempt => (SourceNext.afterAttempt (s.attempt d o).1, (s.attempt d o).2)

/-- Where RECV_BYTE goes after a micro-step of its byte source (rule R164). -/
def RecvPos.after : SourceNext → RecvPos
  | .goOn pos => .source pos
  | .got b => .deliver b

/-- RECV_BYTE's micro-step from the present position (rule R164). -/
def State.recvByteStep (s : State) (d : Draws) : State :=
  match s.seq with
  | .recvByte (.source pos) =>
    (s.sourceStep d .recvByte pos).2.thenDo fun s' =>
      s'.goto (.recvByte (RecvPos.after (s.sourceStep d .recvByte pos).1))
  | .recvByte (.deliver b) => ({ s with resByte := b }).goto .idle
  | _ => s

/-- The storage after its first entries are overwritten by a list; the others stay (rule R165). -/
def overwritePrefix (buf : Vector Byte 255) (w : List Byte) : Vector Byte 255 :=
  Vector.ofFn fun j => w.getD j.val (buf[j.val]'j.isLt)

/-- Where RECEIVE goes after a micro-step of its byte source (rule R165). -/
def ReceivePos.after : SourceNext → ReceivePos
  | .goOn pos => .source pos
  | .got b => .echo b

/-- Where RECEIVE goes after the echo of `b`: a CR is not stored and is followed by the LF; any other
byte is stored and the loop goes on (rule R165). -/
def Seq.afterEcho (cap : Byte) (filled : List Byte) (b : Byte) : Seq :=
  if b = cr then .receive cap filled .echoLf
  else .receive cap (filled ++ [b]) (ReceivePos.loopHead cap (filled ++ [b]))

/-- RECEIVE's results: the count and the filled prefix (rules R36 and R165). -/
def State.writeResults (s : State) (filled : List Byte) : State :=
  { s with resLen := BitVec.ofNat 8 filled.length, resBuf := overwritePrefix s.resBuf filled }

/-- RECEIVE's micro-step from the present position (rule R165). -/
def State.receiveStep (s : State) (d : Draws) : State :=
  match s.seq with
  | .receive cap filled (.source pos) =>
    (s.sourceStep d .receive pos).2.thenDo fun s' =>
      s'.goto (.receive cap filled (ReceivePos.after (s.sourceStep d .receive pos).1))
  | .receive cap filled (.echo b) =>
    (s.sendNow d .receive [b]).thenDo fun s => s.goto (Seq.afterEcho cap filled b)
  | .receive cap filled .echoLf =>
    (s.sendNow d .receive [lf]).thenDo fun s => s.goto (.receive cap filled .finish)
  | .receive _ filled .finish => (s.writeResults filled).goto .idle
  | _ => s

/-- RECV_BYTE's move under given draws (rule R164). -/
def recvByteUnder (d : Draws) (s : State) : Host.Outcome State Fault Refusal :=
  s.foreground .recvByte (.recvByte (.source .hook)) fun s => s.recvByteStep d

/-- RECEIVE's move under given draws (rule R165). -/
def receiveUnder (d : Draws) (cap : Byte) (s : State) : Host.Outcome State Fault Refusal :=
  s.foreground (.receive cap) (.receive cap [] (ReceivePos.loopHead cap [])) fun s => s.receiveStep d

/-- RECV_BYTE (rule R164). -/
def execRecvByte (s : State) : Host.Outcome State Fault Refusal :=
  recvByteUnder (Config.drawsAt s.drawn) s

/-- RECEIVE (rule R165). -/
def execReceive (cap : Byte) (s : State) : Host.Outcome State Fault Refusal :=
  receiveUnder (Config.drawsAt s.drawn) cap s

end Sys2Proof.Machine
end

