-- ==== Sys2Proof/Machine/Dispatch.lean ====
section
/-! DEFINITION. One FG move for each command: the dispatch from a command to its meaning. -/

namespace Sys2Proof.Machine

def exec (i : Instr) (s : State) : Host.Outcome State Fault Refusal :=
  match i with
  | .send p => Sys2Proof.Machine.execSend p s
  | .sendLine p => Sys2Proof.Machine.execSendLine p s
  | .recvByte => Sys2Proof.Machine.execRecvByte s
  | .receive cap => Sys2Proof.Machine.execReceive cap s
  | .toggle => Sys2Proof.Machine.execToggle s
  | .acquire => Sys2Proof.Machine.execAcquire s
  | .release => Sys2Proof.Machine.execRelease s

end Sys2Proof.Machine
end

