-- ==== Sys2Proof/Decode.lean ====
section
/-! DEFINITION. The command encoding of 30_encoding.md: a total decoder of the command port's bytes, and the encoder. -/

namespace Sys2Proof

/-- The header made of a command's first two bytes: `byte0 * 256 + byte1` (rule R70). -/
def header (b0 b1 : Byte) : Header := b0 ++ b1

/-- The names of the seven opcodes of the opcode map (rule R72). -/
inductive Opcode where
  | send | sendLine | recvByte | receive | toggle | acquire | release
deriving DecidableEq, Repr

/-- One row of the opcode map: mask and pattern of the header, as `opcode_table.json` gives them. -/
structure OpcodeRow where
  mask : Header
  pattern : Header
  opcode : Opcode
deriving DecidableEq, Repr

/-- The opcode map (rule R72). -/
def opcodeRows : List OpcodeRow :=
  [⟨0xFF00, 0x0100, .send⟩,
   ⟨0xFF00, 0x0200, .sendLine⟩,
   ⟨0xFFFF, 0x0300, .recvByte⟩,
   ⟨0xFF00, 0x0400, .receive⟩,
   ⟨0xFFFF, 0x0500, .toggle⟩,
   ⟨0xFFFF, 0x0600, .acquire⟩,
   ⟨0xFFFF, 0x0700, .release⟩]

/-- Does the header select the row? -/
def OpcodeRow.selects (r : OpcodeRow) (h : Header) : Bool := h &&& r.mask == r.pattern

/-- The opcode a header selects; none for the illegal headers of rule R75. -/
def Opcode.ofHeader (h : Header) : Option Opcode :=
  (opcodeRows.find? fun r => r.selects h).map (·.opcode)

/-- What the decoder makes of the bytes at the command port (rule R76). -/
inductive Decoded where
  /-- A complete command, and the bytes after it. -/
  | command (i : Instr) (rest : List Byte)
  /-- An illegal header (rule R75), and the bytes after it. -/
  | illegal (h : Header) (rest : List Byte)
  /-- Fewer bytes than the header or the payload needs. -/
  | incomplete
deriving DecidableEq, Repr

/-- A command of format CMDP: exactly `n` payload bytes, or incomplete (rules R70 and R76). -/
def decodePayload (mk : List Byte → Instr) (n : Nat) (bytes : List Byte) : Decoded :=
  if n ≤ bytes.length then .command (mk (bytes.take n)) (bytes.drop n) else .incomplete

/-- The command of a legal header with operand `b1`, from the bytes after the header (rules R71, R72). -/
def decodeBody (op : Opcode) (b1 : Byte) (bytes : List Byte) : Decoded :=
  match op with
  | .send => decodePayload .send b1.toNat bytes
  | .sendLine => decodePayload .sendLine b1.toNat bytes
  | .recvByte => .command .recvByte bytes
  | .receive => .command (.receive b1) bytes
  | .toggle => .command .toggle bytes
  | .acquire => .command .acquire bytes
  | .release => .command .release bytes

/-- The decoder of the command port: total, and the same in both modes (rule R76). -/
def decode : List Byte → Decoded
  | b0 :: b1 :: rest =>
    match Opcode.ofHeader (header b0 b1) with
    | some op => decodeBody op b1 rest
    | none => .illegal (header b0 b1) rest
  | [_] => .incomplete
  | [] => .incomplete

/-- The opcode byte of a command (rule R72). -/
def Instr.opcodeByte : Instr → Byte
  | .send _ => 0x01
  | .sendLine _ => 0x02
  | .recvByte => 0x03
  | .receive _ => 0x04
  | .toggle => 0x05
  | .acquire => 0x06
  | .release => 0x07

/-- The operand byte of a command: the payload length, the capacity, or 0x00 (rules R71 and R72). -/
def Instr.operandByte : Instr → Byte
  | .send p => BitVec.ofNat 8 p.length
  | .sendLine p => BitVec.ofNat 8 p.length
  | .receive cap => cap
  | .recvByte => 0x00
  | .toggle => 0x00
  | .acquire => 0x00
  | .release => 0x00

/-- The bytes of a command on the port: header first, then the payload (rule R70). -/
def encode (i : Instr) : List Byte := i.opcodeByte :: i.operandByte :: i.payload

/-- The bytes of a program: its commands one after another, as the host issues them (rule R66). -/
def encodeAll (is : List Instr) : List Byte := is.flatMap encode

/-- Byte `j` of the bits `w` as the command port carries them, in 16-bit words: the first word is bits
15 to 0, and the high byte of a word goes first, as in the header (rule R70). -/
def tableByte (w j : Nat) : Byte := BitVec.ofNat 8 (w / 2 ^ (16 * (j / 2) + 8 * (1 - j % 2)))

/-- The bytes of a command whose bits are `w`, numbered as `opcode_table.json` numbers them: the header,
then as many bytes as its operand byte could ask for as a payload. Every bit above `nbits` is 0. -/
def tableLayout (nbits w : Nat) : List Byte :=
  (List.range (2 + (tableByte (w % 2 ^ nbits) 1).toNat)).map (tableByte (w % 2 ^ nbits))

/-- The command the decoder reads from the bits `w` of an opcode-table row. -/
def decodeTableWord (nbits w : Nat) : Option Instr :=
  match decode (tableLayout nbits w) with
  | .command i _ => some i
  | .illegal _ _ => none
  | .incomplete => none

/-- How many of the bytes belong to the command at their front: 2 for an illegal header (rule R76). -/
def decodedLength (bytes : List Byte) : Nat :=
  match decode bytes with
  | .command i _ => i.length
  | .illegal _ _ => 2
  | .incomplete => bytes.length

/-- The bytes of exactly the one command whose bits are `w`. -/
def tableBytes (nbits w : Nat) : List Byte :=
  (tableLayout nbits w).take (decodedLength (tableLayout nbits w))

end Sys2Proof
end

