-- ==== Sys2Proof/Machine/Environment.lean ====
section
/-! DEFINITION. What the outside world can do to the block between micro-steps (rules R35, R66, R79, R272 and R300). -/

namespace Sys2Proof.Machine

/-- The host sends bytes on the command port (rules R70 and R272). -/
def State.hostIssues (s : State) (bytes : List Byte) : State := { s with port := s.port ++ bytes }

/-- The environment supplies line bytes (rule R35). -/
def State.lineArrives (s : State) (bytes : List Byte) : State :=
  { s with lineIn := s.lineIn ++ bytes }

/-- The power-on reset in the middle of a run: every field of rule R20 at its reset value, but the line
output and input, which it does not touch (rule R300). The port is the host's, the parameters are the
machine's, and the count of free values goes on (assumption 6). -/
def State.powerOnReset (s : State) : State :=
  { State.reset with
    lineIn := s.lineIn, lineOut := s.lineOut, port := s.port, params := s.params, drawn := s.drawn }

/-- The filled prefix the last RECEIVE returned, as the host reads it (rules R36 and R79). -/
def State.resultBytes (s : State) : List Byte := s.resBuf.toList.take s.resLen.toNat

/-- The one command whose bits are `w` at the front of an idle, fault-free port, with nothing else
enabled: no event pending, no peripheral operation, no line byte (assumption 7). -/
def State.placeWord (s : State) (nbits w : Nat) : State :=
  { s with
    port := tableBytes nbits w ++ s.port, seq := .idle, fault := none, rxPend := false, txPend := false,
    perRxArmed := false, perTxBusy := false, lineIn := [] }

end Sys2Proof.Machine
end

