-- ==== Sys2Proof/Machine/Peripheral.lean ====
section
/-! DEFINITION. The three steps of the peripheral (rules R266, R267 and R271). -/

namespace Sys2Proof.Machine

/-- PER completes a reception: the line's front byte is staged, the arm is used up, RXC becomes
pending (rule R266). Enabled when a reception is armed and the line is not empty. -/
def State.rxComplete (s : State) : State :=
  match s.lineIn with
  | [] => s
  | b :: rest => { s with lineIn := rest, rxStage := b, perRxArmed := false, rxPend := true }

/-- PER completes a transmission: the staged byte goes out, TXC becomes pending (rule R267). Enabled
when a transmit is outstanding. -/
def State.txComplete (s : State) : State :=
  { s.emit [s.txStage] with perTxBusy := false, txPend := true }

/-- PER loses the line's front byte (rule R271). Enabled when no reception is armed and the line is
not empty. -/
def State.lineLoss (s : State) : State := { s with lineIn := s.lineIn.tail }

end Sys2Proof.Machine
end

