-- ==== Sys2Proof/Machine/Scheduler.lean ====
section
/-! DEFINITION. Which agents are enabled, and one micro-step of the chosen one (20_memory.md, rules R54 to R58). -/

namespace Sys2Proof.Machine

/-- Has FG something to take at the command port: a complete command or an illegal header
(rules R66, R75 and R77)? -/
def State.portReady (s : State) : Bool :=
  match decode s.port with
  | .command _ _ => true
  | .illegal _ _ => true
  | .incomplete => false

/-- Is the move enabled (rule R56)? Waiting is a move where a line byte may be lost and no agent has another
step: the loss is never forced (rule R271, assumption 4). -/
def State.enabled (s : State) : Move → Bool
  | .irq => s.anyDeliverable
  | .foreground => s.fault.isNone && !s.anyDeliverable && (s.seq.instr.isSome || s.portReady)
  | .rxComplete => s.fault.isNone && s.perRxArmed && !s.lineIn.isEmpty
  | .txComplete => s.fault.isNone && s.perTxBusy
  | .lineLoss => s.fault.isNone && !s.perRxArmed && !s.lineIn.isEmpty
  | .wait =>
    s.fault.isNone && !s.perRxArmed && !s.lineIn.isEmpty && !s.perTxBusy && !s.anyDeliverable &&
      s.seq.instr.isNone && !s.portReady

/-- The enabled moves. -/
def State.moves (s : State) : List Move :=
  [Move.irq, .foreground, .rxComplete, .txComplete, .lineLoss, .wait].filter s.enabled

/-- The move to make and the state to make it from: the only enabled move, or one of several that the
environment picks (rule R56(d)); none when no agent is enabled. -/
def State.schedule (s : State) (d : Draws) : Option (Move × State) :=
  match s.moves with
  | [] => none
  | [m] => some (m, s)
  | m :: ms => some ((m :: ms).getD (d.pick % (ms.length + 1)) m, s.drew)

/-- FG's move: the running command's next micro-step, or intake from the port (rules R37 and R66). An
illegal header raises ILLEGAL_COMMAND (rule R242). `run` is the meaning of a command. -/
def State.foregroundMove (s : State) (run : Instr → State → Host.Outcome State Fault Refusal) :
    Host.Outcome State Fault Refusal :=
  match s.seq.instr with
  | some i => run i s
  | none =>
    match decode s.port with
    | .command i rest => run i { s with port := rest }
    | .illegal h rest => .next (({ s with port := rest }).raise (.illegalCommand h))
    | .incomplete => .next s

/-- Make one move. -/
def State.perform (s : State) (run : Instr → State → Host.Outcome State Fault Refusal) :
    Move → Host.Outcome State Fault Refusal
  | .irq => .next s.irqStep
  | .foreground => s.foregroundMove run
  | .rxComplete => .next s.rxComplete
  | .txComplete => .next s.txComplete
  | .lineLoss => .next s.lineLoss
  | .wait => .next s

/-- One micro-step of the whole machine: the outcome `fault` once a fault is set (rules R34 and R240);
the same state when no agent is enabled, so the machine waits for its host (rules R77 and R302);
otherwise the scheduled move. -/
def State.stepBy (s : State) (run : Instr → State → Host.Outcome State Fault Refusal) (d : Draws) :
    Host.Outcome State Fault Refusal :=
  match s.fault with
  | some f => .fault f
  | none =>
    match s.schedule d with
    | none => .next s
    | some (m, s') => s'.perform run m

/-- The meanings under an environment that answers its `n`-th question by `env n`: `exec` is this at
the free values. -/
def execUnder (env : Nat → Draws) (i : Instr) (s : State) : Host.Outcome State Fault Refusal :=
  match i with
  | .send p => sendUnder (env s.drawn) p s
  | .sendLine p => sendLineUnder (env s.drawn) p s
  | .recvByte => recvByteUnder (env s.drawn) s
  | .receive cap => receiveUnder (env s.drawn) cap s
  | .toggle => toggleUnder (env s.drawn) s
  | .acquire => execAcquire s
  | .release => execRelease s

/-- One micro-step under a given environment: `step` is this at the free values. A claim about every
`env` is a claim about every schedule and every draw (rule R56(d)). -/
def stepUnder (env : Nat → Draws) (s : State) : Host.Outcome State Fault Refusal :=
  s.stepBy (execUnder env) (env s.drawn)

/-- `n` micro-steps under a given environment, ending at the first fault outcome. -/
def runUnder (env : Nat → Draws) : Nat → State → Host.Outcome State Fault Refusal
  | 0, s => .next s
  | n + 1, s =>
    match stepUnder env s with
    | .next s' => runUnder env n s'
    | .fault f => .fault f
    | .refused r => .refused r

end Sys2Proof.Machine
end

