-- ==== Sys2Proof/Machine/Step.lean ====
section
/-! DEFINITION. One micro-step of the machine, and a command placed as its next one. -/

namespace Sys2Proof.Machine

/-- One micro-step: the environment answers by the free values (rule R56, assumption 2). -/
def step (s : State) : Host.Outcome State Fault Refusal := s.stepBy exec (Config.drawsAt s.drawn)

/-- `s` with the command of an opcode-table row placed so that the next step takes it (assumption 7). -/
def State.withFetchWord (s : State) (nbits w : Nat) : State := s.placeWord nbits w

end Sys2Proof.Machine
end

