-- ==== Sys2Proof/Safety.lean ====
section
/-! DEFINITION. The terms claims use: the invariants of rule R41, runs with their named premises and fairness, good ends. -/

namespace Sys2Proof

/-- The most micro-steps a command takes; none for a receive, which has no bound (rule R166). -/
def Instr.stepBound : Instr → Option Nat
  | .send _ => some 1
  | .sendLine _ => some 2
  | .recvByte => none
  | .receive _ => none
  | .toggle => some 7
  | .acquire => some 1
  | .release => some 1

end Sys2Proof

namespace Sys2Proof.Machine

/-- The position of the TOGGLE that is running, as a command or nested in a receive (rules R37, R160). -/
def Seq.togglePos : Seq → Option TogglePos
  | .toggle t => some t
  | .recvByte (.source (.toggling t)) => some t
  | .receive _ _ (.source (.toggling t)) => some t
  | _ => none

/-- The payload of the SEND that the present position makes, if it makes one (rules R140, R143, R165, R213). -/
def State.sending (s : State) : Option (List Byte) :=
  match s.seq.togglePos with
  | some (.onLine .text) => some s.params.confirmOn
  | some (.offLine .text) => some s.params.confirmOff
  | some (.onLine .crlf) => some [cr, lf]
  | some (.offLine .crlf) => some [cr, lf]
  | some _ => none
  | none =>
    match s.seq with
    | .send p => some p
    | .sendLine p .text => some p
    | .sendLine _ .crlf => some [cr, lf]
    | .receive _ _ (.echo b) => some [b]
    | .receive _ _ .echoLf => some [lf]
    | _ => none

/-- Is the present position a byte attempt (rule R161)? -/
def Seq.attempting : Seq → Bool
  | .recvByte (.source .attempt) => true
  | .receive _ _ (.source .attempt) => true
  | _ => false

/-- Is the present position a call of the polling hook (rule R160)? -/
def Seq.hooking : Seq → Bool
  | .recvByte (.source .hook) => true
  | .receive _ _ (.source .hook) => true
  | _ => false

/-- Both rings are empty. -/
def State.ringsEmpty (s : State) : Prop := s.rx.isEmpty = true ∧ s.tx.isEmpty = true

/-- Polling mode at rest: the line is disabled and no reception is armed (rule R41(a)). -/
def State.quietLine (s : State) : Prop := s.lineEn = false ∧ s.perRxArmed = false

/-- Rules R41(a) and R41(c), with what they become at each position of a running TOGGLE. -/
def State.ModeLaws (s : State) : Prop :=
  match s.seq.togglePos with
  | none => s.mode = .polling → s.quietLine ∧ s.ringsEmpty
  | some .flip => s.mode = .polling → s.quietLine ∧ s.ringsEmpty
  | some .enableLine => s.mode = .interrupt ∧ s.quietLine ∧ s.ringsEmpty
  | some .prime => s.mode = .interrupt
  | some (.onLine _) => s.mode = .interrupt
  | some .abortRx => s.mode = .polling
  | some .disableLine =>
    s.mode = .polling ∧ s.perRxArmed = false ∧ (s.rxPend = true → s.lineEn = true → s.depth ≠ 0#8)
  | some .clearInFlight => s.mode = .polling ∧ s.quietLine
  | some .drain => s.mode = .polling ∧ s.quietLine
  | some (.offLine _) => s.mode = .polling ∧ s.quietLine ∧ s.ringsEmpty

/-- Rule R41(b): the RX ring holds no 0x00. -/
def State.RxRingNoNul (s : State) : Prop := 0#8 ∉ s.rx.contents

/-- The transmit invariant TI (rule R41(d)). -/
def State.TI (s : State) : Prop :=
  ((s.perTxBusy = true ∨ s.txPend = true) → s.txInFlight = true) ∧
    ¬(s.perTxBusy = true ∧ s.txPend = true)

/-- No stuck burst (rule R319): without a fault, a burst in flight has a byte outstanding or an event
pending. -/
def State.BurstLive (s : State) : Prop :=
  s.fault = none → s.txInFlight = true → s.perTxBusy = true ∨ s.txPend = true

/-- At most one reception outstanding or unhandled (rules R196 and R251). -/
def State.OneReception (s : State) : Prop := ¬(s.perRxArmed = true ∧ s.rxPend = true)

/-- RECEIVE's working buffer holds at most `cap` bytes, and fewer while a byte is still being fetched
(rule R165). -/
def Seq.BufferFits : Seq → Prop
  | .receive cap filled (.source _) => filled.length < cap.toNat
  | .receive cap filled (.echo _) => filled.length < cap.toNat
  | .receive cap filled .echoLf => filled.length ≤ cap.toNat
  | .receive cap filled .finish => filled.length ≤ cap.toNat
  | _ => True

/-- A byte that the byte source has got is not 0x00 (rule R161). -/
def Seq.GotNonZero : Seq → Prop
  | .recvByte (.deliver b) => b ≠ 0#8
  | .receive _ _ (.echo b) => b ≠ 0#8
  | _ => True

/-- The good end of a run (rule R279); that the host has no further command is an empty port
(assumption 9). -/
def State.GoodEnd (s : State) : Prop :=
  s.fault = none ∧ s.seq = .idle ∧ s.port = [] ∧ s.anyDeliverable = false ∧
    s.perTxBusy = false ∧ s.txPend = false ∧ s.txInFlight = false

/-- The move a step makes under an environment, and the state it is made from. -/
def State.moveUnder (env : Nat → Draws) (s : State) : Option (Move × State) :=
  s.schedule (env s.drawn)

/-- The step under the environment makes this move. -/
def State.makes (env : Nat → Draws) (s : State) (m : Move) : Prop :=
  (s.moveUnder env).map Prod.fst = some m

/-- The draws that the move of a step under the environment reads. -/
def State.drawsUnder (env : Nat → Draws) (s : State) : Draws :=
  match s.moveUnder env with
  | some (_, s') => env s'.drawn
  | none => env s.drawn

/-- An infinite run under an environment (rule R58). -/
def IsRun (env : Nat → Draws) (r : Nat → State) : Prop :=
  ∀ n, stepUnder env (r n) = .next (r (n + 1))

/-- Weak fairness (rule R57): none of the three fair moves stays enabled for ever and is never made. -/
def WeaklyFair (env : Nat → Draws) (r : Nat → State) : Prop :=
  ∀ m, (m = Move.irq ∨ m = .rxComplete ∨ m = .txComplete) →
    ∀ n, ∃ k, n ≤ k ∧ ((r k).enabled m = false ∨ (r k).makes env m)

/-- Premise `hook_quiet` (rule R273): every hook call answers NOTHING. -/
def HookQuiet (env : Nat → Draws) (r : Nat → State) : Prop :=
  ∀ n, (r n).makes env .foreground → (r n).seq.hooking = true → ((r n).drawsUnder env).hook = false

/-- Premise `no_line_loss` (rule R316): no line byte is lost by PER's loss step. -/
def NoLineLoss (env : Nat → Draws) (r : Nat → State) : Prop := ∀ n, ¬(r n).makes env .lineLoss

/-- Premise `polling_tx_completes` (rule R142): every blocking transmit of `N` bytes emits all `N`. -/
def PollingTxCompletes (env : Nat → Draws) (r : Nat → State) : Prop :=
  ∀ n p, (r n).makes env .foreground → (r n).mode = .polling → (r n).sending = some p →
    ((r n).drawsUnder env).sent % (p.length + 1) = p.length

/-- A blocking receive with a byte on the line is made (rule R270). -/
def State.receivesBlocking (env : Nat → Draws) (s : State) : Prop :=
  s.makes env .foreground ∧ s.mode = .polling ∧ s.seq.attempting = true ∧ s.lineIn ≠ []

/-- Premise `remote_delivers` (rule R270): blocking receives with a byte on the line do not time out
for ever. -/
def RemoteDelivers (env : Nat → Draws) (r : Nat → State) : Prop :=
  ∀ n, (∀ j, n ≤ j → ∃ k, j ≤ k ∧ (r k).receivesBlocking env) →
    ∃ k, n ≤ k ∧ (r k).receivesBlocking env ∧ ((r k).drawsUnder env).take = true

/-- Premise `no_nul` (rule R312): no 0x00 on the line or in a SEND payload. -/
def NoNul (r : Nat → State) : Prop :=
  ∀ n, 0#8 ∉ (r n).lineIn ∧ ∀ p, (r n).sending = some p → 0#8 ∉ p

/-- A switch to polling begins, where the premises about it are asked: FG makes micro-step 2 of the TOGGLE,
the RX abort. The spec leaves the moment open: rule R212 calls micro-steps 2 to 7 the switch, and rule R313
counts from micro-step 1 (assumption 18). -/
def State.leavesInterrupt (env : Nat → Draws) (s : State) : Prop :=
  s.makes env .foreground ∧ s.seq.togglePos = some .abortRx

/-- A switch to interrupt mode begins, where the premise about it is asked: FG makes micro-step 2 of the
TOGGLE, the line enable (rule R211, assumption 18). -/
def State.entersInterrupt (env : Nat → Draws) (s : State) : Prop :=
  s.makes env .foreground ∧ s.seq.togglePos = some .enableLine

/-- Premise `tx_quiescent_at_toggle` (rule R313). -/
def TxQuiescentAtToggle (env : Nat → Draws) (r : Nat → State) : Prop :=
  ∀ n, (r n).leavesInterrupt env → (r n).txInFlight = false

/-- Premise `rx_consumed_at_toggle` (rule R318): every switch to polling finds the RX ring empty, and no
received byte still undelivered, which rule R318(c) counts among the losses (assumption 19). -/
def RxConsumedAtToggle (env : Nat → Draws) (r : Nat → State) : Prop :=
  ∀ n, (r n).leavesInterrupt env → (r n).rx.isEmpty = true ∧ (r n).rxPend = false

/-- Premise `no_stale_rx_stage` (rule R314). -/
def NoStaleRxStage (env : Nat → Draws) (r : Nat → State) : Prop :=
  ∀ n, (r n).entersInterrupt env → (r n).rxStage = 0#8

/-- Premise `no_guard_across_toggle` (rule R315): every TOGGLE runs at depth 0. -/
def NoGuardAcrossToggle (r : Nat → State) : Prop :=
  ∀ n, (r n).seq.togglePos.isSome = true → (r n).depth = 0#8

/-- Premise `no_guard_across_receive` (rule R311): no receive in interrupt mode under a held guard. The
spec leaves open at which moments of a receive this is asked: the model asks it wherever a receive's next
micro-step is a hook call or a byte attempt, whichever mode the command was issued in (assumption 17). -/
def NoGuardAcrossReceive (r : Nat → State) : Prop :=
  ∀ n, (r n).mode = .interrupt → ((r n).seq.hooking = true ∨ (r n).seq.attempting = true) →
    (r n).depth = 0#8

/-- Premise `no_overflow` (rule R317): no push is made into a full ring, by the receive handler, by its
prime, or by a SEND. At depth 255 the prime and the SEND make no push: they fault before it (rule R248). -/
def NoOverflow (env : Nat → Draws) (r : Nat → State) : Prop :=
  ∀ n,
    ((r n).makes env .irq → (r n).deliverable .rxc = true → (r n).rxStage ≠ 0#8 →
      (r n).rx.isFull = false) ∧
    ((r n).makes env .foreground → (r n).seq.togglePos = some .prime → (r n).depth ≠ 255#8 →
      (r n).rxStage ≠ 0#8 → (r n).rx.isFull = false) ∧
    ∀ p, (r n).makes env .foreground → (r n).mode = .interrupt → (r n).depth ≠ 255#8 →
      (r n).sending = some p →
      (r n).tx.count + p.length ≤ 127

/-- No fault stands in the way of a SEND of this payload now: neither guard level is at its limit, and no
transmit request meets an outstanding byte (rules R141, R142, R243 and R245). -/
def State.SendClear (s : State) (p : List Byte) : Prop :=
  match s.mode with
  | .polling => s.perTxBusy = false ∨ p = []
  | .interrupt =>
    if s.txInFlight then s.depth ≠ 255#8
    else
      s.depth.toNat < 254 ∧
        (s.perTxBusy = false ∨ ((s.tx.pushAll p).pop s.params.nulIsEmpty).1 = none)

/-- What one SEND leaves when no fault stands in its way, its position apart: in polling mode the first
`k` bytes have gone out (rule R142); in interrupt mode the payload is queued and, if no burst was in
flight, the first byte that pops is staged and armed, or the burst ends (rules R141 and R191). -/
def State.afterSend (s : State) (p : List Byte) (k : Nat) : State :=
  match s.mode, p with
  | .polling, [] => s
  | .polling, b :: rest =>
    { s with lineOut := s.lineOut ++ (b :: rest).take k, drawn := s.drawn + 1 }
  | .interrupt, p =>
    if s.txInFlight then { s with tx := s.tx.pushAll p }
    else
      match (s.tx.pushAll p).pop s.params.nulIsEmpty with
      | (some b, q) => { s with tx := q, txStage := b, perTxBusy := true, txInFlight := true }
      | (none, q) => { s with tx := q, txInFlight := false }

/-- How many micro-steps of a line's two SENDs are left at most (rule R143). -/
def LineStage.remaining : LineStage → Nat
  | .text => 2
  | .crlf => 1

/-- How many micro-steps of a TOGGLE are left at most (rules R210 to R212). -/
def TogglePos.remaining : TogglePos → Nat
  | .flip => 7
  | .abortRx => 6
  | .disableLine => 5
  | .clearInFlight => 4
  | .drain => 3
  | .offLine stage => stage.remaining
  | .enableLine => 4
  | .prime => 3
  | .onLine stage => stage.remaining

/-- How many micro-steps of the running command are left at most; none for a receive, which has no bound
(rule R166). -/
def Seq.remaining : Seq → Option Nat
  | .idle => some 0
  | .send _ => some 1
  | .sendLine _ stage => some stage.remaining
  | .recvByte _ => none
  | .receive _ _ _ => none
  | .toggle t => some t.remaining
  | .acquire => some 1
  | .release => some 1

/-- A ring operation of the FIFO law (rule R106). -/
inductive RingOp where
  | push (b : Byte)
  | pop
deriving DecidableEq, Repr

/-- Ring operations in order, from a ring, with the accepted bytes and the popped bytes so far
(rule R106): a push is dropped exactly when the ring is full. -/
def runRing (nulIsEmpty : Bool) : List RingOp → Ring → List Byte → List Byte → Ring × List Byte × List Byte
  | [], q, accepted, popped => (q, accepted, popped)
  | .push b :: ops, q, accepted, popped =>
    runRing nulIsEmpty ops (q.push b) (if q.isFull then accepted else accepted ++ [b]) popped
  | .pop :: ops, q, accepted, popped =>
    runRing nulIsEmpty ops (q.pop nulIsEmpty).2 accepted (popped ++ (q.pop nulIsEmpty).1.toList)

/-- One round of a burst: the peripheral completes the outstanding byte, the TXC handler runs
(rule R197). -/
def State.burstRound (s : State) : State := s.txComplete.irqStep

/-- One round of reception: the armed reception completes, the RXC handler runs (rule R196). -/
def State.receptionRound (s : State) : State := s.rxComplete.irqStep

/-- `n` rounds. -/
def rounds (f : State → State) : Nat → State → State
  | 0, s => s
  | n + 1, s => rounds f n (f s)

/-- `n` FG moves with no other agent stepping between them. Rule R56 admits these as a run where FG is
enabled at each move, which a claim has to say: this only makes the moves. -/
def foregroundRun (env : Nat → Draws) : Nat → State → Host.Outcome State Fault Refusal
  | 0, s => .next s
  | n + 1, s =>
    match s.foregroundMove (execUnder env) with
    | .next s' => foregroundRun env n s'
    | .fault f => .fault f
    | .refused r => .refused r

end Sys2Proof.Machine
end

