-- ==== Sys2Proof/WellFormed.lean ====
section
/-! DEFINITION. Which commands have an encoding: the payload length must fit the 8-bit operand (rule R10). -/

namespace Sys2Proof

/-- A command is well formed when its payload has at most 255 bytes (rules R10 and R71); the other
operands fit their fields by type. -/
def Instr.wf : Instr → Bool
  | .send p => decide (p.length ≤ 255)
  | .sendLine p => decide (p.length ≤ 255)
  | .recvByte => true
  | .receive _ => true
  | .toggle => true
  | .acquire => true
  | .release => true

end Sys2Proof
end

