-- ==== Sys2Proof/Certificates/Slice0/Obligations.lean ====
section
/-! DEFINITION. The statements for the provers, family by family, each over every state its rule speaks of. -/

open Sys2Proof Sys2Proof.Machine

/-! ## Encoding (30_encoding.md) -/

/-- Decoding the bytes of a well-formed command, whatever follows it, gives the command and what follows
(30_encoding.md sections 1 and 2). -/
def Obligations.DecodeOfEncode : Prop :=
  ∀ (i : Instr) (rest : List Byte), i.wf = true → decode (encode i ++ rest) = .command i rest

/-- Whatever the decoder reads as a command is a well-formed command, and the bytes are its encoding and
what follows (30_encoding.md sections 1 and 2). -/
def Obligations.EncodeOfDecode : Prop :=
  ∀ (bytes rest : List Byte) (i : Instr),
    decode bytes = .command i rest → i.wf = true ∧ bytes = encode i ++ rest

/-- The illegal headers are exactly those of rule R75; taking one raises ILLEGAL_COMMAND and changes no
field of the block but `fault`. That the port loses the two header bytes is the model's reading of rules
R66 and R76 beside R242 (log entry 8). -/
def Obligations.IllegalHeadersFault : Prop :=
  ∀ (b0 b1 : Byte) (rest : List Byte),
    ((∃ h r, decode (b0 :: b1 :: rest) = .illegal h r) ↔
      (b0 = 0#8 ∨ 8 ≤ b0.toNat ∨
        ((b0 = 3#8 ∨ b0 = 5#8 ∨ b0 = 6#8 ∨ b0 = 7#8) ∧ b1 ≠ 0#8))) ∧
    ∀ h r, decode (b0 :: b1 :: rest) = .illegal h r →
      h.toNat = b0.toNat * 256 + b1.toNat ∧ r = rest ∧
      ∀ s : State, s.fault = none → s.seq = .idle → s.port = b0 :: b1 :: rest →
        s.foregroundMove exec = .next { s with port := rest, fault := some (.illegalCommand h) }

/-- Rule R76: how long a command is, when its bytes are incomplete, and that the decoder answers one of
its three results on any bytes. -/
def Obligations.CommandLengths : Prop :=
  (∀ (b0 b1 : Byte) (bytes rest : List Byte) (i : Instr),
    decode (b0 :: b1 :: bytes) = .command i rest →
      bytes.length + 2 = i.length + rest.length ∧
        i.length = if b0 = 1#8 ∨ b0 = 2#8 then 2 + b1.toNat else 2) ∧
  (∀ (b0 b1 : Byte) (bytes rest : List Byte) (hd : Header),
    decode (b0 :: b1 :: bytes) = .illegal hd rest → rest = bytes) ∧
  ∀ bytes : List Byte,
    decode bytes = .incomplete ↔
      bytes.length < 2 ∨
        ∃ b0 b1 rest, bytes = b0 :: b1 :: rest ∧ (b0 = 1#8 ∨ b0 = 2#8) ∧ rest.length < b1.toNat

/-- Words written out from rules R72 and R80, decoded. -/
def Obligations.SpecWordsDecode : Prop :=
  decode [0x01, 0x04, 0x6F, 0x6B, 0x0D, 0x0A] = .command (.send [0x6F, 0x6B, 0x0D, 0x0A]) [] ∧
  decode [0x02, 0x02, 0x61, 0x62] = .command (.sendLine [0x61, 0x62]) [] ∧
  decode [0x03, 0x00] = .command .recvByte [] ∧
  decode [0x04, 0x10] = .command (.receive 16) [] ∧
  decode [0x05, 0x00] = .command .toggle [] ∧
  decode [0x06, 0x00] = .command .acquire [] ∧
  decode [0x07, 0x00] = .command .release [] ∧
  decode [0x05, 0x01] = .illegal 0x0501 [] ∧
  decode [0x01, 0x03, 0x41, 0x42] = .incomplete

/-- Rule R77: at an idle sequencer an incomplete command is never taken: FG has no move, and no step
takes bytes from the port or leaves idle. -/
def Obligations.IncompleteCommandWaits : Prop :=
  ∀ (env : Nat → Draws) (s s' : State), s.seq = .idle → decode s.port = .incomplete →
    s.enabled .foreground = false ∧
      (stepUnder env s = .next s' → s'.seq = .idle ∧ s'.port = s.port)

/-! ## Steps and scheduling (20_memory.md) -/

/-- A step runs the decoded command. When the scheduler gives FG the move: from an idle sequencer, the
step is `exec` of the command at the port with its bytes consumed; from a running command's position, the
step is `exec` of that command. `s1`, from which FG moves, is `s` but for the count of free values, which
the scheduler's own choice may have raised (log entry 2). -/
def Obligations.StepRunsDecodedCommand : Prop :=
  ∀ (s s1 : State) (i : Instr), s.fault = none →
    s.schedule (Config.drawsAt s.drawn) = some (.foreground, s1) →
    (s1 = s ∨ s1 = { s with drawn := s.drawn + 1 }) ∧
    (∀ rest, s.seq = .idle → decode s.port = .command i rest →
      step s = exec i { s1 with port := rest }) ∧
    (s.seq.instr = some i → step s = exec i s1)

/-- A command placed by `withFetchWord` is what the very next step takes, in every state. -/
def Obligations.PlacedWordRunsNext : Prop :=
  ∀ (s : State) (nbits w : Nat) (i : Instr), decodeTableWord nbits w = some i →
    step (s.withFetchWord nbits w) = exec i { s.withFetchWord nbits w with port := s.port }

/-- Intake (rule R66): an idle sequencer takes a command by moving to its first micro-step, and nothing
else changes. A polling SEND of an empty payload has no micro-step (rule R142). -/
def Obligations.IntakeSetsSequencer : Prop :=
  ∀ s : State, s.fault = none → s.seq = .idle →
    (∀ p, exec (.send p) s =
      .next { s with seq := if s.mode = .polling ∧ p = [] then .idle else .send p }) ∧
    (∀ p, exec (.sendLine p) s =
      .next { s with seq := .sendLine p (if s.mode = .polling ∧ p = [] then .crlf else .text) }) ∧
    exec .recvByte s = .next { s with seq := .recvByte (.source .hook) } ∧
    (∀ cap, exec (.receive cap) s =
      .next { s with seq := .receive cap [] (if cap = 0#8 then .finish else .source .hook) }) ∧
    exec .toggle s = .next { s with seq := .toggle .flip } ∧
    exec .acquire s = .next { s with seq := .acquire } ∧
    exec .release s = .next { s with seq := .release }

/-- Rule R34: with a fault set no agent is enabled, no step and no command changes anything; reset holds
no fault. That a step or a command from such a state answers the outcome `fault` is the model's choice
(log entry 1). -/
def Obligations.FaultStopsEveryAgent : Prop :=
  State.reset.fault = none ∧
  ∀ (s : State) (f : Fault), s.fault = some f →
    (∀ m, s.enabled m = false) ∧ step s = .fault f ∧ (∀ env, stepUnder env s = .fault f) ∧
      ∀ i, exec i s = .fault f

/-- Rule R56, with the preconditions of rules R66, R254, R266, R267 and R271: which agents are enabled, and
that which of them steps is not determined: every enabled move is made under some environment, and only
enabled moves are made. That FG is enabled by an illegal header at the port, as by a complete command, is
the model's reading of rules R66 and R242 (log entry 8). Where PER's loss step is the only one, waiting is
enabled too, so that the loss is never forced (rule R271, log entry 4). -/
def Obligations.EnabledAgents : Prop :=
  ∀ s : State,
    (s.enabled .irq = true ↔ s.deliverable .rxc = true ∨ s.deliverable .txc = true) ∧
    (s.enabled .foreground = true ↔
      s.fault = none ∧ s.deliverable .rxc = false ∧ s.deliverable .txc = false ∧
        (s.seq ≠ .idle ∨ decode s.port ≠ .incomplete)) ∧
    (s.enabled .rxComplete = true ↔ s.fault = none ∧ s.perRxArmed = true ∧ s.lineIn ≠ []) ∧
    (s.enabled .txComplete = true ↔ s.fault = none ∧ s.perTxBusy = true) ∧
    (s.enabled .lineLoss = true ↔ s.fault = none ∧ s.perRxArmed = false ∧ s.lineIn ≠ []) ∧
    (s.enabled .wait = true ↔
      s.enabled .lineLoss = true ∧ ∀ m, m ≠ .lineLoss → m ≠ .wait → s.enabled m = false) ∧
    ∀ m, s.enabled m = true ↔ ∃ env, s.makes env m

/-- From rules R254 to R256: with both events deliverable RXC is taken first, and TXC stays deliverable
after it unless the RXC step faults; while an event is deliverable FG makes no move. -/
def Obligations.RxcBeforeTxc : Prop :=
  ∀ s : State,
    (s.deliverable .rxc = true → s.irqStep = s.onRxc ∧ s.irqStep.rxPend = false ∧
      (s.deliverable .txc = true → s.irqStep.fault = none → s.irqStep.deliverable .txc = true)) ∧
    (s.deliverable .rxc = false → s.irqStep = s.onTxc ∧ s.irqStep.txPend = false) ∧
    ((s.deliverable .rxc = true ∨ s.deliverable .txc = true) → ∀ env, ¬s.makes env .foreground)

/-! ## The guard (41_guard.md) -/

/-- ACQUIRE completes below the limit, one level deeper; at depth 255 it raises GUARD_OVERFLOW and
changes nothing else (rule R120). -/
def Obligations.AcquireRuns : Prop :=
  ∀ s : State, s.fault = none → s.seq = .acquire →
    (s.depth ≠ 255#8 →
      exec .acquire s = .next { s with depth := s.depth + 1#8, seq := .idle }) ∧
    (s.depth = 255#8 → exec .acquire s = .next { s with fault := some (.guardOverflow .acquire) })

/-- RELEASE completes above depth 0, one level up; at depth 0 it raises GUARD_UNDERFLOW and changes
nothing else (rule R121). -/
def Obligations.ReleaseRuns : Prop :=
  ∀ s : State, s.fault = none → s.seq = .release →
    (s.depth ≠ 0#8 →
      exec .release s = .next { s with depth := s.depth - 1#8, seq := .idle }) ∧
    (s.depth = 0#8 → exec .release s = .next { s with fault := some (.guardUnderflow .release) })

/-- Rules R124 and R125: a step that raises no fault changes the depth only by one, and only at ACQUIRE's
or RELEASE's micro-step: every other guard it takes it has given back. -/
def Obligations.DepthChangesOnlyInGuardCommands : Prop :=
  ∀ (env : Nat → Draws) (s s' : State), (step s = .next s' ∨ stepUnder env s = .next s') →
    s'.fault = none →
    s'.depth = s.depth ∨
      (s.seq = .acquire ∧ s.depth ≠ 255#8 ∧ s'.depth = s.depth + 1#8) ∨
      (s.seq = .release ∧ s.depth ≠ 0#8 ∧ s'.depth = s.depth - 1#8)

/-- Rules R126 and R244: GUARD_OVERFLOW needs a depth of at least 254 before the step, the depth never
rises by more than 2 in a step, and GUARD_UNDERFLOW comes from RELEASE at depth 0 only. -/
def Obligations.GuardFaultCauses : Prop :=
  ∀ (env : Nat → Draws) (s s' : State), (step s = .next s' ∨ stepUnder env s = .next s') →
    s'.depth.toNat ≤ s.depth.toNat + 2 ∧
    (∀ o, s'.fault = some (.guardOverflow o) → 254 ≤ s.depth.toNat) ∧
    (∀ o, s'.fault = some (.guardUnderflow o) → o = .release ∧ s.seq = .release ∧ s.depth = 0#8)

/-! ## The rings (40_ring_buffer.md) -/

/-- Rules R101 and R102: empty and full in terms of the indices and of the count, never both. -/
def Obligations.EmptyAndFull : Prop :=
  ∀ q : Ring,
    (q.isEmpty = true ↔ q.head = q.tail) ∧
    (q.isFull = true ↔ (q.tail.toNat + 1) % 128 = q.head.toNat) ∧
    (q.isEmpty = true ↔ q.count = 0) ∧ (q.isFull = true ↔ q.count = 127) ∧ q.count ≤ 127 ∧
    ¬(q.isEmpty = true ∧ q.isFull = true)

/-- Rule R103: a push into a full ring changes nothing; any other push stores its byte at `tail`, leaves
every other slot and `head`, advances `tail` modulo 128, and adds the byte after those held. -/
def Obligations.PushResult : Prop :=
  ∀ (q : Ring) (b : Byte),
    (q.isFull = true → q.push b = q) ∧
    (q.isFull = false →
      (q.push b).at q.tail = b ∧ (∀ i, i ≠ q.tail → (q.push b).at i = q.at i) ∧
        (q.push b).head = q.head ∧ (q.push b).tail.toNat = (q.tail.toNat + 1) % 128 ∧
        (q.push b).contents = q.contents ++ [b])

/-- Rule R104: a pop of an empty ring changes nothing and gives no byte; any other pop consumes the byte
at `head`, changes `head` only, and gives that byte, except a 0x00 under the sentinel reading. -/
def Obligations.PopResult : Prop :=
  ∀ (q : Ring) (nul : Bool),
    (q.isEmpty = true → q.pop nul = (none, q)) ∧
    (q.isEmpty = false →
      (q.pop nul).2.head.toNat = (q.head.toNat + 1) % 128 ∧ (q.pop nul).2.tail = q.tail ∧
        (q.pop nul).2.buf = q.buf ∧ q.contents = q.at q.head :: (q.pop nul).2.contents ∧
        (q.pop nul).1 = if q.at q.head = 0#8 ∧ nul = true then none else some (q.at q.head))

/-- Rule R106: from an empty ring, after any pushes and pops, the popped bytes and then the bytes still
held are exactly the accepted bytes in order; under the sentinel reading, after deleting every 0x00. -/
def Obligations.FifoLaw : Prop :=
  ∀ (ops : List RingOp) (q : Ring), q.isEmpty = true →
    ((runRing false ops q [] []).2.1 =
      (runRing false ops q [] []).2.2 ++ (runRing false ops q [] []).1.contents) ∧
    ((runRing true ops q [] []).2.1.filter (fun b => b != 0#8) =
      (runRing true ops q [] []).2.2 ++
        (runRing true ops q [] []).1.contents.filter (fun b => b != 0#8))

/-- Rule R107: of `n` pushes into an empty ring the first `min n 127` are accepted, in order, and every
later one is dropped. -/
def Obligations.OverflowLaw : Prop :=
  ∀ (q : Ring) (p : List Byte), q.isEmpty = true →
    (q.pushAll p).contents = p.take 127 ∧ (q.pushAll p).count = min p.length 127

/-! ## The send family (42_send.md) -/

/-- SEND completes where no fault stands in its way: it leaves `afterSend`, for some `k` of at most `N`
bytes in polling mode, and every such `k` is a possible outcome (rules R141, R142). -/
def Obligations.SendRuns : Prop :=
  ∀ (s : State) (p : List Byte), s.fault = none → s.seq = .send p → s.SendClear p →
    (∃ k, k ≤ p.length ∧ exec (.send p) s = .next { s.afterSend p k with seq := .idle }) ∧
    ∀ k, k ≤ p.length → ∃ d, sendUnder d p s = .next { s.afterSend p k with seq := .idle }

/-- Where SEND does not complete it raises the fault that its pseudocode reaches first, and the writes
before the raise stay (rules R141, R142, R240, R245 and R248). -/
def Obligations.SendFaults : Prop :=
  ∀ (s : State) (p : List Byte), s.fault = none → s.seq = .send p →
    (∀ b rest, s.mode = .polling → p = b :: rest → s.perTxBusy = true →
      exec (.send p) s = .next { s with fault := some (.txOverlap .send b) }) ∧
    (s.mode = .interrupt → s.depth = 255#8 →
      exec (.send p) s = .next { s with fault := some (.guardOverflow .send) }) ∧
    (s.mode = .interrupt → s.depth = 254#8 → s.txInFlight = false →
      exec (.send p) s =
        .next { s with
          depth := 255#8, tx := s.tx.pushAll p, txInFlight := true,
          fault := some (.guardOverflow .send) }) ∧
    (∀ b q, s.mode = .interrupt → s.depth.toNat < 254 → s.txInFlight = false →
      s.perTxBusy = true → (s.tx.pushAll p).pop s.params.nulIsEmpty = (some b, q) →
      exec (.send p) s =
        .next { s with
          depth := s.depth + 2#8, tx := q, txStage := b, txInFlight := true,
          fault := some (.txOverlap .send b) })

/-- Rule R144: a SEND of an empty payload changes nothing: in polling mode it has no micro-step at all;
in interrupt mode, with the ring empty, its micro-step leaves the state at its start. -/
def Obligations.EmptySendChangesNothing : Prop :=
  ∀ s : State, s.fault = none →
    (s.mode = .polling → s.seq = .idle → exec (.send []) s = .next s) ∧
    (s.mode = .interrupt → s.seq = .send [] → s.depth.toNat < 254 → s.txInFlight = false →
      s.tx.isEmpty = true → exec (.send []) s = .next { s with seq := .idle })

/-- SEND_LINE completes in two micro-steps where no fault stands in the way: a SEND of the payload, then
a separate SEND of CR LF, each by the mode at its own start (rule R143). -/
def Obligations.SendLineRuns : Prop :=
  ∀ (s : State) (p : List Byte), s.fault = none →
    (s.seq = .sendLine p .text → s.SendClear p →
      ∃ k, k ≤ p.length ∧
        exec (.sendLine p) s = .next { s.afterSend p k with seq := .sendLine p .crlf }) ∧
    (s.seq = .sendLine p .crlf → s.SendClear [cr, lf] →
      ∃ k, k ≤ 2 ∧ exec (.sendLine p) s = .next { s.afterSend [cr, lf] k with seq := .idle })

/-- Where a SEND does not complete, inside any command: which fault it raises, with the origin of the
command that contains it and the byte that was to be sent, and the writes before the raise, which stay; the
sequencer and the line output stay too (rules R141 to R143, R165, R211, R212, R240, R241, R245 and R248). -/
def Obligations.ContainedSendFaults : Prop :=
  ∀ (s : State) (i : Instr) (p : List Byte) (o : Origin), s.fault = none → s.seq.instr = some i →
    s.sending = some p → ¬s.SendClear p →
    (o = match i with
      | .send _ => .send
      | .sendLine _ => .sendLine
      | .recvByte => .toggle
      | .receive _ => if s.seq.togglePos.isSome then .toggle else .receive
      | .toggle => .toggle
      | .acquire => .acquire
      | .release => .release) →
    (s.mode = .polling → ∃ b rest, p = b :: rest ∧ s.perTxBusy = true ∧
      exec i s = .next { s with fault := some (.txOverlap o b) }) ∧
    (s.mode = .interrupt → s.depth = 255#8 →
      exec i s = .next { s with fault := some (.guardOverflow o) }) ∧
    (s.mode = .interrupt → s.depth = 254#8 → s.txInFlight = false ∧
      exec i s = .next { s with
        depth := 255#8, tx := s.tx.pushAll p, txInFlight := true,
        fault := some (.guardOverflow o) }) ∧
    (s.mode = .interrupt → s.depth.toNat < 254 → s.txInFlight = false ∧ s.perTxBusy = true ∧
      ∃ b q, (s.tx.pushAll p).pop s.params.nulIsEmpty = (some b, q) ∧
        exec i s = .next { s with
          depth := s.depth + 2#8, tx := q, txStage := b, txInFlight := true,
          fault := some (.txOverlap o b) })

/-- Rule R146, third reading: under `NUL_IS_EMPTY` the TXC handler that meets a queued 0x00 consumes it,
ends the burst, arms nothing, and leaves the bytes behind it queued. -/
def Obligations.SentinelEndsBurst : Prop :=
  ∀ (s : State) (bs : List Byte), s.params.nulIsEmpty = true → s.tx.contents = 0#8 :: bs →
    s.deliverable .rxc = false → s.deliverable .txc = true →
    s.irqStep = { s with txPend := false, tx := s.irqStep.tx, txInFlight := false } ∧
      s.irqStep.tx.contents = bs

/-! ## The receive family (43_receive.md) -/

/-- Rule R160: a hook call changes nothing of the block; NOTHING leads to the attempt, TOGGLE to a nested
TOGGLE, and each answer is possible. -/
def Obligations.HookAnswers : Prop :=
  ∀ (s : State) (cap : Byte) (filled : List Byte), s.fault = none →
    (s.seq = .recvByte (.source .hook) →
      (∃ pos, (pos = .attempt ∨ pos = .toggling .flip) ∧
        exec .recvByte s = .next { s with drawn := s.drawn + 1, seq := .recvByte (.source pos) }) ∧
      ∀ pos, (pos = .attempt ∨ pos = .toggling .flip) → ∃ d, recvByteUnder d s =
        .next { s with drawn := s.drawn + 1, seq := .recvByte (.source pos) }) ∧
    (s.seq = .receive cap filled (.source .hook) →
      (∃ pos, (pos = .attempt ∨ pos = .toggling .flip) ∧
        exec (.receive cap) s =
          .next { s with drawn := s.drawn + 1, seq := .receive cap filled (.source pos) }) ∧
      ∀ pos, (pos = .attempt ∨ pos = .toggling .flip) → ∃ d, receiveUnder d cap s =
        .next { s with drawn := s.drawn + 1, seq := .receive cap filled (.source pos) })

/-- Rule R160, nesting: a TOGGLE run from the hook does what the TOGGLE command does at the same position,
faults included, and at its end goes back to the interrupted receive's attempt. -/
def Obligations.NestedToggleRunsAsToggle : Prop :=
  ∀ (s t : State) (pos : TogglePos) (cap : Byte) (filled : List Byte), s.fault = none →
    exec .toggle { s with seq := .toggle pos } = .next t →
    (s.seq = .recvByte (.source (.toggling pos)) →
      exec .recvByte s = .next { t with
        seq := .recvByte (.source (match t.seq with
          | .toggle pos' => .toggling pos'
          | _ => .attempt)) }) ∧
    (s.seq = .receive cap filled (.source (.toggling pos)) →
      exec (.receive cap) s = .next { t with
        seq := .receive cap filled (.source (match t.seq with
          | .toggle pos' => .toggling pos'
          | _ => .attempt)) })

/-- Rule R162: an attempt in interrupt mode pops the RX ring under the guard; an empty ring, or a 0x00,
means "no data" and the spin goes on with the hook; at depth 255 it raises GUARD_OVERFLOW. -/
def Obligations.InterruptAttempt : Prop :=
  ∀ (s : State) (i : Instr) (o : Origin) (again : Seq) (got : Byte → Seq), s.fault = none →
    s.mode = .interrupt → s.seq.instr = some i →
    ((s.seq = .recvByte (.source .attempt) ∧ o = .recvByte ∧
        again = .recvByte (.source .hook) ∧ got = fun b => .recvByte (.deliver b)) ∨
      ∃ cap filled, s.seq = .receive cap filled (.source .attempt) ∧ o = .receive ∧
        again = .receive cap filled (.source .hook) ∧
        got = fun b => .receive cap filled (.echo b)) →
    (s.depth = 255#8 → exec i s = .next { s with fault := some (.guardOverflow o) }) ∧
    (s.depth ≠ 255#8 → s.rx.contents = [] → exec i s = .next { s with seq := again }) ∧
    (∀ b bs, s.depth ≠ 255#8 → s.rx.contents = b :: bs →
      exec i s = .next { s with
        rx := { s.rx with head := s.rx.head + 1#7 }, seq := if b = 0#8 then again else got b })

/-- Rule R163 with R270: an attempt in polling mode takes the line's front byte or times out, each being
possible when there is one; a 0x00 reads as a timeout; with a reception armed it raises
RX_DOUBLE_ARM. Where the sequencer goes is rules R161 and R163 to R165, in the attempt's own micro-step as
log entry 10 reads them; the count of free values is the model's own (log entry 2). -/
def Obligations.PollingAttempt : Prop :=
  ∀ (s : State) (i : Instr) (o : Origin) (again : Seq) (got : Byte → Seq), s.fault = none →
    s.mode = .polling → s.seq.instr = some i →
    ((s.seq = .recvByte (.source .attempt) ∧ o = .recvByte ∧
        again = .recvByte (.source .hook) ∧ got = fun b => .recvByte (.deliver b)) ∨
      ∃ cap filled, s.seq = .receive cap filled (.source .attempt) ∧ o = .receive ∧
        again = .receive cap filled (.source .hook) ∧
        got = fun b => .receive cap filled (.echo b)) →
    (s.perRxArmed = true → exec i s = .next { s with fault := some (.rxDoubleArm o) }) ∧
    (s.perRxArmed = false → s.lineIn = [] → exec i s = .next { s with seq := again }) ∧
    (∀ b rest, s.perRxArmed = false → s.lineIn = b :: rest →
      (exec i s = .next { s with
          lineIn := rest, drawn := s.drawn + 1, seq := if b = 0#8 then again else got b } ∨
        exec i s = .next { s with drawn := s.drawn + 1, seq := again }) ∧
      (∃ env, execUnder env i s = .next { s with
          lineIn := rest, drawn := s.drawn + 1, seq := if b = 0#8 then again else got b }) ∧
      ∃ env, execUnder env i s = .next { s with drawn := s.drawn + 1, seq := again })

/-- RECV_BYTE completes: the byte got is written to `res_byte`, and nothing else changes (rule R164). -/
def Obligations.RecvByteDelivers : Prop :=
  ∀ (s : State) (b : Byte), s.fault = none → s.seq = .recvByte (.deliver b) →
    exec .recvByte s = .next { s with resByte := b, seq := .idle }

/-- A byte got by the byte source is never 0x00 (rule R161): an invariant of every step. -/
def Obligations.StepKeepsReceivedByteNonZero : Prop :=
  ∀ (env : Nat → Draws) (s s' : State), s.seq.GotNonZero →
    (step s = .next s' ∨ stepUnder env s = .next s') → s'.seq.GotNonZero

/-- RECEIVE's echo where no fault stands in its way: the byte is sent back; a CR leads to the LF, any other
byte is stored, and a full buffer ends the scan; the LF's SEND leads to the end (rule R165). -/
def Obligations.ReceiveEchoes : Prop :=
  ∀ (s : State) (cap : Byte) (filled : List Byte) (b : Byte), s.fault = none →
    (s.seq = .receive cap filled (.echo b) → s.SendClear [b] →
      ∃ k, k ≤ 1 ∧ exec (.receive cap) s = .next { s.afterSend [b] k with
        seq :=
          if b = cr then .receive cap filled .echoLf
          else if filled.length + 1 = cap.toNat then .receive cap (filled ++ [b]) .finish
          else .receive cap (filled ++ [b]) (.source .hook) }) ∧
    (s.seq = .receive cap filled .echoLf → s.SendClear [lf] →
      ∃ k, k ≤ 1 ∧ exec (.receive cap) s =
        .next { s.afterSend [lf] k with seq := .receive cap filled .finish })

/-- RECEIVE completes: the results are the filled prefix and its length; the rest of `res_buf` and every
other field stay (rules R36 and R165). -/
def Obligations.ReceiveFinishes : Prop :=
  ∀ (s : State) (cap : Byte) (filled : List Byte), s.fault = none →
    s.seq = .receive cap filled .finish → filled.length ≤ 255 →
    ∃ buf : Vector Byte 255,
      exec (.receive cap) s =
        .next { s with resLen := BitVec.ofNat 8 filled.length, resBuf := buf, seq := .idle } ∧
      ({ s with resLen := BitVec.ofNat 8 filled.length, resBuf := buf, seq := .idle } :
        State).resultBytes = filled ∧
      ∀ (j : Nat) (hj : j < 255), filled.length ≤ j → buf[j] = s.resBuf[j]

/-- RECEIVE's working buffer never overruns its capacity: an invariant of every step (rule R165). -/
def Obligations.StepKeepsReceiveBufferFits : Prop :=
  ∀ (env : Nat → Draws) (s s' : State), s.seq.BufferFits →
    (step s = .next s' ∨ stepUnder env s = .next s') → s'.seq.BufferFits

/-- Rule R165, corner case 1: RECEIVE with capacity 0 returns at once with a count of 0, reads nothing,
echoes nothing and calls no hook. Where no event is deliverable, FG is enabled at both moves (rule R56). -/
def Obligations.ReceiveZeroCapacity : Prop :=
  ∀ (env : Nat → Draws) (s : State) (rest : List Byte), s.fault = none → s.seq = .idle →
    s.port = 4#8 :: 0#8 :: rest →
    (∃ t, foregroundRun env 2 s = .next t ∧
      t = { s with port := rest, resLen := 0#8, resBuf := t.resBuf } ∧ t.resBuf = s.resBuf) ∧
    (s.anyDeliverable = false →
      ∀ j, j < 2 → ∃ u, foregroundRun env j s = .next u ∧ u.enabled .foreground = true)

/-- The source's round trip (rule R165, 95_test_vectors.md L1-4), polling mode: when the hook is quiet,
no line byte is lost and no draw is a timeout, a line of non-zero bytes ended by CR is returned without
the CR and echoed with CR LF. -/
def Obligations.RoundTripEchoPolling : Prop :=
  ∀ (env : Nat → Draws) (s : State) (cap : Byte) (line more : List Byte),
    (∀ n, (env n).hook = false ∧ (env n).take = true ∧ (env n).sent % 2 = 1 ∧
      (env n).pick % 2 = 0) →
    s.fault = none → s.seq = .idle → s.mode = .polling → s.lineEn = false →
    s.perRxArmed = false → s.perTxBusy = false →
    s.port = [4#8, cap] → s.lineIn = line ++ cr :: more → 0#8 ∉ line → cr ∉ line →
    line.length < cap.toNat →
    ∃ t, runUnder env (3 * line.length + 6) s = .next t ∧
      t.seq = .idle ∧ t.fault = none ∧ t.mode = .polling ∧ t.port = [] ∧ t.lineIn = more ∧
      t.resultBytes = line ∧ t.resLen.toNat = line.length ∧
      t.lineOut = s.lineOut ++ line ++ [cr, lf] ∧
      t.rx = s.rx ∧ t.tx = s.tx ∧ t.txInFlight = s.txInFlight ∧ t.depth = s.depth

/-! ## The event handlers and the peripheral (44_event_handlers.md, 60_exceptions.md) -/

/-- A deliverable RXC: the pending bit is cleared, the staged byte is pushed if it is non-zero, and
reception is armed again; with one armed already the push stays and RX_DOUBLE_ARM is raised
(rules R190 and R192). -/
def Obligations.RxcHandlerRuns : Prop :=
  ∀ s : State, s.deliverable .rxc = true →
    (s.perRxArmed = false →
      s.irqStep = { s with
        rxPend := false, rx := if s.rxStage = 0#8 then s.rx else s.rx.push s.rxStage,
        perRxArmed := true }) ∧
    (s.perRxArmed = true →
      s.irqStep = { s with
        rxPend := false, rx := if s.rxStage = 0#8 then s.rx else s.rx.push s.rxStage,
        fault := some (.rxDoubleArm .rxc) })

/-- A deliverable TXC with no deliverable RXC: the pending bit is cleared and one byte is popped; a byte
is staged and armed, or, with a byte outstanding, TX_OVERLAP is raised after the staging; no byte ends
the burst (rules R191 and R193). -/
def Obligations.TxcHandlerRuns : Prop :=
  ∀ s : State, s.deliverable .rxc = false → s.deliverable .txc = true →
    (∀ q, s.tx.pop s.params.nulIsEmpty = (none, q) →
      s.irqStep = { s with txPend := false, tx := q, txInFlight := false }) ∧
    (∀ b q, s.tx.pop s.params.nulIsEmpty = (some b, q) → s.perTxBusy = false →
      s.irqStep = { s with txPend := false, tx := q, txStage := b, perTxBusy := true }) ∧
    (∀ b q, s.tx.pop s.params.nulIsEmpty = (some b, q) → s.perTxBusy = true →
      s.irqStep = { s with
        txPend := false, depth := s.depth + 1#8, tx := q, txStage := b,
        fault := some (.txOverlap .txc b) })

/-- The transmit burst law (rule R197): from a byte outstanding with `n` bytes queued, `n + 1` rounds of
completion and TXC emit them all in order, empty the ring and end the burst; each round's two moves
are enabled when made; nothing else changes. -/
def Obligations.TransmitBurstDrains : Prop :=
  ∀ s : State, s.fault = none → s.depth = 0#8 → s.lineEn = true → s.rxPend = false →
    s.txPend = false → s.perTxBusy = true → s.txInFlight = true →
    (s.params.nulIsEmpty = false ∨ 0#8 ∉ s.tx.contents) →
    rounds State.burstRound (s.tx.count + 1) s =
      { s with
        lineOut := s.lineOut ++ s.txStage :: s.tx.contents, tx := { s.tx with head := s.tx.tail },
        txStage := s.tx.contents.getLastD s.txStage, perTxBusy := false, txInFlight := false } ∧
    ∀ j, j ≤ s.tx.count →
      (rounds State.burstRound j s).enabled .txComplete = true ∧
        (rounds State.burstRound j s).txComplete.enabled .irq = true

/-- The receive pipeline law (rule R196): with reception armed and room in the ring, `n` rounds of
completion and RXC take the next `n` line bytes and push the non-zero ones in order; each round's two
moves are enabled when made. -/
def Obligations.ReceptionPipelineFills : Prop :=
  ∀ (s : State) (bs rest : List Byte), s.fault = none → s.depth = 0#8 → s.lineEn = true →
    s.rxPend = false → s.perRxArmed = true → s.lineIn = bs ++ rest →
    s.rx.count + bs.length ≤ 127 →
    rounds State.receptionRound bs.length s =
      { s with
        lineIn := rest, rxStage := bs.getLastD s.rxStage,
        rx := s.rx.pushAll (bs.filter fun b => b != 0#8) } ∧
    (rounds State.receptionRound bs.length s).rx.contents =
      s.rx.contents ++ bs.filter (fun b => b != 0#8) ∧
    ∀ j, j < bs.length →
      (rounds State.receptionRound j s).enabled .rxComplete = true ∧
        (rounds State.receptionRound j s).rxComplete.enabled .irq = true

/-- The three moves of the peripheral, each from a state that enables it (rules R266, R267, R271). A loss
may happen whenever it is enabled, and it need not: some environment makes it, and some environment makes
another move; where that move is to wait, nothing changes (rule R271, log entry 4). -/
def Obligations.PeripheralMoves : Prop :=
  ∀ (s : State) (run : Instr → State → Host.Outcome State Fault Refusal),
    (s.enabled .rxComplete = true → ∃ b rest, s.lineIn = b :: rest ∧
      s.perform run .rxComplete =
        .next { s with lineIn := rest, rxStage := b, perRxArmed := false, rxPend := true }) ∧
    (s.enabled .txComplete = true →
      s.perform run .txComplete =
        .next { s with lineOut := s.lineOut ++ [s.txStage], perTxBusy := false, txPend := true }) ∧
    (s.enabled .lineLoss = true → ∃ b rest, s.lineIn = b :: rest ∧
      s.perform run .lineLoss = .next { s with lineIn := rest }) ∧
    (s.enabled .lineLoss = true →
      (∃ env, s.makes env .lineLoss) ∧ ∃ env m, m ≠ .lineLoss ∧ s.makes env m) ∧
    s.perform run .wait = .next s

/-! ## The mode controller (45_mode_controller.md) -/

/-- TOGGLE to interrupt mode completes micro-step by micro-step (rules R210 and R211): the flip, the line
enable, the prime, and the two SENDs of the ON line; the prime's faults are stated too. -/
def Obligations.ToggleToInterruptMicroSteps : Prop :=
  ∀ s : State, s.fault = none →
    (s.seq = .toggle .flip → s.mode = .polling →
      exec .toggle s = .next { s with mode := .interrupt, seq := .toggle .enableLine }) ∧
    (s.seq = .toggle .enableLine →
      exec .toggle s = .next { s with lineEn := true, seq := .toggle .prime }) ∧
    (s.seq = .toggle .prime → s.depth ≠ 255#8 → s.perRxArmed = false →
      exec .toggle s = .next { s with
        rx := if s.rxStage = 0#8 then s.rx else s.rx.push s.rxStage, perRxArmed := true,
        seq := .toggle (.onLine
          (if s.mode = .polling ∧ s.params.confirmOn = [] then .crlf else .text)) }) ∧
    (s.seq = .toggle .prime → s.depth ≠ 255#8 → s.perRxArmed = true →
      exec .toggle s = .next { s with
        rx := if s.rxStage = 0#8 then s.rx else s.rx.push s.rxStage,
        fault := some (.rxDoubleArm .toggle) }) ∧
    (s.seq = .toggle .prime → s.depth = 255#8 →
      exec .toggle s = .next { s with fault := some (.guardOverflow .toggle) }) ∧
    (s.seq = .toggle (.onLine .text) → s.SendClear s.params.confirmOn →
      ∃ k, k ≤ s.params.confirmOn.length ∧ exec .toggle s =
        .next { s.afterSend s.params.confirmOn k with seq := .toggle (.onLine .crlf) }) ∧
    (s.seq = .toggle (.onLine .crlf) → s.SendClear [cr, lf] →
      ∃ k, k ≤ 2 ∧ exec .toggle s = .next { s.afterSend [cr, lf] k with seq := .idle })

/-- TOGGLE to polling mode completes micro-step by micro-step (rules R210, R212 and R215): the flip, the
abort, the line disable, the flag, the drain under the guard, and the two SENDs of the OFF line. -/
def Obligations.ToggleToPollingMicroSteps : Prop :=
  ∀ s : State, s.fault = none →
    (s.seq = .toggle .flip → s.mode = .interrupt →
      exec .toggle s = .next { s with mode := .polling, seq := .toggle .abortRx }) ∧
    (s.seq = .toggle .abortRx →
      exec .toggle s = .next { s with perRxArmed := false, seq := .toggle .disableLine }) ∧
    (s.seq = .toggle .disableLine →
      exec .toggle s = .next { s with lineEn := false, seq := .toggle .clearInFlight }) ∧
    (s.seq = .toggle .clearInFlight →
      exec .toggle s = .next { s with txInFlight := false, seq := .toggle .drain }) ∧
    (s.seq = .toggle .drain → s.depth ≠ 255#8 →
      exec .toggle s = .next { s with
        rx := { s.rx with head := s.rx.tail }, tx := { s.tx with head := s.tx.tail },
        seq := .toggle (.offLine
          (if s.mode = .polling ∧ s.params.confirmOff = [] then .crlf else .text)) }) ∧
    (s.seq = .toggle .drain → s.depth = 255#8 →
      exec .toggle s = .next { s with fault := some (.guardOverflow .toggle) }) ∧
    (s.seq = .toggle (.offLine .text) → s.SendClear s.params.confirmOff →
      ∃ k, k ≤ s.params.confirmOff.length ∧ exec .toggle s =
        .next { s.afterSend s.params.confirmOff k with seq := .toggle (.offLine .crlf) }) ∧
    (s.seq = .toggle (.offLine .crlf) → s.SendClear [cr, lf] →
      ∃ k, k ≤ 2 ∧ exec .toggle s = .next { s.afterSend [cr, lf] k with seq := .idle })

/-- A whole TOGGLE from polling mode with no other agent stepping (rule R211's example, for every state
with an empty TX ring, nothing outstanding, and no event that the line enable makes deliverable): five
micro-steps leave interrupt mode with reception armed, the ON line queued and its first byte in
transmission; FG is enabled at each (rule R56). -/
def Obligations.ToggleFromPollingRuns : Prop :=
  ∀ (env : Nat → Draws) (s : State) (b : Byte) (rest : List Byte), s.fault = none →
    s.seq = .toggle .flip → s.mode = .polling → s.depth.toNat < 254 → s.perRxArmed = false →
    s.perTxBusy = false → s.txInFlight = false → s.tx.isEmpty = true →
    ((s.rxPend = false ∧ s.txPend = false) ∨ s.depth ≠ 0#8) →
    s.params.confirmOn = b :: rest → (b ≠ 0#8 ∨ s.params.nulIsEmpty = false) →
    s.params.confirmOn.length ≤ 125 →
    (∃ q : Ring, q.contents = rest ++ [cr, lf] ∧
      foregroundRun env 5 s = .next { s with
        mode := .interrupt, lineEn := true, perRxArmed := true,
        rx := if s.rxStage = 0#8 then s.rx else s.rx.push s.rxStage,
        tx := q, txStage := b, perTxBusy := true, txInFlight := true, seq := .idle }) ∧
    ∀ j, j < 5 → ∃ u, foregroundRun env j s = .next u ∧ u.enabled .foreground = true

/-- A whole TOGGLE from interrupt mode with no other agent stepping and complete transmits (rule R212's
example, for every state with no transmit outstanding and no event deliverable): seven micro-steps leave
polling mode with the line disabled, nothing armed, both rings drained and the OFF line sent; FG is enabled
at each (rule R56). -/
def Obligations.ToggleFromInterruptRuns : Prop :=
  ∀ (env : Nat → Draws) (s : State), s.fault = none → s.seq = .toggle .flip →
    s.mode = .interrupt → s.depth ≠ 255#8 → s.perTxBusy = false → s.params.confirmOff ≠ [] →
    ((s.rxPend = false ∧ s.txPend = false) ∨ s.depth ≠ 0#8) →
    (env s.drawn).sent % (s.params.confirmOff.length + 1) = s.params.confirmOff.length →
    (env (s.drawn + 1)).sent % 3 = 2 →
    foregroundRun env 7 s = .next { s with
      mode := .polling, lineEn := false, perRxArmed := false, txInFlight := false,
      rx := { s.rx with head := s.rx.tail }, tx := { s.tx with head := s.tx.tail },
      lineOut := s.lineOut ++ s.params.confirmOff ++ [cr, lf], drawn := s.drawn + 2,
      seq := .idle } ∧
    ∀ j, j < 7 → ∃ u, foregroundRun env j s = .next u ∧ u.enabled .foreground = true

/-! ## Whole-machine rules -/

/-- Rule R39: who writes each field. Every change of a field in a step is made by the move, and at the
position, that the rule names. -/
def Obligations.FieldWriters : Prop :=
  ∀ (env : Nat → Draws) (s s' : State), stepUnder env s = .next s' →
    (s'.mode ≠ s.mode → s.makes env .foreground ∧ s.seq.togglePos = some .flip) ∧
    (s'.txInFlight ≠ s.txInFlight → s.makes env .irq ∨ (s.makes env .foreground ∧
      ((s.mode = .interrupt ∧ s.sending.isSome = true) ∨
        s.seq.togglePos = some .clearInFlight))) ∧
    (s'.depth ≠ s.depth → s.makes env .irq ∨ (s.makes env .foreground ∧
      (s.seq = .acquire ∨ s.seq = .release ∨
        (s.mode = .interrupt ∧ s.sending.isSome = true)))) ∧
    (s'.lineEn ≠ s.lineEn → s.makes env .foreground ∧
      (s.seq.togglePos = some .enableLine ∨ s.seq.togglePos = some .disableLine)) ∧
    (s'.rxPend ≠ s.rxPend → (s'.rxPend = true ∧ s.makes env .rxComplete) ∨
      (s'.rxPend = false ∧ s.makes env .irq)) ∧
    (s'.txPend ≠ s.txPend → (s'.txPend = true ∧ s.makes env .txComplete) ∨
      (s'.txPend = false ∧ s.makes env .irq)) ∧
    ((s'.rx.buf ≠ s.rx.buf ∨ s'.rx.tail ≠ s.rx.tail) → s.makes env .irq ∨
      (s.makes env .foreground ∧ s.seq.togglePos = some .prime)) ∧
    (s'.rx.head ≠ s.rx.head → s.makes env .foreground ∧
      ((s.mode = .interrupt ∧ s.seq.attempting = true) ∨ s.seq.togglePos = some .drain)) ∧
    ((s'.tx.buf ≠ s.tx.buf ∨ s'.tx.tail ≠ s.tx.tail) → s.makes env .foreground ∧
      s.mode = .interrupt ∧ s.sending.isSome = true) ∧
    (s'.tx.head ≠ s.tx.head → s.makes env .irq ∨ (s.makes env .foreground ∧
      ((s.mode = .interrupt ∧ s.sending.isSome = true) ∨ s.seq.togglePos = some .drain))) ∧
    (s'.rxStage ≠ s.rxStage → s.makes env .rxComplete) ∧
    (s'.txStage ≠ s.txStage → s.makes env .irq ∨
      (s.makes env .foreground ∧ s.mode = .interrupt ∧ s.sending.isSome = true)) ∧
    (s'.perRxArmed ≠ s.perRxArmed →
      (s'.perRxArmed = true ∧ (s.makes env .irq ∨
        (s.makes env .foreground ∧ s.seq.togglePos = some .prime))) ∨
      (s'.perRxArmed = false ∧ (s.makes env .rxComplete ∨
        (s.makes env .foreground ∧ s.seq.togglePos = some .abortRx)))) ∧
    (s'.perTxBusy ≠ s.perTxBusy →
      (s'.perTxBusy = true ∧ (s.makes env .irq ∨
        (s.makes env .foreground ∧ s.mode = .interrupt ∧ s.sending.isSome = true))) ∨
      (s'.perTxBusy = false ∧ s.makes env .txComplete)) ∧
    (s'.fault ≠ s.fault → s.makes env .irq ∨ s.makes env .foreground) ∧
    (s'.lineOut ≠ s.lineOut → s.makes env .txComplete ∨
      (s.makes env .foreground ∧ s.mode = .polling ∧ s.sending.isSome = true)) ∧
    (s'.lineIn ≠ s.lineIn → s.makes env .rxComplete ∨ s.makes env .lineLoss ∨
      (s.makes env .foreground ∧ s.mode = .polling ∧ s.seq.attempting = true)) ∧
    (s'.resByte ≠ s.resByte → s.makes env .foreground ∧ ∃ b, s.seq = .recvByte (.deliver b)) ∧
    ((s'.resLen ≠ s.resLen ∨ s'.resBuf ≠ s.resBuf) → s.makes env .foreground ∧
      ∃ cap filled, s.seq = .receive cap filled .finish) ∧
    (s'.seq ≠ s.seq → s.makes env .foreground) ∧
    (s'.port ≠ s.port → s.makes env .foreground ∧ s.seq = .idle) ∧
    s'.params = s.params

/-- Rule R35: the line output only grows at its end, and the line input is consumed from its front, at
most one byte a step. -/
def Obligations.LineStreams : Prop :=
  ∀ (env : Nat → Draws) (s s' : State), (step s = .next s' ∨ stepUnder env s = .next s') →
    (∃ out, s'.lineOut = s.lineOut ++ out) ∧
      (s'.lineIn = s.lineIn ∨ ∃ b, s.lineIn = b :: s'.lineIn)

/-- Rule R166, for every command but the two receives, under every environment and with IRQ and PER steps
between. `Seq.remaining` ranks the positions: it lies between 1 and the command's bound while the command
runs; every FG step lowers it or faults, and every other step keeps the position. So in any steps through
which the command has not ended, FG makes at most as many of them as the bound. -/
def Obligations.BoundedCommands : Prop :=
  (∀ (q : Seq) (i : Instr) (bound : Nat), q.instr = some i → i.stepBound = some bound →
    ∃ n, q.remaining = some n ∧ 1 ≤ n ∧ n ≤ bound) ∧
  (∀ (env : Nat → Draws) (s s' : State) (n : Nat), stepUnder env s = .next s' → s.seq ≠ .idle →
    s.seq.remaining = some n →
    (s.makes env .foreground → s'.fault ≠ none ∨ ∃ m, m < n ∧ s'.seq.remaining = some m) ∧
      (¬s.makes env .foreground → s'.seq = s.seq)) ∧
  ∀ (env : Nat → Draws) (r : Nat → State) (i : Instr) (bound len : Nat) (made : Finset Nat),
    (∀ k, k < len → stepUnder env (r k) = .next (r (k + 1)) ∧ (r k).seq ≠ .idle) →
    (r 0).seq.instr = some i → i.stepBound = some bound →
    (∀ k, k ∈ made → k < len ∧ (r k).makes env .foreground) → made.card ≤ bound

/-! ## Reset (70_reset_and_hazards.md) -/

/-- Rule R301: the reset values. -/
def Obligations.ResetValues : Prop :=
  State.reset.mode = .polling ∧ State.reset.txInFlight = false ∧ State.reset.depth = 0#8 ∧
  State.reset.irqMasked = false ∧ State.reset.lineEn = false ∧ State.reset.rxPend = false ∧
  State.reset.txPend = false ∧ State.reset.rx.head = 0#7 ∧ State.reset.rx.tail = 0#7 ∧
  State.reset.tx.head = 0#7 ∧ State.reset.tx.tail = 0#7 ∧
  (∀ i, State.reset.rx.at i = 0#8 ∧ State.reset.tx.at i = 0#8) ∧
  State.reset.rxStage = 0#8 ∧ State.reset.txStage = 0#8 ∧ State.reset.perRxArmed = false ∧
  State.reset.perTxBusy = false ∧ State.reset.fault = none ∧ State.reset.resByte = 0#8 ∧
  State.reset.resLen = 0#8 ∧ (∀ (j : Nat) (hj : j < 255), State.reset.resBuf[j] = 0#8) ∧
  State.reset.seq = .idle ∧ State.reset.lineOut = []

/-- Rule R300: a power-on reset in any state, a faulted one too, gives every field of the block its reset
value and does not touch the line. -/
def Obligations.PowerOnResetClears : Prop :=
  ∀ s : State,
    s.powerOnReset = { State.reset with
      lineIn := s.lineIn, lineOut := s.lineOut, port := s.port, params := s.params,
      drawn := s.drawn } ∧
    s.powerOnReset.fault = none ∧ s.powerOnReset.seq = .idle ∧
    s.powerOnReset.perRxArmed = false ∧ s.powerOnReset.perTxBusy = false

/-- The reset state meets every invariant of rule R41 and is a good end (rule R305), and it meets the
invariants that rules R161, R165, R251 and R319 give. That the host has no further command is an empty port,
and the port is empty at reset: the model's own (log entries 9 and 6). -/
def Obligations.ResetMeetsInvariants : Prop :=
  State.reset.ModeLaws ∧ State.reset.RxRingNoNul ∧ State.reset.TI ∧ State.reset.BurstLive ∧
    State.reset.OneReception ∧ State.reset.seq.BufferFits ∧ State.reset.seq.GotNonZero ∧
    State.reset.GoodEnd

/-! ## Invariants of every step (rules R41 and R319) -/

/-- Rules R41(a) and R41(c): in polling mode, outside the body of a TOGGLE, the line is disabled, no
reception is armed and both rings are empty. With what holds at each position of a TOGGLE's body, every
step keeps it. -/
def Obligations.StepKeepsModeLaws : Prop :=
  ∀ (env : Nat → Draws) (s s' : State), s.ModeLaws →
    (step s = .next s' ∨ stepUnder env s = .next s') → s'.ModeLaws

/-- Rule R41(b): every step keeps the RX ring free of 0x00. -/
def Obligations.StepKeepsRxRingNoNul : Prop :=
  ∀ (env : Nat → Draws) (s s' : State), s.RxRingNoNul →
    (step s = .next s' ∨ stepUnder env s = .next s') → s'.RxRingNoNul

/-- Rule R41(d): every step keeps the transmit invariant, but for the step of a switch to polling that
clears the in-flight flag over a byte outstanding or unhandled. -/
def Obligations.StepKeepsTI : Prop :=
  ∀ (env : Nat → Draws) (s s' : State), s.TI →
    (s.seq.togglePos = some .clearInFlight → s.perTxBusy = false ∧ s.txPend = false) →
    (step s = .next s' ∨ stepUnder env s = .next s') → s'.TI

/-- Rule R41(d): under the transmit invariant TX_OVERLAP can come from a polling-mode blocking transmit
only, never from a kickstart or a TXC handler. -/
def Obligations.OverlapUnderTIOnlyInPolling : Prop :=
  ∀ (env : Nat → Draws) (s s' : State) (o : Origin) (b : Byte), s.TI →
    stepUnder env s = .next s' → s'.fault = some (.txOverlap o b) →
    s.makes env .foreground ∧ s.mode = .polling ∧ s.perTxBusy = true ∧
      ∃ rest, s.sending = some (b :: rest)

/-- Rule R319: no step leaves a burst in flight with nothing outstanding and nothing pending, unless it
faults. -/
def Obligations.StepKeepsBurstLive : Prop :=
  ∀ (env : Nat → Draws) (s s' : State), s.BurstLive →
    (step s = .next s' ∨ stepUnder env s = .next s') → s'.BurstLive

/-- Rule R251: a reception outstanding and one unhandled never meet, but for a prime that finds RXC
pending (rule R315). -/
def Obligations.StepKeepsOneReception : Prop :=
  ∀ (env : Nat → Draws) (s s' : State), s.OneReception →
    (s.seq.togglePos = some .prime → s.rxPend = false) →
    (step s = .next s' ∨ stepUnder env s = .next s') → s'.OneReception

/-- Rules R246 and R315: where a reception outstanding and one unhandled do not meet and the mode laws
hold, RX_DOUBLE_ARM can come from the prime of a TOGGLE only. -/
def Obligations.DoubleArmOnlyAtPrime : Prop :=
  ∀ (env : Nat → Draws) (s s' : State) (o : Origin), s.OneReception → s.ModeLaws →
    (step s = .next s' ∨ stepUnder env s = .next s') → s'.fault = some (.rxDoubleArm o) →
    o = .toggle ∧ s.seq.togglePos = some .prime ∧ s.perRxArmed = true
end

