-- ==== Sys2Proof/Laws/Encoding.lean ====
section
/-! SUPPORT. The opcode map row by row: which headers select which opcode (rules R72 and R75). -/

namespace Sys2Proof

theorem header_toNat (b0 b1 : Byte) : (header b0 b1).toNat = b0.toNat * 256 + b1.toNat := by
  have h1 := b1.isLt
  simp only [header, BitVec.toNat_append]
  rw [← Nat.shiftLeft_add_eq_or_of_lt h1, Nat.shiftLeft_eq]

theorem header_inj (a b c d : Byte) : header a b = header c d ↔ a = c ∧ b = d := by
  constructor
  · intro h
    have h' := congrArg BitVec.toNat h
    simp only [header_toNat] at h'
    have := b.isLt
    have := d.isLt
    exact ⟨BitVec.eq_of_toNat_eq (by omega), BitVec.eq_of_toNat_eq (by omega)⟩
  · rintro ⟨rfl, rfl⟩
    rfl

/-- A row whose mask is 0xFF00 is selected by the opcode byte alone. -/
theorem selects_opcode (b0 b1 k : Byte) (op : Opcode) :
    OpcodeRow.selects ⟨header 255#8 0#8, header k 0#8, op⟩ (header b0 b1) = decide (b0 = k) := by
  have h : header b0 b1 &&& header 255#8 0#8 = header (b0 &&& 255#8) (b1 &&& 0#8) :=
    BitVec.and_append
  have h255 : b0 &&& 255#8 = b0 := BitVec.and_allOnes
  simp [OpcodeRow.selects, h, h255, header_inj, Bool.beq_eq_decide_eq]

/-- A row whose mask is 0xFFFF is selected by one header only. -/
theorem selects_header (b0 b1 k : Byte) (op : Opcode) :
    OpcodeRow.selects ⟨header 255#8 255#8, header k 0#8, op⟩ (header b0 b1) =
      decide (b0 = k ∧ b1 = 0#8) := by
  have h : header b0 b1 &&& header 255#8 255#8 = header (b0 &&& 255#8) (b1 &&& 255#8) :=
    BitVec.and_append
  have h255 : ∀ b : Byte, b &&& 255#8 = b := fun b => BitVec.and_allOnes
  simp [OpcodeRow.selects, h, h255, header_inj, Bool.beq_eq_decide_eq]

/-- The opcode map as a function of the two header bytes (rules R72 and R75). -/
theorem ofHeader_eq (b0 b1 : Byte) :
    Opcode.ofHeader (header b0 b1) =
      if b0 = 1#8 then some .send
      else if b0 = 2#8 then some .sendLine
      else if b0 = 3#8 ∧ b1 = 0#8 then some .recvByte
      else if b0 = 4#8 then some .receive
      else if b0 = 5#8 ∧ b1 = 0#8 then some .toggle
      else if b0 = 6#8 ∧ b1 = 0#8 then some .acquire
      else if b0 = 7#8 ∧ b1 = 0#8 then some .release
      else none := by
  have hrows : opcodeRows =
      [⟨header 255#8 0#8, header 1#8 0#8, .send⟩, ⟨header 255#8 0#8, header 2#8 0#8, .sendLine⟩,
        ⟨header 255#8 255#8, header 3#8 0#8, .recvByte⟩,
        ⟨header 255#8 0#8, header 4#8 0#8, .receive⟩,
        ⟨header 255#8 255#8, header 5#8 0#8, .toggle⟩,
        ⟨header 255#8 255#8, header 6#8 0#8, .acquire⟩,
        ⟨header 255#8 255#8, header 7#8 0#8, .release⟩] := by decide
  simp only [Opcode.ofHeader, hrows, List.find?_cons, List.find?_nil, selects_opcode, selects_header]
  by_cases h1 : b0 = 1#8
  · simp only [h1, decide_true, if_true, Option.map_some]
  simp only [h1, decide_false, if_false]
  by_cases h2 : b0 = 2#8
  · simp only [h2, decide_true, if_true, Option.map_some]
  simp only [h2, decide_false, if_false]
  by_cases h3 : b0 = 3#8 ∧ b1 = 0#8
  · simp only [h3, decide_true, and_self, if_true, Option.map_some]
  simp only [h3, decide_false, if_false]
  by_cases h4 : b0 = 4#8
  · simp only [h4, decide_true, if_true, Option.map_some]
  simp only [h4, decide_false, if_false]
  by_cases h5 : b0 = 5#8 ∧ b1 = 0#8
  · simp only [h5, decide_true, and_self, if_true, Option.map_some]
  simp only [h5, decide_false, if_false]
  by_cases h6 : b0 = 6#8 ∧ b1 = 0#8
  · simp only [h6, decide_true, and_self, if_true, Option.map_some]
  simp only [h6, decide_false, if_false]
  by_cases h7 : b0 = 7#8 ∧ b1 = 0#8
  · simp only [h7, decide_true, and_self, if_true, Option.map_some]
  simp only [h7, decide_false, if_false]
  rfl

/-- The bytes of the command at the front, alone, decode to it whatever follows them (rule R76). -/
theorem decode_take (bytes : List Byte) (i : Instr) (r : List Byte) (h : decode bytes = .command i r)
    (rest : List Byte) : decode (bytes.take i.length ++ rest) = .command i rest := by
  rcases bytes with _ | ⟨b0, _ | ⟨b1, bs⟩⟩
  · cases h
  · cases h
  simp only [decode] at h
  split at h
  · rename_i op ho
    have hl : i.length = i.payload.length + 2 := Nat.add_comm _ _
    simp only [hl, List.take_succ_cons, List.cons_append, decode, ho]
    cases op <;> simp only [decodeBody, decodePayload] at h ⊢
    case send | sendLine =>
      split at h <;> simp only [Decoded.command.injEq, reduceCtorEq] at h
      obtain ⟨rfl, rfl⟩ := h
      simp [Instr.payload, *]
    all_goals
      simp only [Decoded.command.injEq] at h
      obtain ⟨rfl, rfl⟩ := h
      simp [Instr.payload]
  · cases h

/-- The name of a command's opcode. -/
def Instr.opcode : Instr → Opcode
  | .send _ => .send
  | .sendLine _ => .sendLine
  | .recvByte => .recvByte
  | .receive _ => .receive
  | .toggle => .toggle
  | .acquire => .acquire
  | .release => .release

end Sys2Proof
end

