-- ==== Sys2Proof/Laws/State.lean ====
section
/-! SUPPORT. The fields after each named update, one lemma each, and what `thenDo` does. -/

namespace Sys2Proof.Machine

variable (s : State)

@[simp] theorem State.raise_mode (f : Fault) : (s.raise f).mode = s.mode := rfl
@[simp] theorem State.raise_txInFlight (f : Fault) : (s.raise f).txInFlight = s.txInFlight := rfl
@[simp] theorem State.raise_depth (f : Fault) : (s.raise f).depth = s.depth := rfl
@[simp] theorem State.raise_lineEn (f : Fault) : (s.raise f).lineEn = s.lineEn := rfl
@[simp] theorem State.raise_rxPend (f : Fault) : (s.raise f).rxPend = s.rxPend := rfl
@[simp] theorem State.raise_txPend (f : Fault) : (s.raise f).txPend = s.txPend := rfl
@[simp] theorem State.raise_rx (f : Fault) : (s.raise f).rx = s.rx := rfl
@[simp] theorem State.raise_tx (f : Fault) : (s.raise f).tx = s.tx := rfl
@[simp] theorem State.raise_rxStage (f : Fault) : (s.raise f).rxStage = s.rxStage := rfl
@[simp] theorem State.raise_txStage (f : Fault) : (s.raise f).txStage = s.txStage := rfl
@[simp] theorem State.raise_perRxArmed (f : Fault) : (s.raise f).perRxArmed = s.perRxArmed := rfl
@[simp] theorem State.raise_perTxBusy (f : Fault) : (s.raise f).perTxBusy = s.perTxBusy := rfl
@[simp] theorem State.raise_fault (f : Fault) : (s.raise f).fault = some f := rfl
@[simp] theorem State.raise_lineIn (f : Fault) : (s.raise f).lineIn = s.lineIn := rfl
@[simp] theorem State.raise_lineOut (f : Fault) : (s.raise f).lineOut = s.lineOut := rfl
@[simp] theorem State.raise_resByte (f : Fault) : (s.raise f).resByte = s.resByte := rfl
@[simp] theorem State.raise_resLen (f : Fault) : (s.raise f).resLen = s.resLen := rfl
@[simp] theorem State.raise_resBuf (f : Fault) : (s.raise f).resBuf = s.resBuf := rfl
@[simp] theorem State.raise_seq (f : Fault) : (s.raise f).seq = s.seq := rfl
@[simp] theorem State.raise_port (f : Fault) : (s.raise f).port = s.port := rfl
@[simp] theorem State.raise_params (f : Fault) : (s.raise f).params = s.params := rfl
@[simp] theorem State.raise_drawn (f : Fault) : (s.raise f).drawn = s.drawn := rfl

@[simp] theorem State.goto_mode (q : Seq) : (s.goto q).mode = s.mode := rfl
@[simp] theorem State.goto_txInFlight (q : Seq) : (s.goto q).txInFlight = s.txInFlight := rfl
@[simp] theorem State.goto_depth (q : Seq) : (s.goto q).depth = s.depth := rfl
@[simp] theorem State.goto_lineEn (q : Seq) : (s.goto q).lineEn = s.lineEn := rfl
@[simp] theorem State.goto_rxPend (q : Seq) : (s.goto q).rxPend = s.rxPend := rfl
@[simp] theorem State.goto_txPend (q : Seq) : (s.goto q).txPend = s.txPend := rfl
@[simp] theorem State.goto_rx (q : Seq) : (s.goto q).rx = s.rx := rfl
@[simp] theorem State.goto_tx (q : Seq) : (s.goto q).tx = s.tx := rfl
@[simp] theorem State.goto_rxStage (q : Seq) : (s.goto q).rxStage = s.rxStage := rfl
@[simp] theorem State.goto_txStage (q : Seq) : (s.goto q).txStage = s.txStage := rfl
@[simp] theorem State.goto_perRxArmed (q : Seq) : (s.goto q).perRxArmed = s.perRxArmed := rfl
@[simp] theorem State.goto_perTxBusy (q : Seq) : (s.goto q).perTxBusy = s.perTxBusy := rfl
@[simp] theorem State.goto_fault (q : Seq) : (s.goto q).fault = s.fault := rfl
@[simp] theorem State.goto_lineIn (q : Seq) : (s.goto q).lineIn = s.lineIn := rfl
@[simp] theorem State.goto_lineOut (q : Seq) : (s.goto q).lineOut = s.lineOut := rfl
@[simp] theorem State.goto_resByte (q : Seq) : (s.goto q).resByte = s.resByte := rfl
@[simp] theorem State.goto_resLen (q : Seq) : (s.goto q).resLen = s.resLen := rfl
@[simp] theorem State.goto_resBuf (q : Seq) : (s.goto q).resBuf = s.resBuf := rfl
@[simp] theorem State.goto_seq (q : Seq) : (s.goto q).seq = q := rfl
@[simp] theorem State.goto_port (q : Seq) : (s.goto q).port = s.port := rfl
@[simp] theorem State.goto_params (q : Seq) : (s.goto q).params = s.params := rfl
@[simp] theorem State.goto_drawn (q : Seq) : (s.goto q).drawn = s.drawn := rfl

@[simp] theorem State.drew_mode : (s.drew).mode = s.mode := rfl
@[simp] theorem State.drew_txInFlight : (s.drew).txInFlight = s.txInFlight := rfl
@[simp] theorem State.drew_depth : (s.drew).depth = s.depth := rfl
@[simp] theorem State.drew_lineEn : (s.drew).lineEn = s.lineEn := rfl
@[simp] theorem State.drew_rxPend : (s.drew).rxPend = s.rxPend := rfl
@[simp] theorem State.drew_txPend : (s.drew).txPend = s.txPend := rfl
@[simp] theorem State.drew_rx : (s.drew).rx = s.rx := rfl
@[simp] theorem State.drew_tx : (s.drew).tx = s.tx := rfl
@[simp] theorem State.drew_rxStage : (s.drew).rxStage = s.rxStage := rfl
@[simp] theorem State.drew_txStage : (s.drew).txStage = s.txStage := rfl
@[simp] theorem State.drew_perRxArmed : (s.drew).perRxArmed = s.perRxArmed := rfl
@[simp] theorem State.drew_perTxBusy : (s.drew).perTxBusy = s.perTxBusy := rfl
@[simp] theorem State.drew_fault : (s.drew).fault = s.fault := rfl
@[simp] theorem State.drew_lineIn : (s.drew).lineIn = s.lineIn := rfl
@[simp] theorem State.drew_lineOut : (s.drew).lineOut = s.lineOut := rfl
@[simp] theorem State.drew_resByte : (s.drew).resByte = s.resByte := rfl
@[simp] theorem State.drew_resLen : (s.drew).resLen = s.resLen := rfl
@[simp] theorem State.drew_resBuf : (s.drew).resBuf = s.resBuf := rfl
@[simp] theorem State.drew_seq : (s.drew).seq = s.seq := rfl
@[simp] theorem State.drew_port : (s.drew).port = s.port := rfl
@[simp] theorem State.drew_params : (s.drew).params = s.params := rfl
@[simp] theorem State.drew_drawn : (s.drew).drawn = s.drawn + 1 := rfl

@[simp] theorem State.emit_mode (bs : List Byte) : (s.emit bs).mode = s.mode := rfl
@[simp] theorem State.emit_txInFlight (bs : List Byte) : (s.emit bs).txInFlight = s.txInFlight := rfl
@[simp] theorem State.emit_depth (bs : List Byte) : (s.emit bs).depth = s.depth := rfl
@[simp] theorem State.emit_lineEn (bs : List Byte) : (s.emit bs).lineEn = s.lineEn := rfl
@[simp] theorem State.emit_rxPend (bs : List Byte) : (s.emit bs).rxPend = s.rxPend := rfl
@[simp] theorem State.emit_txPend (bs : List Byte) : (s.emit bs).txPend = s.txPend := rfl
@[simp] theorem State.emit_rx (bs : List Byte) : (s.emit bs).rx = s.rx := rfl
@[simp] theorem State.emit_tx (bs : List Byte) : (s.emit bs).tx = s.tx := rfl
@[simp] theorem State.emit_rxStage (bs : List Byte) : (s.emit bs).rxStage = s.rxStage := rfl
@[simp] theorem State.emit_txStage (bs : List Byte) : (s.emit bs).txStage = s.txStage := rfl
@[simp] theorem State.emit_perRxArmed (bs : List Byte) : (s.emit bs).perRxArmed = s.perRxArmed := rfl
@[simp] theorem State.emit_perTxBusy (bs : List Byte) : (s.emit bs).perTxBusy = s.perTxBusy := rfl
@[simp] theorem State.emit_fault (bs : List Byte) : (s.emit bs).fault = s.fault := rfl
@[simp] theorem State.emit_lineIn (bs : List Byte) : (s.emit bs).lineIn = s.lineIn := rfl
@[simp] theorem State.emit_lineOut (bs : List Byte) : (s.emit bs).lineOut = s.lineOut ++ bs := rfl
@[simp] theorem State.emit_resByte (bs : List Byte) : (s.emit bs).resByte = s.resByte := rfl
@[simp] theorem State.emit_resLen (bs : List Byte) : (s.emit bs).resLen = s.resLen := rfl
@[simp] theorem State.emit_resBuf (bs : List Byte) : (s.emit bs).resBuf = s.resBuf := rfl
@[simp] theorem State.emit_seq (bs : List Byte) : (s.emit bs).seq = s.seq := rfl
@[simp] theorem State.emit_port (bs : List Byte) : (s.emit bs).port = s.port := rfl
@[simp] theorem State.emit_params (bs : List Byte) : (s.emit bs).params = s.params := rfl
@[simp] theorem State.emit_drawn (bs : List Byte) : (s.emit bs).drawn = s.drawn := rfl

/-- A micro-step that has raised a fault makes no further write (rule R240). -/
theorem State.thenDo_of_some {f : Fault} (k : State → State) (h : s.fault = some f) : s.thenDo k = s := by
  simp [State.thenDo, h]

/-- Without a fault the micro-step goes on. -/
theorem State.thenDo_of_none (k : State → State) (h : s.fault = none) : s.thenDo k = k s := by
  simp [State.thenDo, h]

theorem State.thenDo_cases (k : State → State) :
    ((∃ f, s.fault = some f) ∧ s.thenDo k = s) ∨ (s.fault = none ∧ s.thenDo k = k s) := by
  cases h : s.fault with
  | some f => exact .inl ⟨⟨f, rfl⟩, s.thenDo_of_some k h⟩
  | none => exact .inr ⟨rfl, s.thenDo_of_none k h⟩

/-- A state without a fault after `thenDo` had none before it. -/
theorem State.fault_of_thenDo (k : State → State) (h : (s.thenDo k).fault = none) :
    s.fault = none ∧ s.thenDo k = k s := by
  rcases s.thenDo_cases k with ⟨⟨f, hf⟩, he⟩ | h'
  · rw [he, hf] at h
    cases h
  · exact h'

/-- What holds before, and is kept by going on, holds after. -/
theorem State.thenDo_keeps (P : State → Prop) (k : State → State) (hk : ∀ t, P t → P (k t)) (h : P s) :
    P (s.thenDo k) := by
  rcases s.thenDo_cases k with ⟨_, he⟩ | ⟨_, he⟩ <;> rw [he]
  · exact h
  · exact hk s h

/-- Moving the sequencer changes no other field, so neither does doing it unless a fault was raised. -/
@[simp] theorem State.thenGoto_fault (q : Seq) : (s.thenDo fun t => t.goto q).fault = s.fault :=
  s.thenDo_keeps (fun t => t.fault = s.fault) _ (fun _ h => h) rfl

@[simp] theorem State.thenGoto_depth (q : Seq) : (s.thenDo fun t => t.goto q).depth = s.depth :=
  s.thenDo_keeps (fun t => t.depth = s.depth) _ (fun _ h => h) rfl

end Sys2Proof.Machine
end

