-- ==== Sys2Proof/Laws/Guard.lean ====
section
/-! SUPPORT. What the guard does (rules R120, R121 and R125). -/

namespace Sys2Proof.Machine

variable (s : State) (o : Origin)

theorem State.acquire_of_max (h : s.depth = 255#8) : s.acquire o = s.raise (.guardOverflow o) := by
  simp [State.acquire, h]

theorem State.acquire_of_ne (h : s.depth ≠ 255#8) :
    s.acquire o = { s with depth := s.depth + 1#8 } := by
  simp [State.acquire, h]

theorem State.release_of_zero (h : s.depth = 0#8) : s.release o = s.raise (.guardUnderflow o) := by
  simp [State.release, h]

theorem State.release_of_ne (h : s.depth ≠ 0#8) :
    s.release o = { s with depth := s.depth - 1#8 } := by
  simp [State.release, h]

theorem depth_succ_ne_zero {d : Byte} (h : d ≠ 255#8) : d + 1#8 ≠ 0#8 := by
  intro hc
  exact h (by bv_omega)

theorem depth_succ_sub (d : Byte) : d + 1#8 - 1#8 = d := by
  bv_omega

/-- Releasing the level just acquired restores the depth, whatever else has been written. -/
theorem State.release_after_acquire (t : State) (hd : s.depth ≠ 255#8) (ht : t.depth = s.depth + 1#8) :
    t.release o = { t with depth := s.depth } := by
  rw [State.release_of_ne t o (by rw [ht]; exact depth_succ_ne_zero hd), ht, depth_succ_sub]

/-- An `Acquire()` either raises GUARD_OVERFLOW, at depth 255 only, or goes one level deeper. -/
theorem State.acquire_cases :
    (s.depth = 255#8 ∧ s.acquire o = s.raise (.guardOverflow o)) ∨
      (s.depth ≠ 255#8 ∧ s.acquire o = { s with depth := s.depth + 1#8 }) := by
  by_cases h : s.depth = 255#8
  · exact .inl ⟨h, s.acquire_of_max o h⟩
  · exact .inr ⟨h, s.acquire_of_ne o h⟩

/-- A guarded section below the limit runs one level deeper (rule R125). -/
theorem State.guarded_eq (k : State → State) (hf : s.fault = none) (hd : s.depth ≠ 255#8) :
    (s.acquire o).thenDo k = k { s with depth := s.depth + 1#8 } := by
  rw [s.acquire_of_ne o hd]
  exact State.thenDo_of_none _ k hf

/-- At the limit a guarded section is its fault and nothing else (rule R120). -/
theorem State.guarded_max (k : State → State) (hd : s.depth = 255#8) :
    (s.acquire o).thenDo k = s.raise (.guardOverflow o) := by
  rw [s.acquire_of_max o hd]
  rfl

/-- The release at the end of a guarded section that has raised no fault. -/
theorem State.thenRelease_eq (t : State) (hf : t.fault = none) (hd : s.depth ≠ 255#8)
    (ht : t.depth = s.depth + 1#8) : (t.thenDo fun s => s.release o) = { t with depth := s.depth } := by
  rw [t.thenDo_of_none _ hf, s.release_after_acquire o t hd ht]

end Sys2Proof.Machine
end

