-- ==== Sys2Proof/Laws/Ring.lean ====
section
/-! SUPPORT. What the ring operations do to the bytes held (rules R100 to R107). -/

namespace Sys2Proof.Machine

theorem Ring.isEmpty_iff (q : Ring) : q.isEmpty = true ↔ q.head = q.tail := by
  simp [Ring.isEmpty]

theorem Ring.isFull_iff (q : Ring) : q.isFull = true ↔ q.tail + 1#7 = q.head := by
  simp [Ring.isFull]

theorem Ring.not_isEmpty_iff (q : Ring) : q.isEmpty = false ↔ q.head ≠ q.tail := by
  simp [Ring.isEmpty]

theorem Ring.not_isFull_iff (q : Ring) : q.isFull = false ↔ q.tail + 1#7 ≠ q.head := by
  simp [Ring.isFull]

theorem Ring.count_le (q : Ring) : q.count ≤ 127 := by
  have := (q.tail - q.head).isLt
  unfold Ring.count
  omega

theorem Ring.count_eq_zero_iff (q : Ring) : q.count = 0 ↔ q.isEmpty = true := by
  rw [Ring.isEmpty_iff]
  unfold Ring.count
  constructor <;> intro h <;> bv_omega

theorem Ring.count_eq_max_iff (q : Ring) : q.count = 127 ↔ q.isFull = true := by
  rw [Ring.isFull_iff]
  unfold Ring.count
  constructor <;> intro h <;> bv_omega

@[simp] theorem Ring.length_contents (q : Ring) : q.contents.length = q.count := by
  simp [Ring.contents]

theorem Ring.contents_eq_nil_iff (q : Ring) : q.contents = [] ↔ q.isEmpty = true := by
  rw [← List.length_eq_zero_iff, Ring.length_contents, Ring.count_eq_zero_iff]

/-- A push into a full ring changes nothing (rule R103). -/
theorem Ring.push_full (q : Ring) (b : Byte) (h : q.isFull = true) : q.push b = q := by
  simp [Ring.push, h]

@[simp] theorem Ring.push_head (q : Ring) (b : Byte) : (q.push b).head = q.head := by
  unfold Ring.push
  split <;> rfl

theorem Ring.push_tail (q : Ring) (b : Byte) (h : q.isFull = false) :
    (q.push b).tail = q.tail + 1#7 := by
  simp [Ring.push, h]

theorem Ring.push_at (q : Ring) (b : Byte) (i : Index) (h : q.isFull = false) :
    (q.push b).at i = if i = q.tail then b else q.at i := by
  simp only [Ring.push, h, Ring.at, Vector.getElem_set, Bool.false_eq_true, if_false]
  by_cases hi : i = q.tail
  · simp [hi]
  · have : q.tail.toNat ≠ i.toNat := fun hc => hi (BitVec.eq_of_toNat_eq hc.symm)
    simp [hi, this]

theorem Ring.push_count (q : Ring) (b : Byte) (h : q.isFull = false) :
    (q.push b).count = q.count + 1 := by
  have hf := (Ring.not_isFull_iff q).1 h
  rw [Ring.count, Ring.push_tail q b h, Ring.push_head, Ring.count]
  bv_omega

theorem Ring.head_add_count (q : Ring) : q.head + BitVec.ofNat 7 q.count = q.tail := by
  unfold Ring.count
  bv_omega

theorem Ring.head_add_ne_tail (q : Ring) (k : Nat) (h : k < q.count) :
    q.head + BitVec.ofNat 7 k ≠ q.tail := by
  unfold Ring.count at h
  intro hc
  bv_omega

/-- A push into a ring that is not full adds its byte at the end (rules R59 and R103). -/
theorem Ring.push_contents (q : Ring) (b : Byte) (h : q.isFull = false) :
    (q.push b).contents = q.contents ++ [b] := by
  simp only [Ring.contents, Ring.push_count q b h, Ring.push_head, List.range_succ, List.map_append,
    List.map_cons, List.map_nil, Ring.push_at q b _ h, Ring.head_add_count, if_true]
  congr 1
  refine List.map_congr_left fun k hk => ?_
  rw [if_neg (Ring.head_add_ne_tail q k (List.mem_range.1 hk))]

theorem Ring.pop_empty (q : Ring) (nul : Bool) (h : q.isEmpty = true) : q.pop nul = (none, q) := by
  simp [Ring.pop, h]

/-- A pop leaves the storage and `tail` alone (rule R104). -/
@[simp] theorem Ring.pop_tail (q : Ring) (nul : Bool) : (q.pop nul).2.tail = q.tail := by
  unfold Ring.pop
  split
  · rfl
  · dsimp only
    split <;> rfl

@[simp] theorem Ring.pop_buf (q : Ring) (nul : Bool) : (q.pop nul).2.buf = q.buf := by
  unfold Ring.pop
  split
  · rfl
  · dsimp only
    split <;> rfl

theorem Ring.pop_ring (q : Ring) (nul : Bool) (h : q.isEmpty = false) :
    (q.pop nul).2 = { q with head := q.head + 1#7 } := by
  simp only [Ring.pop, h, Bool.false_eq_true, if_false]
  split <;> rfl

/-- A ring that is not empty holds the byte at `head`, then what is held after it (rule R104). -/
theorem Ring.contents_cons (q : Ring) (h : q.isEmpty = false) :
    q.contents = q.at q.head :: ({ q with head := q.head + 1#7 } : Ring).contents := by
  have hne := (Ring.not_isEmpty_iff q).1 h
  have hc : q.count = ({ q with head := q.head + 1#7 } : Ring).count + 1 := by
    unfold Ring.count
    bv_omega
  simp only [Ring.contents, hc, List.range_succ_eq_map, List.map_cons, List.map_map]
  congr 1
  · simp
  · refine List.map_congr_left fun k _ => ?_
    simp only [Function.comp, Ring.at]
    have : q.head + BitVec.ofNat 7 (k + 1) = q.head + 1#7 + BitVec.ofNat 7 k := by
      rw [BitVec.ofNat_add, BitVec.add_assoc, BitVec.add_comm (BitVec.ofNat 7 k)]
    simp [Nat.succ_eq_add_one, this]

/-- What a pop answers and leaves, in terms of the bytes held (rule R104): the oldest byte, unless it is
a 0x00 under the sentinel reading. -/
theorem Ring.pop_contents (q : Ring) (nul : Bool) :
    match q.contents with
    | [] => q.pop nul = (none, q)
    | b :: bs => (q.pop nul).1 = (if b = 0#8 ∧ nul = true then none else some b) ∧
        (q.pop nul).2.contents = bs := by
  cases h : q.isEmpty with
  | true => simp [(Ring.contents_eq_nil_iff q).2 h, Ring.pop_empty q nul h]
  | false =>
    rw [Ring.contents_cons q h]
    refine ⟨?_, by rw [Ring.pop_ring q nul h]⟩
    simp only [Ring.pop, h, Bool.false_eq_true, if_false, Bool.and_eq_true, beq_iff_eq]
    split <;> rfl

/-- What a pop leaves: the bytes held less the oldest, whichever reading holds (rule R104). -/
theorem Ring.pop_contents_snd (q : Ring) (nul : Bool) :
    (q.pop nul).2.contents = q.contents.tail := by
  have h := Ring.pop_contents q nul
  cases hc : q.contents with
  | nil => rw [hc] at h; simp [h, hc]
  | cons b bs => rw [hc] at h; simpa using h.2

/-- A drained ring is empty and keeps its storage and `tail` (rule R105). -/
@[simp] theorem Ring.drain_isEmpty (q : Ring) : q.drain.isEmpty = true := by
  simp [Ring.drain, Ring.isEmpty]

@[simp] theorem Ring.drain_contents (q : Ring) : q.drain.contents = [] :=
  (Ring.contents_eq_nil_iff _).2 (Ring.drain_isEmpty q)

@[simp] theorem Ring.pushAll_nil (q : Ring) : q.pushAll [] = q := rfl

@[simp] theorem Ring.pushAll_cons (q : Ring) (b : Byte) (p : List Byte) :
    q.pushAll (b :: p) = (q.push b).pushAll p := rfl

@[simp] theorem Ring.pushAll_head (q : Ring) (p : List Byte) : (q.pushAll p).head = q.head := by
  induction p generalizing q with
  | nil => rfl
  | cons b p ih => rw [Ring.pushAll_cons, ih, Ring.push_head]

/-- Pushing a payload keeps what was held and adds as many bytes as there is room for (rules R103, R107). -/
theorem Ring.pushAll_contents (q : Ring) (p : List Byte) :
    (q.pushAll p).contents = q.contents ++ p.take (127 - q.count) := by
  induction p generalizing q with
  | nil => simp
  | cons b p ih =>
    rw [Ring.pushAll_cons, ih]
    cases h : q.isFull with
    | true =>
      have := (Ring.count_eq_max_iff q).2 h
      simp [Ring.push_full q b h, this]
    | false =>
      have hne : q.count ≠ 127 := fun hc => by simp [(Ring.count_eq_max_iff q).1 hc] at h
      have hle := q.count_le
      obtain ⟨n, hn⟩ : ∃ n, 127 - q.count = n + 1 := ⟨126 - q.count, by omega⟩
      rw [Ring.push_contents q b h, Ring.push_count q b h, List.append_assoc, hn]
      congr 1
      simp only [List.take_succ_cons, List.singleton_append]
      congr 2
      omega

end Sys2Proof.Machine
end

