-- ==== Sys2Proof/Laws/Handlers.lean ====
section
/-! SUPPORT. Everything the guarded operations and the handler bodies can do (rules R190, R191 and R215). -/

namespace Sys2Proof.Machine

variable (s : State) (o : Origin)

/-- Draining under the guard, below its limit (rule R215). -/
theorem State.drainRings_eq (hf : s.fault = none) (hd : s.depth ≠ 255#8) :
    s.drainRings o = { s with rx := s.rx.drain, tx := s.tx.drain } := by
  rw [State.drainRings, s.guarded_eq o _ hf hd, s.release_after_acquire o _ hd rfl]

theorem State.drainRings_max (hd : s.depth = 255#8) :
    s.drainRings o = s.raise (.guardOverflow o) := by
  rw [State.drainRings, s.guarded_max o _ hd]

theorem State.armReceive_eq :
    s.armReceive o =
      if s.perRxArmed then s.raise (.rxDoubleArm o) else { s with perRxArmed := true } := rfl

/-- The receive handler's body, below the guard's limit (rule R190). -/
theorem State.rxHandlerBody_eq (hf : s.fault = none) (hd : s.depth ≠ 255#8) :
    s.rxHandlerBody o =
      if s.perRxArmed then
        { s with rx := s.rx.deliver s.rxStage, fault := some (.rxDoubleArm o) }
      else { s with rx := s.rx.deliver s.rxStage, perRxArmed := true } := by
  rw [State.rxHandlerBody, s.guarded_eq o _ hf hd, s.release_after_acquire o _ hd rfl]
  exact State.thenDo_of_none _ _ hf

theorem State.rxHandlerBody_max (hd : s.depth = 255#8) :
    s.rxHandlerBody o = s.raise (.guardOverflow o) := by
  rw [State.rxHandlerBody, s.guarded_max o _ hd]

/-- What the transmit handler's body leaves, by what its pop answers (rule R191). -/
def State.txOutcome (s : State) (o : Origin) : Option Byte × Ring → State
  | (some b, q) =>
    if s.perTxBusy then
      { s with depth := s.depth + 1#8, tx := q, txStage := b, fault := some (.txOverlap o b) }
    else { s with tx := q, txStage := b, perTxBusy := true }
  | (none, q) => { s with tx := q, txInFlight := false }

/-- The transmit handler's body, below the guard's limit (rule R191). -/
theorem State.txHandlerBody_eq (hf : s.fault = none) (hd : s.depth ≠ 255#8) :
    s.txHandlerBody o = s.txOutcome o (s.tx.pop s.params.nulIsEmpty) := by
  rw [State.txHandlerBody, s.guarded_eq o _ hf hd]
  rcases s.tx.pop s.params.nulIsEmpty with ⟨_ | b, q⟩
  · exact s.thenRelease_eq o _ hf hd rfl
  · simp only [State.transmitPopped, State.txOutcome, State.armTransmit]
    cases hb : s.perTxBusy with
    | true => rfl
    | false => exact s.thenRelease_eq o _ hf hd rfl

theorem State.txHandlerBody_max (hd : s.depth = 255#8) :
    s.txHandlerBody o = s.raise (.guardOverflow o) := by
  rw [State.txHandlerBody, s.guarded_max o _ hd]

/-- A deliverable event finds no fault, the line enabled and the guard free (rule R253). -/
theorem State.deliverable_iff (e : Event) :
    s.deliverable e = true ↔
      s.pend e = true ∧ s.lineEn = true ∧ s.depth = 0#8 ∧ s.fault = none := by
  simp [State.deliverable, State.irqMasked, and_assoc]

/-- Delivering a staged byte puts no 0x00 into the ring (rules R41(b) and R190). -/
theorem Ring.deliver_no_nul (q : Ring) (b : Byte) (h : 0#8 ∉ q.contents) :
    0#8 ∉ (q.deliver b).contents := by
  unfold Ring.deliver
  split
  · exact h
  · rename_i hb
    cases hf : q.isFull with
    | true => rwa [Ring.push_full q b hf]
    | false => simp [Ring.push_contents q b hf, h, Ne.symm hb]

/-- When some event is deliverable, RXC is, or TXC alone is (rules R254 and R255). -/
theorem State.anyDeliverable_cases (h : s.anyDeliverable = true) :
    s.deliverable .rxc = true ∨ (s.deliverable .rxc = false ∧ s.deliverable .txc = true) := by
  unfold State.anyDeliverable at h
  cases hr : s.deliverable .rxc with
  | true => exact .inl rfl
  | false => simpa [hr] using h

/-- The IRQ step of a deliverable RXC (rules R190, R192 and R254). -/
theorem State.irqStep_rxc (h : s.deliverable .rxc = true) :
    s.irqStep =
      if s.perRxArmed then
        { s with
          rxPend := false, rx := s.rx.deliver s.rxStage, fault := some (.rxDoubleArm .rxc) }
      else { s with rxPend := false, rx := s.rx.deliver s.rxStage, perRxArmed := true } := by
  have hd := (s.deliverable_iff .rxc).1 h
  rw [State.irqStep, if_pos h, State.onRxc,
    ({ s with rxPend := false } : State).rxHandlerBody_eq _ hd.2.2.2 (by simp [hd.2.2.1])]

/-- The IRQ step of a deliverable TXC, no RXC being deliverable (rules R191, R193 and R254). -/
theorem State.irqStep_txc (hr : s.deliverable .rxc = false) (h : s.deliverable .txc = true) :
    s.irqStep =
      ({ s with txPend := false } : State).txOutcome .txc (s.tx.pop s.params.nulIsEmpty) := by
  have hd := (s.deliverable_iff .txc).1 h
  rw [State.irqStep, if_neg (by simp [hr]), State.onTxc,
    ({ s with txPend := false } : State).txHandlerBody_eq _ hd.2.2.2 (by simp [hd.2.2.1])]

end Sys2Proof.Machine
end

