-- ==== Sys2Proof/Laws/Send.lean ====
section
/-! SUPPORT. Everything one SEND can do (rules R140 to R142). -/

namespace Sys2Proof.Machine

variable (s : State) (d : Draws) (o : Origin) (p : List Byte)

/-- A SEND in flight only queues (rule R141). -/
theorem State.sendInterrupt_inFlight (hf : s.fault = none) (hd : s.depth ≠ 255#8)
    (hi : s.txInFlight = true) : s.sendInterrupt o p = { s with tx := s.tx.pushAll p } := by
  rw [State.sendInterrupt, s.guarded_eq o _ hf hd]
  simp only [State.kickstart, hi, if_true]
  exact s.thenRelease_eq o _ hf hd rfl

/-- A SEND with no burst in flight kickstarts one, at two guard levels (rules R126 and R141). -/
theorem State.sendInterrupt_idle (hf : s.fault = none) (hd : s.depth.toNat < 254)
    (hi : s.txInFlight = false) :
    s.sendInterrupt o p =
      (({ s with depth := s.depth + 1#8, tx := s.tx.pushAll p, txInFlight := true } : State).txOutcome o
        ((s.tx.pushAll p).pop s.params.nulIsEmpty)).thenDo fun s => s.release o := by
  have h1 : s.depth ≠ 255#8 := by
    intro h
    simp [h] at hd
  have h2 : s.depth + 1#8 ≠ 255#8 := by
    intro h
    bv_omega
  rw [State.sendInterrupt, s.guarded_eq o _ hf h1]
  simp only [State.kickstart, hi, Bool.false_eq_true, if_false, State.armFirstTransmit]
  rw [({ s with depth := s.depth + 1#8, tx := s.tx.pushAll p, txInFlight := true } : State).txHandlerBody_eq
    o hf h2]

theorem State.sendInterrupt_max (hd : s.depth = 255#8) :
    s.sendInterrupt o p = s.raise (.guardOverflow o) := by
  rw [State.sendInterrupt, s.guarded_max o _ hd]

/-- At depth 254 the kickstart's own `Acquire()` meets the limit (rules R126 and R248). -/
theorem State.sendInterrupt_nested_max (hf : s.fault = none) (hd : s.depth = 254#8)
    (hi : s.txInFlight = false) :
    s.sendInterrupt o p =
      { s with
        depth := 255#8, tx := s.tx.pushAll p, txInFlight := true, fault := some (.guardOverflow o) } := by
  rw [State.sendInterrupt, s.guarded_eq o _ hf (by simp [hd])]
  simp only [State.kickstart, hi, Bool.false_eq_true, if_false, State.armFirstTransmit]
  rw [State.txHandlerBody_max _ o (by simp [hd]), State.thenDo_of_some _ _ rfl]
  simp [State.raise, hd]

/-- One SEND with no fault in its way leaves `afterSend` (rules R141 and R142). -/
theorem State.sendNow_of_clear (hf : s.fault = none) (hc : s.SendClear p) :
    s.sendNow d o p = s.afterSend p (d.sent % (p.length + 1)) := by
  cases hm : s.mode with
  | polling =>
    simp only [State.SendClear, hm] at hc
    cases p with
    | nil => simp [State.sendNow, State.afterSend, State.sendPolling, hm]
    | cons b rest =>
      have hb : s.perTxBusy = false := by simpa using hc
      simp [State.sendNow, State.afterSend, State.sendPolling, State.blockingTransmit, hm, hb,
        State.emit, State.drew]
  | interrupt =>
    simp only [State.SendClear, hm] at hc
    cases hi : s.txInFlight with
    | true =>
      simp only [hi, if_true] at hc
      simp [State.sendNow, State.afterSend, hm, hi, s.sendInterrupt_inFlight o p hf hc hi]
    | false =>
      simp only [hi, Bool.false_eq_true, if_false] at hc
      obtain ⟨hd, hb⟩ := hc
      have h1 : s.depth ≠ 255#8 := by
        intro h
        simp [h] at hd
      simp only [State.sendNow, State.afterSend, hm, hi, Bool.false_eq_true, if_false,
        s.sendInterrupt_idle o p hf hd hi]
      revert hb
      rcases (s.tx.pushAll p).pop s.params.nulIsEmpty with ⟨_ | b, q⟩ <;> intro hb
      · exact s.thenRelease_eq o _ hf h1 rfl
      · have hb' : s.perTxBusy = false := by simpa using hb
        simp only [State.txOutcome, hb', Bool.false_eq_true, if_false]
        exact s.thenRelease_eq o _ hf h1 rfl

@[simp] theorem State.afterSend_fault (k : Nat) : (s.afterSend p k).fault = s.fault := by
  unfold State.afterSend
  split <;> try rfl
  split
  · rfl
  · split <;> rfl

@[simp] theorem State.afterSend_mode (k : Nat) : (s.afterSend p k).mode = s.mode := by
  unfold State.afterSend
  split <;> try rfl
  split
  · rfl
  · split <;> rfl

/-- A SEND with no fault in its way, and the move of the sequencer after it (rules R141 to R143). -/
theorem State.sendNow_then_goto (q : Seq) (hf : s.fault = none) (hc : s.SendClear p) :
    ((s.sendNow d o p).thenDo fun t => t.goto q) =
      { s.afterSend p (d.sent % (p.length + 1)) with seq := q } := by
  rw [s.sendNow_of_clear d o p hf hc, State.thenDo_of_none _ _ (by simp [hf])]
  rfl

/-- A SEND with a fault in its way: which fault it raises, and what it has written before it
(rules R141, R142, R240, R245 and R248). -/
theorem State.sendNow_blocked (hf : s.fault = none) (hc : ¬s.SendClear p) :
    (∃ b rest, s.mode = .polling ∧ s.perTxBusy = true ∧ p = b :: rest ∧
      s.sendNow d o p = { s with fault := some (.txOverlap o b) }) ∨
    (s.mode = .interrupt ∧ s.depth = 255#8 ∧
      s.sendNow d o p = { s with fault := some (.guardOverflow o) }) ∨
    (s.mode = .interrupt ∧ s.depth = 254#8 ∧ s.txInFlight = false ∧
      s.sendNow d o p = { s with
        depth := 255#8, tx := s.tx.pushAll p, txInFlight := true,
        fault := some (.guardOverflow o) }) ∨
    ∃ b q, s.mode = .interrupt ∧ s.depth.toNat < 254 ∧ s.txInFlight = false ∧
      s.perTxBusy = true ∧ (s.tx.pushAll p).pop s.params.nulIsEmpty = (some b, q) ∧
      s.sendNow d o p = { s with
        depth := s.depth + 2#8, tx := q, txStage := b, txInFlight := true,
        fault := some (.txOverlap o b) } := by
  cases hm : s.mode with
  | polling =>
    simp only [State.SendClear, hm, not_or] at hc
    obtain ⟨b, rest, rfl⟩ := List.exists_cons_of_ne_nil hc.2
    have hb : s.perTxBusy = true := by simpa using hc.1
    refine .inl ⟨b, rest, rfl, hb, rfl, ?_⟩
    simp [State.sendNow, hm, State.sendPolling, State.blockingTransmit, hb, State.raise]
  | interrupt =>
    simp only [State.sendNow, hm]
    by_cases h255 : s.depth = 255#8
    · exact .inr (.inl ⟨trivial, h255, by rw [s.sendInterrupt_max o p h255, State.raise, hm]⟩)
    cases hi : s.txInFlight with
    | true => simp [State.SendClear, hm, hi, h255] at hc
    | false =>
      simp only [State.SendClear, hm, hi, Bool.false_eq_true, if_false, not_and, not_or] at hc
      by_cases h254 : s.depth = 254#8
      · exact .inr (.inr (.inl ⟨trivial, h254, rfl, by rw [s.sendInterrupt_nested_max o p hf h254 hi, hm]⟩))
      have hlt : s.depth.toNat < 254 := by bv_omega
      obtain ⟨hb, hpop⟩ := hc hlt
      have hb' : s.perTxBusy = true := by simpa using hb
      rw [s.sendInterrupt_idle o p hf hlt hi]
      revert hpop
      rcases (s.tx.pushAll p).pop s.params.nulIsEmpty with ⟨_ | b, q⟩ <;> intro hpop
      · exact absurd rfl hpop
      · refine .inr (.inr (.inr ⟨b, q, trivial, hlt, rfl, hb', rfl, ?_⟩))
        simp [State.txOutcome, hb', State.thenDo, BitVec.add_assoc, hm]

end Sys2Proof.Machine
end

