-- ==== Sys2Proof/Laws/Frames.lean ====
section
/-! SUPPORT. Which fields each shared operation can change, in every state: the frame of each, said once. -/

namespace Sys2Proof.Machine

variable (s : State) (d : Draws) (o : Origin) (p : List Byte)

theorem State.acquire_shape :
    ∃ dep fl, s.acquire o = { s with depth := dep, fault := fl } := by
  unfold State.acquire
  split
  · exact ⟨s.depth, _, rfl⟩
  · exact ⟨_, s.fault, rfl⟩

theorem State.release_shape :
    ∃ dep fl, s.release o = { s with depth := dep, fault := fl } := by
  unfold State.release
  split
  · exact ⟨s.depth, _, rfl⟩
  · exact ⟨_, s.fault, rfl⟩

theorem State.thenRelease_shape :
    ∃ dep fl, (s.thenDo fun s => s.release o) = { s with depth := dep, fault := fl } := by
  rcases s.thenDo_cases (fun s => s.release o) with ⟨_, h⟩ | ⟨_, h⟩
  · exact ⟨s.depth, s.fault, h⟩
  · obtain ⟨dep, fl, hr⟩ := s.release_shape o
    exact ⟨dep, fl, by rw [h, hr]⟩

/-- The receive handler's body can change the depth and the fault, the RX ring and the arm (rule R190). -/
theorem State.rxHandlerBody_shape :
    ∃ dep fl q a, s.rxHandlerBody o = { s with depth := dep, fault := fl, rx := q, perRxArmed := a } := by
  unfold State.rxHandlerBody
  obtain ⟨dep, fl, ha⟩ := s.acquire_shape o
  rw [ha]
  rcases ({ s with depth := dep, fault := fl } : State).thenDo_cases
    (fun s => (s.deliverStaged.release o).thenDo fun s => s.armReceive o) with ⟨_, h⟩ | ⟨_, h⟩
  · exact ⟨dep, fl, s.rx, s.perRxArmed, by rw [h]⟩
  rw [h]
  obtain ⟨dep2, fl2, hr⟩ :=
    ({ s with depth := dep, fault := fl } : State).deliverStaged.release_shape o
  rw [hr]
  rcases ({ ({ s with depth := dep, fault := fl } : State).deliverStaged with
      depth := dep2, fault := fl2 } : State).thenDo_cases (fun s => s.armReceive o) with
    ⟨_, h⟩ | ⟨_, h⟩
  · exact ⟨dep2, fl2, s.rx.deliver s.rxStage, s.perRxArmed, by rw [h]; rfl⟩
  rw [h, State.armReceive_eq]
  split
  · exact ⟨dep2, _, s.rx.deliver s.rxStage, s.perRxArmed, rfl⟩
  · exact ⟨dep2, fl2, s.rx.deliver s.rxStage, true, rfl⟩

/-- The transmit handler's body can change the depth and the fault, the TX ring, the staging byte, the
outstanding transmit and the in-flight flag (rule R191). -/
theorem State.txHandlerBody_shape :
    ∃ dep fl q st b i, s.txHandlerBody o =
      { s with depth := dep, fault := fl, tx := q, txStage := st, perTxBusy := b, txInFlight := i } := by
  unfold State.txHandlerBody
  obtain ⟨dep, fl, ha⟩ := s.acquire_shape o
  rw [ha]
  rcases ({ s with depth := dep, fault := fl } : State).thenDo_cases (fun s =>
    (({ s with tx := (s.tx.pop s.params.nulIsEmpty).2 } : State).transmitPopped o
      (s.tx.pop s.params.nulIsEmpty).1).thenDo fun s => s.release o) with ⟨_, h⟩ | ⟨_, h⟩
  · exact ⟨dep, fl, s.tx, s.txStage, s.perTxBusy, s.txInFlight, by rw [h]⟩
  rw [h]
  obtain ⟨dep2, fl2, hr⟩ := State.thenRelease_shape
    ((({ s with depth := dep, fault := fl, tx := (s.tx.pop s.params.nulIsEmpty).2 } : State).transmitPopped o
      (s.tx.pop s.params.nulIsEmpty).1)) o
  rw [hr]
  rcases (s.tx.pop s.params.nulIsEmpty).1 with _ | b
  · exact ⟨dep2, fl2, _, s.txStage, s.perTxBusy, false, rfl⟩
  · simp only [State.transmitPopped, State.armTransmit]
    split
    · exact ⟨dep2, fl2, _, b, s.perTxBusy, s.txInFlight, rfl⟩
    · exact ⟨dep2, fl2, _, b, true, s.txInFlight, rfl⟩

/-- SEND's interrupt path has the transmit handler's frame (rule R141). -/
theorem State.sendInterrupt_shape :
    ∃ dep fl q st b i, s.sendInterrupt o p =
      { s with depth := dep, fault := fl, tx := q, txStage := st, perTxBusy := b, txInFlight := i } := by
  unfold State.sendInterrupt
  obtain ⟨dep, fl, ha⟩ := s.acquire_shape o
  rw [ha]
  rcases ({ s with depth := dep, fault := fl } : State).thenDo_cases (fun s =>
    (({ s with tx := s.tx.pushAll p } : State).kickstart o).thenDo fun s => s.release o) with
    ⟨_, h⟩ | ⟨_, h⟩
  · exact ⟨dep, fl, s.tx, s.txStage, s.perTxBusy, s.txInFlight, by rw [h]⟩
  rw [h]
  obtain ⟨dep2, fl2, hr⟩ := State.thenRelease_shape
    (({ s with depth := dep, fault := fl, tx := s.tx.pushAll p } : State).kickstart o) o
  rw [hr]
  unfold State.kickstart State.armFirstTransmit
  split
  · exact ⟨dep2, fl2, s.tx.pushAll p, s.txStage, s.perTxBusy, s.txInFlight, rfl⟩
  · obtain ⟨_, _, q, st, b, i, ht⟩ := State.txHandlerBody_shape
      ({ s with depth := dep, fault := fl, tx := s.tx.pushAll p, txInFlight := true } : State) o
    exact ⟨dep2, fl2, q, st, b, i, by rw [ht]⟩

/-- One SEND in polling mode can change the fault, the line output and the count of free values
(rule R142). -/
theorem State.sendPolling_shape :
    ∃ fl out n, s.sendPolling d o p =
      { s with fault := fl, lineOut := s.lineOut ++ out, drawn := n } := by
  cases p with
  | nil => exact ⟨s.fault, [], s.drawn, by simp [State.sendPolling]⟩
  | cons b rest =>
    simp only [State.sendPolling, State.blockingTransmit]
    split
    · exact ⟨some (.txOverlap o b), [], s.drawn, by simp [State.raise]⟩
    · exact ⟨s.fault, _, s.drawn + 1, rfl⟩

/-- One SEND, whichever path: what it can change (rules R141 and R142). -/
theorem State.sendNow_shape :
    ∃ dep fl q st b i out n, s.sendNow d o p =
      { s with
        depth := dep, fault := fl, tx := q, txStage := st, perTxBusy := b, txInFlight := i,
        lineOut := s.lineOut ++ out, drawn := n } := by
  unfold State.sendNow
  split
  · obtain ⟨dep, fl, q, st, b, i, h⟩ := s.sendInterrupt_shape o p
    exact ⟨dep, fl, q, st, b, i, [], s.drawn, by rw [h]; simp⟩
  · obtain ⟨fl, out, n, h⟩ := s.sendPolling_shape d o p
    exact ⟨s.depth, fl, s.tx, s.txStage, s.perTxBusy, s.txInFlight, out, n, h⟩

/-- The drain can change the depth and the fault, and the two rings (rule R215). -/
theorem State.drainRings_shape :
    ∃ dep fl q r, s.drainRings o = { s with depth := dep, fault := fl, rx := q, tx := r } := by
  unfold State.drainRings
  obtain ⟨dep, fl, ha⟩ := s.acquire_shape o
  rw [ha]
  rcases ({ s with depth := dep, fault := fl } : State).thenDo_cases
    (fun s => ({ s with rx := s.rx.drain, tx := s.tx.drain } : State).release o) with ⟨_, h⟩ | ⟨_, h⟩
  · exact ⟨dep, fl, s.rx, s.tx, by rw [h]⟩
  rw [h]
  obtain ⟨dep2, fl2, hr⟩ := State.release_shape
    ({ s with depth := dep, fault := fl, rx := s.rx.drain, tx := s.tx.drain } : State) o
  exact ⟨dep2, fl2, _, _, by rw [hr]⟩

/-- One byte attempt can change the depth and the fault, the RX ring, the line input and the count of
free values (rules R162 and R163). -/
theorem State.attempt_shape :
    ∃ dep fl q l n, (s.attempt d o).2 =
      { s with depth := dep, fault := fl, rx := q, lineIn := l, drawn := n } := by
  unfold State.attempt
  split
  · unfold State.attemptInterrupt
    obtain ⟨dep, fl, ha⟩ := s.acquire_shape o
    simp only [ha]
    rcases ({ s with depth := dep, fault := fl } : State).thenDo_cases
      (fun s => ({ s with rx := (s.rx.pop s.params.nulIsEmpty).2 } : State).release o) with
      ⟨_, h⟩ | ⟨_, h⟩
    · exact ⟨dep, fl, s.rx, s.lineIn, s.drawn, by rw [h]⟩
    rw [h]
    obtain ⟨dep2, fl2, hr⟩ := State.release_shape
      ({ s with depth := dep, fault := fl, rx := (s.rx.pop s.params.nulIsEmpty).2 } : State) o
    exact ⟨dep2, fl2, _, s.lineIn, s.drawn, by rw [hr]⟩
  · unfold State.blockingReceive
    split
    · exact ⟨s.depth, _, s.rx, s.lineIn, s.drawn, rfl⟩
    · split
      · exact ⟨s.depth, s.fault, s.rx, s.lineIn, s.drawn, rfl⟩
      · split
        · exact ⟨s.depth, s.fault, s.rx, _, s.drawn + 1, rfl⟩
        · exact ⟨s.depth, s.fault, s.rx, s.lineIn, s.drawn + 1, rfl⟩

/-- A handler's entry can change the pending bits, the rings, the staging byte of transmission, the
peripheral's two bits, the depth, the fault and the in-flight flag (rules R190 to R193). -/
theorem State.irqStep_shape :
    ∃ rp tp dep fl q a r st b i, s.irqStep =
      { s with
        rxPend := rp, txPend := tp, depth := dep, fault := fl, rx := q, perRxArmed := a, tx := r,
        txStage := st, perTxBusy := b, txInFlight := i } := by
  unfold State.irqStep State.onRxc State.onTxc
  split
  · obtain ⟨dep, fl, q, a, h⟩ := ({ s with rxPend := false } : State).rxHandlerBody_shape .rxc
    exact ⟨false, s.txPend, dep, fl, q, a, s.tx, s.txStage, s.perTxBusy, s.txInFlight, h⟩
  · obtain ⟨dep, fl, q, st, b, i, h⟩ := ({ s with txPend := false } : State).txHandlerBody_shape .txc
    exact ⟨s.rxPend, false, dep, fl, s.rx, s.perRxArmed, q, st, b, i, h⟩

/-- No handler moves the sequencer (rule R254). -/
@[simp] theorem State.irqStep_seq : s.irqStep.seq = s.seq := by
  obtain ⟨_, _, _, _, _, _, _, _, _, _, h⟩ := s.irqStep_shape
  rw [h]

@[simp] theorem State.sendNow_seq : (s.sendNow d o p).seq = s.seq := by
  obtain ⟨_, _, _, _, _, _, _, _, h⟩ := s.sendNow_shape d o p
  rw [h]

@[simp] theorem State.attempt_seq : (s.attempt d o).2.seq = s.seq := by
  obtain ⟨_, _, _, _, _, h⟩ := s.attempt_shape d o
  rw [h]

@[simp] theorem State.toggleEffect_seq (t : TogglePos) : (s.toggleEffect d t).seq = s.seq := by
  rcases t with _ | _ | _ | (_ | _) | _ | _ | _ | _ | (_ | _) <;>
    simp only [State.toggleEffect, State.armFirstReceive, State.sendNow_seq]
  · obtain ⟨_, _, _, _, h⟩ := s.rxHandlerBody_shape .toggle
    rw [h]
  · obtain ⟨_, _, _, _, h⟩ := s.drainRings_shape .toggle
    rw [h]

end Sys2Proof.Machine
end

