-- ==== Sys2Proof/Laws/Steps.lean ====
section
/-! SUPPORT. Everything one step can do, said once: the inversion of the scheduler and of FG's move. -/

namespace Sys2Proof.Machine

/-- `exec` is the meaning under the free values. -/
theorem exec_eq_execUnder (i : Instr) (s : State) : exec i s = execUnder Config.drawsAt i s := by
  cases i <;> rfl

/-- `step` is a step under the free values. -/
theorem step_eq_stepUnder (s : State) : step s = stepUnder Config.drawsAt s := by
  have : exec = execUnder Config.drawsAt := by
    funext i s
    exact exec_eq_execUnder i s
  simp [step, stepUnder, this]

/-- Where intake sets the sequencer: the command's first micro-step (rule R66). -/
def Seq.start (m : Mode) : Instr → Seq
  | .send p => Seq.sendStart m p
  | .sendLine p => .sendLine p (LineStage.start m p)
  | .recvByte => .recvByte (.source .hook)
  | .receive cap => .receive cap [] (ReceivePos.loopHead cap [])
  | .toggle => .toggle .flip
  | .acquire => .acquire
  | .release => .release

/-- The running command's next micro-step (rule R37). -/
def State.micro (s : State) (d : Draws) : State :=
  match s.seq with
  | .idle => s
  | .send p => (s.sendNow d .send p).thenDo fun s => s.goto .idle
  | .sendLine p _ => s.sendLineStep d p
  | .recvByte _ => s.recvByteStep d
  | .receive _ _ _ => s.receiveStep d
  | .toggle _ => s.toggleStep d
  | .acquire => (s.acquire .acquire).thenDo fun s => s.goto .idle
  | .release => (s.release .release).thenDo fun s => s.goto .idle

/-- With a fault set no command has a move (rule R240). -/
theorem execUnder_fault (env : Nat → Draws) (i : Instr) (s : State) (f : Fault)
    (h : s.fault = some f) : execUnder env i s = .fault f := by
  cases i <;>
    simp [execUnder, sendUnder, sendLineUnder, recvByteUnder, receiveUnder, toggleUnder, execAcquire,
      execRelease, State.foreground, h]

/-- An idle sequencer takes a command: intake (rule R66). -/
theorem execUnder_idle (env : Nat → Draws) (i : Instr) (s : State) (hf : s.fault = none)
    (hs : s.seq = .idle) : execUnder env i s = .next (s.goto (Seq.start s.mode i)) := by
  cases i <;>
    simp [execUnder, sendUnder, sendLineUnder, recvByteUnder, receiveUnder, toggleUnder, execAcquire,
      execRelease, State.foreground, hf, hs, Seq.instr, Seq.start]

/-- A running command makes its next micro-step (rule R37). -/
theorem execUnder_running (env : Nat → Draws) (i : Instr) (s : State) (hf : s.fault = none)
    (hs : s.seq.instr = some i) : execUnder env i s = .next (s.micro (env s.drawn)) := by
  cases hq : s.seq <;> rw [hq] at hs <;> simp only [Seq.instr, reduceCtorEq, Option.some.injEq] at hs <;>
    subst hs <;>
    simp [execUnder, sendUnder, sendLineUnder, recvByteUnder, receiveUnder, toggleUnder, execAcquire,
      execRelease, State.foreground, hf, hq, Seq.instr, State.micro]

/-- `exec` of the running command is its next micro-step under the free values. -/
theorem exec_running (i : Instr) (s : State) (hf : s.fault = none) (hs : s.seq.instr = some i) :
    exec i s = .next (s.micro (Config.drawsAt s.drawn)) := by
  rw [exec_eq_execUnder, execUnder_running _ i s hf hs]

/-- A command waits while another one runs (rule R66). -/
theorem execUnder_waits (env : Nat → Draws) (i j : Instr) (s : State) (hf : s.fault = none)
    (hs : s.seq.instr = some j) (hij : j ≠ i) : execUnder env i s = .next s := by
  cases i <;>
    simp [execUnder, sendUnder, sendLineUnder, recvByteUnder, receiveUnder, toggleUnder, execAcquire,
      execRelease, State.foreground, hf, hs, hij]

theorem Seq.instr_eq_none (q : Seq) : q.instr = none ↔ q = .idle := by
  cases q <;> simp [Seq.instr]

/-- One move of one agent from `s`, with what its being enabled says of `s` (rules R56, R66, R254, R266,
R267 and R271). -/
inductive MoveTo (d : Draws) (s : State) : Move → State → Prop
  | irq (h : s.anyDeliverable = true) : MoveTo d s .irq s.irqStep
  | micro (h : s.anyDeliverable = false) (hs : s.seq ≠ .idle) : MoveTo d s .foreground (s.micro d)
  | intake (i : Instr) (rest : List Byte) (h : s.anyDeliverable = false) (hs : s.seq = .idle)
      (hp : decode s.port = .command i rest) :
      MoveTo d s .foreground { s with port := rest, seq := Seq.start s.mode i }
  | illegal (hd : Header) (rest : List Byte) (h : s.anyDeliverable = false) (hs : s.seq = .idle)
      (hp : decode s.port = .illegal hd rest) :
      MoveTo d s .foreground { s with port := rest, fault := some (.illegalCommand hd) }
  | rxComplete (b : Byte) (rest : List Byte) (ha : s.perRxArmed = true) (hl : s.lineIn = b :: rest) :
      MoveTo d s .rxComplete
        { s with lineIn := rest, rxStage := b, perRxArmed := false, rxPend := true }
  | txComplete (hb : s.perTxBusy = true) :
      MoveTo d s .txComplete
        { s with lineOut := s.lineOut ++ [s.txStage], perTxBusy := false, txPend := true }
  | lineLoss (b : Byte) (rest : List Byte) (ha : s.perRxArmed = false) (hl : s.lineIn = b :: rest) :
      MoveTo d s .lineLoss { s with lineIn := rest }
  | wait (h : s.enabled .wait = true) : MoveTo d s .wait s

/-- A free value's use changes nothing that decides what is enabled. -/
theorem State.drew_enabled (s : State) (m : Move) : s.drew.enabled m = s.enabled m := by
  cases m <;> rfl

/-- What the scheduler picks is enabled, and is made from the same state but for the count of free
values. -/
theorem State.schedule_some (s : State) (d : Draws) (m : Move) (s1 : State)
    (h : s.schedule d = some (m, s1)) : s.enabled m = true ∧ (s1 = s ∨ s1 = s.drew) := by
  have hmem : ∀ m, m ∈ s.moves → s.enabled m = true := fun m hm => (List.mem_filter.1 hm).2
  unfold State.schedule at h
  split at h
  · cases h
  · rename_i m' heq
    cases h
    exact ⟨hmem _ (by simp [heq]), .inl rfl⟩
  · rename_i m' ms _ heq
    cases h
    refine ⟨hmem _ ?_, .inr rfl⟩
    rw [heq]
    have hlt : d.pick % (ms.length + 1) < (m' :: ms).length := by
      simpa using Nat.mod_lt _ (Nat.succ_pos _)
    rw [List.getD_eq_getElem _ _ hlt]
    exact List.getElem_mem hlt

/-- FG's move (rules R37 and R66). -/
theorem State.foregroundMove_cases (env : Nat → Draws) (s s' : State) (hf : s.fault = none)
    (he : s.enabled .foreground = true) (h : s.foregroundMove (execUnder env) = .next s') :
    MoveTo (env s.drawn) s .foreground s' := by
  have hdel : s.anyDeliverable = false := by
    simp only [State.enabled, Bool.and_eq_true, Bool.not_eq_true'] at he
    exact he.1.2
  unfold State.foregroundMove at h
  cases hi : s.seq.instr with
  | some i =>
    rw [hi] at h
    simp only [execUnder_running env i s hf hi] at h
    cases h
    exact .micro hdel (fun hc => by simp [hc, Seq.instr] at hi)
  | none =>
    rw [hi] at h
    have hs := (Seq.instr_eq_none _).1 hi
    cases hp : decode s.port with
    | command i rest =>
      simp only [hp] at h
      rw [execUnder_idle env i { s with port := rest } hf hs] at h
      cases h
      exact .intake i rest hdel hs hp
    | illegal hd rest =>
      simp only [hp] at h
      cases h
      exact .illegal hd rest hdel hs hp
    | incomplete => simp [State.enabled, State.portReady, hi, hp] at he

/-- Everything one step can do: wait, or make the scheduled move, which is enabled, from a state without
a fault. -/
theorem stepUnder_cases (env : Nat → Draws) (s s' : State) (h : stepUnder env s = .next s') :
    s.fault = none ∧
      ((s.moves = [] ∧ s' = s) ∨
        ∃ m s1, s.moveUnder env = some (m, s1) ∧ (s1 = s ∨ s1 = s.drew) ∧
          MoveTo (env s1.drawn) s1 m s') := by
  unfold stepUnder State.stepBy at h
  cases hf : s.fault with
  | some f => simp [hf] at h
  | none =>
    simp only [hf] at h
    refine ⟨rfl, ?_⟩
    cases hsch : s.schedule (env s.drawn) with
    | none =>
      simp only [hsch] at h
      cases h
      refine .inl ⟨?_, rfl⟩
      unfold State.schedule at hsch
      split at hsch <;> first | assumption | cases hsch
    | some ms =>
      obtain ⟨m, s1⟩ := ms
      simp only [hsch] at h
      obtain ⟨hen, hs1⟩ := s.schedule_some _ _ _ hsch
      have hen1 : s1.enabled m = true := by
        rcases hs1 with rfl | rfl
        · exact hen
        · rw [State.drew_enabled]
          exact hen
      have hf1 : s1.fault = none := by
        rcases hs1 with rfl | rfl <;> exact hf
      refine .inr ⟨m, s1, hsch, hs1, ?_⟩
      cases m with
      | irq =>
        cases h
        exact .irq hen1
      | foreground => exact s1.foregroundMove_cases env s' hf1 hen1 h
      | rxComplete =>
        simp only [State.enabled, Bool.and_eq_true] at hen1
        simp only [State.perform, State.rxComplete] at h
        cases hl : s1.lineIn with
        | nil => simp [hl] at hen1
        | cons b rest =>
          simp only [hl] at h
          cases h
          exact .rxComplete b rest hen1.1.2 hl
      | txComplete =>
        simp only [State.enabled, Bool.and_eq_true] at hen1
        cases h
        exact .txComplete hen1.2
      | lineLoss =>
        simp only [State.enabled, Bool.and_eq_true, Bool.not_eq_true'] at hen1
        simp only [State.perform, State.lineLoss] at h
        cases hl : s1.lineIn with
        | nil => simp [hl] at hen1
        | cons b rest =>
          simp only [hl, List.tail_cons] at h
          cases h
          exact .lineLoss b rest hen1.1.2 hl
      | wait =>
        cases h
        exact .wait hen1

/-- A step under the free values is a step under some environment. -/
theorem stepUnder_of_step (env : Nat → Draws) (s s' : State)
    (h : step s = .next s' ∨ stepUnder env s = .next s') : ∃ env', stepUnder env' s = .next s' := by
  rcases h with h | h
  · exact ⟨Config.drawsAt, by rw [← step_eq_stepUnder, h]⟩
  · exact ⟨env, h⟩

/-- To keep an invariant that does not read the count of free values, a step need only keep it in its
moves. -/
theorem stepUnder_keeps (Inv : State → Prop) (hdrew : ∀ s, Inv s → Inv s.drew)
    (hmove : ∀ d s m s', s.fault = none → Inv s → MoveTo d s m s' → Inv s')
    (env : Nat → Draws) (s s' : State) (hi : Inv s) (h : stepUnder env s = .next s') : Inv s' := by
  obtain ⟨hf, ⟨_, rfl⟩ | ⟨m, s1, _, rfl | rfl, hm⟩⟩ := stepUnder_cases env s s' h
  · exact hi
  · exact hmove _ _ _ _ hf hi hm
  · exact hmove _ s.drew _ _ hf (hdrew s hi) hm

/-- FG's move at a running command is its next micro-step (rule R37). -/
theorem foregroundMove_running (env : Nat → Draws) (s : State) (hf : s.fault = none)
    (hs : s.seq ≠ .idle) : s.foregroundMove (execUnder env) = .next (s.micro (env s.drawn)) := by
  cases hi : s.seq.instr with
  | none => exact absurd ((Seq.instr_eq_none _).1 hi) hs
  | some i => simp only [State.foregroundMove, hi, execUnder_running env i s hf hi]

/-- FG's move at an idle sequencer with a command at the port is its intake (rule R66). -/
theorem foregroundMove_intake (env : Nat → Draws) (s : State) (i : Instr) (rest : List Byte)
    (hf : s.fault = none) (hs : s.seq = .idle) (hp : decode s.port = .command i rest) :
    s.foregroundMove (execUnder env) =
      .next { s with port := rest, seq := Seq.start s.mode i } := by
  have hi := (Seq.instr_eq_none _).2 hs
  simp only [State.foregroundMove, hi, hp]
  exact execUnder_idle env i { s with port := rest } hf hs

theorem foregroundRun_succ (env : Nat → Draws) (n : Nat) (s t : State)
    (h : s.foregroundMove (execUnder env) = .next t) :
    foregroundRun env (n + 1) s = foregroundRun env n t := by
  simp only [foregroundRun, h]

/-- One more micro-step of a run of FG alone. -/
theorem foregroundRun_micro (env : Nat → Draws) (n : Nat) (s : State) (hf : s.fault = none)
    (hs : s.seq ≠ .idle) :
    foregroundRun env (n + 1) s = foregroundRun env n (s.micro (env s.drawn)) :=
  foregroundRun_succ env n s _ (foregroundMove_running env s hf hs)

/-- A step that the scheduler gives to FG is FG's move (rule R56). -/
theorem stepUnder_foreground (env : Nat → Draws) (s s1 : State) (hf : s.fault = none)
    (h : s.schedule (env s.drawn) = some (.foreground, s1)) :
    stepUnder env s = s1.foregroundMove (execUnder env) := by
  simp only [stepUnder, State.stepBy, hf, h, State.perform]

theorem runUnder_succ (env : Nat → Draws) (n : Nat) (s t : State) (h : stepUnder env s = .next t) :
    runUnder env (n + 1) s = runUnder env n t := by
  simp only [runUnder, h]

end Sys2Proof.Machine
end

