-- ==== Sys2Proof/Laws/Micro.lean ====
section
/-! SUPPORT. Everything one micro-step of a command can do, said once: the inversion of `State.micro`. -/

namespace Sys2Proof.Machine

/-- The next position may depend on the state left or be computed from it beforehand. -/
theorem State.thenDo_goto (s : State) (f : State → Seq) :
    (s.thenDo fun t => t.goto (f t)) = s.thenDo fun t => t.goto (f s) := by
  unfold State.thenDo
  split <;> rfl

/-- One micro-step of a running command: a SEND, another micro-step of a TOGGLE, a hook call, a byte
attempt, the write of a result, or a guard command's (rules R37, R122, R123, R140 to R143, R160 to R165
and R210). -/
inductive MicroTo (d : Draws) (s : State) : State → Prop
  | sends (p : List Byte) (o : Origin) (q : Seq) (h : s.sending = some p)
      (hq : q.togglePos = s.seq.togglePos.bind fun t => t.next (s.sendNow d o p)) :
      MicroTo d s ((s.sendNow d o p).thenDo fun t => t.goto q)
  | toggles (t : TogglePos) (q : Seq) (h : s.seq.togglePos = some t) (hs : s.sending = none)
      (hq : q.togglePos = t.next (s.toggleEffect d t)) :
      MicroTo d s ((s.toggleEffect d t).thenDo fun u => u.goto q)
  | hook (q : Seq) (h : s.seq.hooking = true) (ht : s.seq.togglePos = none) (hs : s.sending = none)
      (hq : q.togglePos = none ∨ q.togglePos = some .flip) :
      MicroTo d s (s.drew.thenDo fun u => u.goto q)
  | attempts (o : Origin) (q : Seq) (h : s.seq.attempting = true) (ht : s.seq.togglePos = none)
      (hs : s.sending = none) (hq : q.togglePos = none) :
      MicroTo d s ((s.attempt d o).2.thenDo fun u => u.goto q)
  | delivers (b : Byte) (h : s.seq = .recvByte (.deliver b)) :
      MicroTo d s { s with resByte := b, seq := .idle }
  | finishes (cap : Byte) (w : List Byte) (h : s.seq = .receive cap w .finish) :
      MicroTo d s ((s.writeResults w).goto .idle)
  | acquires (h : s.seq = .acquire) :
      MicroTo d s ((s.acquire .acquire).thenDo fun t => t.goto .idle)
  | releases (h : s.seq = .release) :
      MicroTo d s ((s.release .release).thenDo fun t => t.goto .idle)

/-- A TOGGLE position is a SEND's or makes no SEND; a nested TOGGLE's micro-step is the command's. -/
theorem MicroTo.toggle (d : Draws) (s : State) (t : TogglePos) (q : Seq) (h : s.seq.togglePos = some t)
    (hq : q.togglePos = t.next (s.toggleEffect d t)) :
    MicroTo d s ((s.toggleEffect d t).thenDo fun u => u.goto q) := by
  have hnone : ∀ u : State, s.sending = none → u = s.toggleEffect d t →
      MicroTo d s (u.thenDo fun u => u.goto q) := by
    rintro u hs rfl
    exact .toggles t q h hs hq
  have hsend : ∀ p, s.sending = some p → s.toggleEffect d t = s.sendNow d .toggle p →
      MicroTo d s ((s.toggleEffect d t).thenDo fun u => u.goto q) := by
    intro p hs he
    rw [he]
    exact .sends p .toggle q hs (by rw [h, hq, he]; rfl)
  rcases t with _ | _ | _ | (_ | _) | _ | _ | _ | _ | (_ | _)
  case onLine.text => exact hsend s.params.confirmOn (by simp [State.sending, h]) rfl
  case onLine.crlf => exact hsend [cr, lf] (by simp [State.sending, h]) rfl
  case offLine.text => exact hsend s.params.confirmOff (by simp [State.sending, h]) rfl
  case offLine.crlf => exact hsend [cr, lf] (by simp [State.sending, h]) rfl
  all_goals exact hnone _ (by simp [State.sending, h]) rfl

theorem Seq.afterToggle_togglePos (t : TogglePos) (s : State) :
    (Seq.afterToggle t s).togglePos = t.next s := by
  unfold Seq.afterToggle
  split <;> simp [Seq.togglePos, *]

theorem SourcePos.afterToggle_recvByte (t : TogglePos) (s : State) :
    (Seq.recvByte (.source (SourcePos.afterToggle t s))).togglePos = t.next s := by
  unfold SourcePos.afterToggle
  split <;> simp [Seq.togglePos, *]

theorem SourcePos.afterToggle_receive (cap : Byte) (w : List Byte) (t : TogglePos) (s : State) :
    (Seq.receive cap w (.source (SourcePos.afterToggle t s))).togglePos = t.next s := by
  unfold SourcePos.afterToggle
  split <;> simp [Seq.togglePos, *]

/-- Everything a running command's next micro-step can do. -/
theorem State.micro_cases (s : State) (d : Draws) (hs : s.seq ≠ .idle) : MicroTo d s (s.micro d) := by
  unfold State.micro
  cases hq : s.seq with
  | idle => exact absurd hq hs
  | send p =>
    exact .sends p .send .idle (by simp [State.sending, hq, Seq.togglePos])
      (by simp [hq, Seq.togglePos])
  | sendLine p stage =>
    cases stage with
    | text =>
      simp only [State.sendLineStep, hq]
      exact .sends p .sendLine _ (by simp [State.sending, hq, Seq.togglePos])
        (by simp [hq, Seq.togglePos])
    | crlf =>
      simp only [State.sendLineStep, hq]
      exact .sends [cr, lf] .sendLine _ (by simp [State.sending, hq, Seq.togglePos])
        (by simp [hq, Seq.togglePos])
  | recvByte pos =>
    simp only [State.recvByteStep, hq]
    rcases pos with (_ | t | _) | b
    · refine .hook _ (by simp [hq, Seq.hooking]) (by simp [hq, Seq.togglePos])
        (by simp [State.sending, hq, Seq.togglePos]) ?_
      simp only [State.sourceStep, RecvPos.after, SourcePos.afterHook]
      cases d.hook <;> simp [Seq.togglePos]
    · exact MicroTo.toggle d s t _ (by simp [hq, Seq.togglePos]) (SourcePos.afterToggle_recvByte _ _)
    · refine .attempts .recvByte _ (by simp [hq, Seq.attempting]) (by simp [hq, Seq.togglePos])
        (by simp [State.sending, hq, Seq.togglePos]) ?_
      simp only [State.sourceStep, SourceNext.afterAttempt]
      split <;> rfl
    · exact .delivers b hq
  | receive cap w pos =>
    simp only [State.receiveStep, hq]
    rcases pos with (_ | t | _) | b | _ | _
    · refine .hook _ (by simp [hq, Seq.hooking]) (by simp [hq, Seq.togglePos])
        (by simp [State.sending, hq, Seq.togglePos]) ?_
      simp only [State.sourceStep, ReceivePos.after, SourcePos.afterHook]
      cases d.hook <;> simp [Seq.togglePos]
    · exact MicroTo.toggle d s t _ (by simp [hq, Seq.togglePos]) (SourcePos.afterToggle_receive _ _ _ _)
    · refine .attempts .receive _ (by simp [hq, Seq.attempting]) (by simp [hq, Seq.togglePos])
        (by simp [State.sending, hq, Seq.togglePos]) ?_
      simp only [State.sourceStep, SourceNext.afterAttempt]
      split <;> rfl
    · refine .sends [b] .receive _ (by simp [State.sending, hq, Seq.togglePos]) ?_
      rw [show s.seq.togglePos = none by rw [hq]; rfl, Option.bind_none]
      unfold Seq.afterEcho ReceivePos.loopHead
      split
      · rfl
      · split <;> rfl
    · exact .sends [lf] .receive _ (by simp [State.sending, hq, Seq.togglePos])
        (by simp [hq, Seq.togglePos])
    · exact .finishes cap w hq
  | toggle t =>
    simp only [State.toggleStep, hq]
    rw [State.thenDo_goto]
    exact MicroTo.toggle d s t _ (by simp [hq, Seq.togglePos]) (Seq.afterToggle_togglePos _ _)
  | acquire => exact .acquires hq
  | release => exact .releases hq

/-- Intake begins no TOGGLE but the TOGGLE command's, at its flip (rules R66 and R210). -/
theorem Seq.start_togglePos (m : Mode) (i : Instr) :
    (Seq.start m i).togglePos = none ∨ (Seq.start m i).togglePos = some .flip := by
  cases i with
  | send p =>
    refine .inl ?_
    simp only [Seq.start, Seq.sendStart]
    split <;> rfl
  | receive cap =>
    refine .inl ?_
    simp only [Seq.start, ReceivePos.loopHead]
    split <;> rfl
  | toggle => exact .inr rfl
  | _ => exact .inl rfl

end Sys2Proof.Machine
end

