-- ==== Sys2Proof/Laws/Nesting.lean ====
section
/-! SUPPORT. No shared operation reads the sequencer, so a nested TOGGLE does what the command does (rule R160). -/

namespace Sys2Proof.Machine

variable (q : Seq) (s : State) (o : Origin) (d : Draws) (p : List Byte)

theorem State.acquire_withSeq :
    ({ s with seq := q } : State).acquire o = { s.acquire o with seq := q } := by
  unfold State.acquire
  dsimp only
  split <;> rfl

theorem State.release_withSeq :
    ({ s with seq := q } : State).release o = { s.release o with seq := q } := by
  unfold State.release
  dsimp only
  split <;> rfl

theorem State.thenDo_withSeq (k : State → State)
    (hk : ∀ t : State, k { t with seq := q } = { k t with seq := q }) :
    ({ s with seq := q } : State).thenDo k = { s.thenDo k with seq := q } := by
  unfold State.thenDo
  dsimp only
  split
  · rfl
  · exact hk s

theorem State.armReceive_withSeq :
    ({ s with seq := q } : State).armReceive o = { s.armReceive o with seq := q } := by
  unfold State.armReceive
  dsimp only
  split <;> rfl

theorem State.rxHandlerBody_withSeq :
    ({ s with seq := q } : State).rxHandlerBody o = { s.rxHandlerBody o with seq := q } := by
  unfold State.rxHandlerBody
  rw [State.acquire_withSeq]
  refine State.thenDo_withSeq q _ _ fun t => ?_
  rw [show ({ t with seq := q } : State).deliverStaged = { t.deliverStaged with seq := q } from rfl,
    State.release_withSeq]
  exact State.thenDo_withSeq q _ _ fun t => t.armReceive_withSeq q o

theorem State.transmitPopped_withSeq (r : Option Byte) :
    ({ s with seq := q } : State).transmitPopped o r = { s.transmitPopped o r with seq := q } := by
  cases r with
  | none => rfl
  | some b =>
    simp only [State.transmitPopped, State.armTransmit]
    split <;> rfl

theorem State.txHandlerBody_withSeq :
    ({ s with seq := q } : State).txHandlerBody o = { s.txHandlerBody o with seq := q } := by
  unfold State.txHandlerBody
  rw [State.acquire_withSeq]
  refine State.thenDo_withSeq q _ _ fun t => ?_
  have h := State.transmitPopped_withSeq q
    ({ t with tx := (t.tx.pop t.params.nulIsEmpty).2 } : State) o (t.tx.pop t.params.nulIsEmpty).1
  dsimp only at h ⊢
  rw [h]
  exact State.thenDo_withSeq q _ _ fun t => t.release_withSeq q o

theorem State.sendNow_withSeq :
    ({ s with seq := q } : State).sendNow d o p = { s.sendNow d o p with seq := q } := by
  unfold State.sendNow
  dsimp only
  split
  · unfold State.sendInterrupt
    rw [State.acquire_withSeq]
    refine State.thenDo_withSeq q _ _ fun t => ?_
    have h : ({ t with tx := t.tx.pushAll p, seq := q } : State).kickstart o =
        { ({ t with tx := t.tx.pushAll p } : State).kickstart o with seq := q } := by
      unfold State.kickstart State.armFirstTransmit
      dsimp only
      split
      · rfl
      · exact State.txHandlerBody_withSeq q { t with tx := t.tx.pushAll p, txInFlight := true } o
    dsimp only at h ⊢
    rw [h]
    exact State.thenDo_withSeq q _ _ fun t => t.release_withSeq q o
  · cases p with
    | nil => rfl
    | cons b rest =>
      simp only [State.sendPolling, State.blockingTransmit]
      split <;> rfl

/-- A TOGGLE's micro-step does not read the sequencer. -/
theorem State.toggleEffect_withSeq (t : TogglePos) :
    ({ s with seq := q } : State).toggleEffect d t = { s.toggleEffect d t with seq := q } := by
  rcases t with _ | _ | _ | (_ | _) | _ | _ | _ | _ | (_ | _) <;> simp only [State.toggleEffect]
  case prime => exact s.rxHandlerBody_withSeq q _
  case drain =>
    unfold State.drainRings
    rw [State.acquire_withSeq]
    refine State.thenDo_withSeq q _ _ fun t => ?_
    exact ({ t with rx := t.rx.drain, tx := t.tx.drain } : State).release_withSeq q _
  all_goals exact State.sendNow_withSeq q s _ d _

theorem TogglePos.next_withSeq (t : TogglePos) : t.next { s with seq := q } = t.next s := by
  rcases t with _ | _ | _ | (_ | _) | _ | _ | _ | _ | (_ | _) <;> rfl

end Sys2Proof.Machine
end

