-- ==== Sys2Proof/Laws/PerInstr.lean ====
section
/-! SUPPORT. One law per command: its header selects its own row of the opcode map, and its bytes have its length. -/

namespace Sys2Proof.Laws.Encoding

/-- Rules R70 to R72 and R76, of one command: its header is legal and names it, and the bytes the host
sends are as many as its length, 2 to 257. -/
def Statement (i : Instr) : Prop :=
  Opcode.ofHeader (header i.opcodeByte i.operandByte) = some i.opcode ∧
    (encode i).length = i.length ∧ 2 ≤ i.length ∧ (i.wf = true → i.length ≤ 257)

/-- The length of the bytes of any command. -/
theorem length_encode (i : Instr) : (encode i).length = i.length := by
  simp only [encode, Instr.length, List.length_cons]
  omega

theorem two_le_length (i : Instr) : 2 ≤ i.length := Nat.le_add_right 2 _

theorem send (payload : List Byte) : Statement (.send payload) :=
  ⟨by simp [ofHeader_eq, Instr.opcodeByte, Instr.opcode], length_encode _, two_le_length _, fun h => by
    simp only [Instr.wf, decide_eq_true_eq] at h
    simp only [Instr.length, Instr.payload]
    omega⟩

theorem sendLine (payload : List Byte) : Statement (.sendLine payload) :=
  ⟨by simp [ofHeader_eq, Instr.opcodeByte, Instr.opcode], length_encode _, two_le_length _, fun h => by
    simp only [Instr.wf, decide_eq_true_eq] at h
    simp only [Instr.length, Instr.payload]
    omega⟩

theorem recvByte : Statement .recvByte :=
  ⟨by simp [ofHeader_eq, Instr.opcodeByte, Instr.operandByte, Instr.opcode], length_encode _,
    two_le_length _, fun _ => by simp [Instr.length, Instr.payload]⟩

theorem receive (cap : Byte) : Statement (.receive cap) :=
  ⟨by simp [ofHeader_eq, Instr.opcodeByte, Instr.operandByte, Instr.opcode], length_encode _,
    two_le_length _, fun _ => by simp [Instr.length, Instr.payload]⟩

theorem toggle : Statement .toggle :=
  ⟨by simp [ofHeader_eq, Instr.opcodeByte, Instr.operandByte, Instr.opcode], length_encode _,
    two_le_length _, fun _ => by simp [Instr.length, Instr.payload]⟩

theorem acquire : Statement .acquire :=
  ⟨by simp [ofHeader_eq, Instr.opcodeByte, Instr.operandByte, Instr.opcode], length_encode _,
    two_le_length _, fun _ => by simp [Instr.length, Instr.payload]⟩

theorem release : Statement .release :=
  ⟨by simp [ofHeader_eq, Instr.opcodeByte, Instr.operandByte, Instr.opcode], length_encode _,
    two_le_length _, fun _ => by simp [Instr.length, Instr.payload]⟩

end Sys2Proof.Laws.Encoding
end

