-- ==== Sys2Proof/Laws/Receive.lean ====
section
/-! SUPPORT. Everything a byte attempt and RECEIVE's result can do (rules R161 to R163, R165 and R270). -/

namespace Sys2Proof.Machine

variable (s : State) (d : Draws) (o : Origin)

/-- An attempt in interrupt mode, below the guard's limit (rule R162). -/
theorem State.attemptInterrupt_eq (hf : s.fault = none) (hd : s.depth ≠ 255#8) :
    s.attemptInterrupt o =
      ((s.rx.pop s.params.nulIsEmpty).1.getD 0#8,
        { s with rx := (s.rx.pop s.params.nulIsEmpty).2 }) := by
  rw [State.attemptInterrupt, s.guarded_eq o _ hf hd, s.release_after_acquire o _ hd rfl]

theorem State.attemptInterrupt_max (hd : s.depth = 255#8) :
    (s.attemptInterrupt o).2 = s.raise (.guardOverflow o) := by
  simp only [State.attemptInterrupt]
  rw [s.guarded_max o _ hd]

/-- Everything a blocking receive can do (rule R270). -/
theorem State.blockingReceive_cases :
    (s.perRxArmed = true ∧ s.blockingReceive d o = (0#8, s.raise (.rxDoubleArm o))) ∨
    (s.perRxArmed = false ∧ s.lineIn = [] ∧ s.blockingReceive d o = (0#8, s)) ∨
    (∃ b rest, s.perRxArmed = false ∧ s.lineIn = b :: rest ∧ d.take = true ∧
      s.blockingReceive d o = (b, { s with lineIn := rest, drawn := s.drawn + 1 })) ∨
    ∃ b rest, s.perRxArmed = false ∧ s.lineIn = b :: rest ∧ d.take = false ∧
      s.blockingReceive d o = (0#8, { s with drawn := s.drawn + 1 }) := by
  unfold State.blockingReceive
  cases ha : s.perRxArmed with
  | true => exact .inl ⟨rfl, rfl⟩
  | false =>
    cases hl : s.lineIn with
    | nil => exact .inr (.inl ⟨rfl, rfl, rfl⟩)
    | cons b rest =>
      cases ht : d.take with
      | true => exact .inr (.inr (.inl ⟨b, rest, rfl, rfl, rfl, by simp [State.drew]⟩))
      | false => exact .inr (.inr (.inr ⟨b, rest, rfl, rfl, rfl, by simp [State.drew, ha, hl]⟩))

/-- What a pop of the RX ring reads as: the oldest byte, or 0x00 for none, whichever reading holds
(rule R162, corner case 2). -/
theorem Ring.pop_getD (q : Ring) (nul : Bool) : (q.pop nul).1.getD 0#8 = q.contents.headD 0#8 := by
  have h := Ring.pop_contents q nul
  cases hc : q.contents with
  | nil =>
    rw [hc] at h
    rw [h]
    rfl
  | cons b bs =>
    rw [hc] at h
    rw [h.1]
    split
    · rename_i hb
      simp [hb.1]
    · rfl

/-- The results RECEIVE leaves are what it has filled (rules R36 and R165). -/
theorem overwritePrefix_take (buf : Vector Byte 255) (w : List Byte) (h : w.length ≤ 255) :
    (overwritePrefix buf w).toList.take w.length = w := by
  apply List.ext_getElem
  · simp [h]
  · intro j h1 h2
    simp [overwritePrefix, h2]

theorem overwritePrefix_of_le (buf : Vector Byte 255) (w : List Byte) (j : Nat) (hj : j < 255)
    (h : w.length ≤ j) : (overwritePrefix buf w)[j] = buf[j] := by
  simp [overwritePrefix, List.getElem?_eq_none h]

end Sys2Proof.Machine
end

