-- ==== Sys2Proof/Machine/Assembler.lean ====
section
/-! DEFINITION. The assembler of rules R80 and R81: from source text, as ASCII bytes, to commands and their bytes. -/

namespace Sys2Proof

/-- The bytes of a text: the ASCII code of each character (rules R15 and R80). -/
def ascii (text : String) : List Byte := text.toList.map fun c => BitVec.ofNat 8 c.toNat

/-- The tokens of a source text. -/
inductive Token where
  /-- A mnemonic or a number. -/
  | word (letters : List Byte)
  /-- A quoted string, its escapes replaced. -/
  | text (bytes : List Byte)
  | leftBracket | rightBracket | comma | leftBrace | rightBrace
  | endOfLine
deriving DecidableEq, Repr

/-- Where the tokeniser is. -/
inductive LexState where
  | gap
  | word (letters : List Byte)
  | text (bytes : List Byte)
  /-- After a backslash. -/
  | escape (bytes : List Byte)
  /-- After a backslash and `x`. -/
  | hexHigh (bytes : List Byte)
  | hexLow (bytes : List Byte) (high : Nat)
  | comment
deriving DecidableEq, Repr

/-- The value of a decimal digit. -/
def decimalDigit (c : Byte) : Option Nat :=
  if 0x30 ≤ c.toNat ∧ c.toNat ≤ 0x39 then some (c.toNat - 0x30) else none

/-- The value of a hexadecimal digit, in either case (assumption 15). -/
def hexDigit (c : Byte) : Option Nat :=
  if 0x41 ≤ c.toNat ∧ c.toNat ≤ 0x46 then some (c.toNat - 0x37)
  else if 0x61 ≤ c.toNat ∧ c.toNat ≤ 0x66 then some (c.toNat - 0x57)
  else decimalDigit c

/-- Letters, digits and the underscore make up words. -/
def isWordByte (c : Byte) : Bool :=
  (decimalDigit c).isSome || decide (0x41 ≤ c.toNat ∧ c.toNat ≤ 0x5A) ||
    decide (0x61 ≤ c.toNat ∧ c.toNat ≤ 0x7A) || c == 0x5F

/-- The printable ASCII codes, the space among them. -/
def isPrintable (c : Byte) : Bool := decide (0x20 ≤ c.toNat ∧ c.toNat ≤ 0x7E)

/-- One byte of source between tokens: a space or CR is skipped, a linefeed ends the line, `;` starts a
comment (rule R80). -/
def lexGap (c : Byte) : Option (LexState × List Token) :=
  if c = 0x20 ∨ c = cr then some (.gap, [])
  else if c = lf then some (.gap, [.endOfLine])
  else if c = 0x3B then some (.comment, [])
  else if c = 0x22 then some (.text [], [])
  else if c = 0x5B then some (.gap, [.leftBracket])
  else if c = 0x5D then some (.gap, [.rightBracket])
  else if c = 0x2C then some (.gap, [.comma])
  else if c = 0x7B then some (.gap, [.leftBrace])
  else if c = 0x7D then some (.gap, [.rightBrace])
  else if isWordByte c then some (.word [c], [])
  else none

/-- What a byte after a backslash stands for (rule R80). -/
def lexEscape (bytes : List Byte) (c : Byte) : Option LexState :=
  if c = 0x72 then some (.text (bytes ++ [cr]))
  else if c = 0x6E then some (.text (bytes ++ [lf]))
  else if c = 0x5C then some (.text (bytes ++ [0x5C]))
  else if c = 0x78 then some (.hexHigh bytes)
  else none

/-- One byte of source (rule R80): the tokeniser's next state and the tokens that have ended. -/
def lexByte (st : LexState) (c : Byte) : Option (LexState × List Token) :=
  match st with
  | .gap => lexGap c
  | .word w =>
    if isWordByte c then some (.word (w ++ [c]), [])
    else (lexGap c).map fun r => (r.1, .word w :: r.2)
  | .text bs =>
    if c = 0x22 then some (.gap, [.text bs])
    else if c = 0x5C then some (.escape bs, [])
    else if isPrintable c then some (.text (bs ++ [c]), [])
    else none
  | .escape bs => (lexEscape bs c).map fun st => (st, [])
  | .hexHigh bs => (hexDigit c).map fun h => (.hexLow bs h, [])
  | .hexLow bs h => (hexDigit c).map fun l => (.text (bs ++ [BitVec.ofNat 8 (h * 16 + l)]), [])
  | .comment => if c = lf then some (.gap, [.endOfLine]) else some (.comment, [])

/-- The tokens at the end of the source; none inside a string. -/
def lexEnd : LexState → Option (List Token)
  | .gap => some []
  | .comment => some []
  | .word w => some [.word w]
  | .text _ => none
  | .escape _ => none
  | .hexHigh _ => none
  | .hexLow _ _ => none

/-- The tokens of a source text. -/
def lexFrom (st : LexState) : List Byte → Option (List Token)
  | [] => lexEnd st
  | c :: cs =>
    match lexByte st c with
    | none => none
    | some (st', ts) => (lexFrom st' cs).map (ts ++ ·)

/-- A byte `0xHH` of a list (rule R80). -/
def parseHexByte : List Byte → Option Byte
  | [z, x, h, l] =>
    if z = 0x30 ∧ x = 0x78 then
      match hexDigit h, hexDigit l with
      | some h, some l => some (BitVec.ofNat 8 (h * 16 + l))
      | _, _ => none
    else none
  | _ => none

/-- The elements of a list, after its left bracket, to its right bracket. -/
def parseElements : List Token → Option (List Byte × List Token)
  | .word w :: .comma :: ts =>
    match parseHexByte w, parseElements ts with
    | some b, some (bs, ts') => some (b :: bs, ts')
    | _, _ => none
  | .word w :: .rightBracket :: ts => (parseHexByte w).map fun b => ([b], ts)
  | _ => none

/-- `<bytes>`: a quoted string or a list (rule R80). -/
def parseBytes : List Token → Option (List Byte × List Token)
  | .text bs :: ts => some (bs, ts)
  | .leftBracket :: .rightBracket :: ts => some ([], ts)
  | .leftBracket :: ts => parseElements ts
  | _ => none

/-- A decimal number (rule R80), `n` being the value of the digits before. -/
def parseDecimal (n : Nat) : List Byte → Option Nat
  | [] => some n
  | c :: cs =>
    match decimalDigit c with
    | some d => parseDecimal (n * 10 + d) cs
    | none => none

/-- `<cap>`: a decimal number 0 to 255 (rule R80). -/
def parseCap : List Token → Option (Byte × List Token)
  | .word w :: ts =>
    match w, parseDecimal 0 w with
    | _ :: _, some n => if n ≤ 255 then some (BitVec.ofNat 8 n, ts) else none
    | _, _ => none
  | _ => none

/-- A command, from its mnemonic and what follows (rules R72, R80 and, for CRLF, R81). -/
def parseCommand (w : List Byte) (ts : List Token) : Option (Instr × List Token) :=
  if w = ascii "SEND" then (parseBytes ts).map fun r => (.send r.1, r.2)
  else if w = ascii "SEND_LINE" then (parseBytes ts).map fun r => (.sendLine r.1, r.2)
  else if w = ascii "RECV_BYTE" then some (.recvByte, ts)
  else if w = ascii "RECEIVE" then (parseCap ts).map fun r => (.receive r.1, r.2)
  else if w = ascii "TOGGLE" then some (.toggle, ts)
  else if w = ascii "ACQUIRE" then some (.acquire, ts)
  else if w = ascii "RELEASE" then some (.release, ts)
  else if w = ascii "CRLF" then some (Instr.crlf, ts)
  else none

/-- Outside CRITICAL a command ends its line (rule R80); inside, another may follow (assumption 15). -/
def endsLine (opened : Nat) : List Token → Bool
  | [] => true
  | .endOfLine :: _ => true
  | _ => opened != 0

/-- The commands of the tokens, with `opened` CRITICAL brackets open (rule R81): CRITICAL and its left
brace give ACQUIRE, its right brace RELEASE. Each round uses up one token at least. -/
def parseProgram : Nat → Nat → List Token → Option (List Instr)
  | 0, _, _ => none
  | _ + 1, opened, [] => if opened = 0 then some [] else none
  | n + 1, opened, .endOfLine :: ts => parseProgram n opened ts
  | n + 1, opened, .rightBrace :: ts =>
    if opened ≠ 0 ∧ endsLine (opened - 1) ts then
      (parseProgram n (opened - 1) ts).map (.release :: ·)
    else none
  | n + 1, opened, .word w :: ts =>
    if w = ascii "CRITICAL" then
      match ts with
      | .leftBrace :: ts' => (parseProgram n (opened + 1) ts').map (.acquire :: ·)
      | _ => none
    else
      match parseCommand w ts with
      | some (i, ts') =>
        if i.wf && endsLine opened ts' then (parseProgram n opened ts').map (i :: ·) else none
      | none => none
  | _ + 1, _, _ => none

/-- The commands of a source text (rules R80 and R81); none where the text is not in the syntax. -/
def assemble (source : List Byte) : Option (List Instr) :=
  match lexFrom .gap source with
  | some ts => parseProgram (ts.length + 1) 0 ts
  | none => none

/-- The bytes the assembler emits (rules R80 and R81). -/
def assembleBytes (source : List Byte) : Option (List Byte) := (assemble source).map encodeAll

end Sys2Proof
end

