-- ==== Sys2Proof/Tests/Slice0.lean ====
section
/-! SUPPORT. Tests from the spec's examples and vectors (30_encoding.md, 95_test_vectors.md), and witnesses of the obligations' hypotheses. -/

namespace Sys2Proof.Tests

open Sys2Proof.Machine

/-! ## Helpers -/

/-- Reset, with the sequencer at a position: polling mode. -/
def polling (q : Seq) : State := { State.reset with seq := q }

/-- Interrupt mode with nothing in flight and a reception armed. -/
def interrupt (q : Seq) : State :=
  { State.reset with mode := .interrupt, lineEn := true, perRxArmed := true, seq := q }

/-- A ring at given indices, its storage written from an index on. -/
def ring (head tail : Index) (from_ : Index) (bytes : List Byte) : Machine.Ring :=
  { ((({ buf := Vector.replicate 128 0, head := from_, tail := from_ } : Machine.Ring).pushAll bytes)) with
    head := head, tail := tail }

/-- An environment that gives one answer always. -/
def always (pick sent : Nat) (take hook : Bool) : Nat → Draws := fun _ => ⟨pick, sent, take, hook⟩

/-- A fact about the next state of an outcome; false of a fault or a refusal. -/
def holdsNext (o : Host.Outcome State Fault Refusal) (p : State → Bool) : Bool :=
  match o with
  | .next s => p s
  | .fault _ => false
  | .refused _ => false

/-! ## Ill-formed commands (rule R10), and words written out from rule R72 -/

theorem test_wf_refuses_long_send : (Instr.send (List.replicate 256 0)).wf = false := by decide +kernel

theorem test_wf_refuses_long_sendLine : (Instr.sendLine (List.replicate 256 0)).wf = false := by decide +kernel

/-- SEND: opcode 00000001, operand 00000010, then the two payload bytes. -/
theorem test_decode_send :
    decode [0b00000001, 0b00000010, 0x68, 0x69, 0xFF] = .command (.send [0x68, 0x69]) [0xFF] := by decide

/-- SEND_LINE: opcode 00000010, operand 00000010, then the two payload bytes. -/
theorem test_decode_sendLine :
    decode [0b00000010, 0b00000010, 0x61, 0x62] = .command (.sendLine [0x61, 0x62]) [] := by decide

theorem test_decode_recvByte : decodeTableWord 16 0b0000001100000000 = some .recvByte := by decide

/-- RECEIVE with capacity 255 (V-E6). -/
theorem test_decode_receive : decodeTableWord 16 0b0000010011111111 = some (.receive 255) := by
  decide +kernel

theorem test_decode_toggle : decodeTableWord 16 0b0000010100000000 = some .toggle := by decide

theorem test_decode_acquire : decodeTableWord 16 0b0000011000000000 = some .acquire := by decide

theorem test_decode_release : decodeTableWord 16 0b0000011100000000 = some .release := by decide

/-- V-E5: `07 80` is illegal. -/
theorem test_decode_illegal_operand : decode [0x07, 0x80] = .illegal 0x0780 [] := by decide

/-- V-E10: after SEND [05] a lone 00 is left, an incomplete header. -/
theorem test_decode_incomplete :
    decode [0x01, 0x01, 0x05, 0x00] = .command (.send [0x05]) [0x00] ∧ decode [0x00] = .incomplete := by
  decide

/-- Rule R80: SEND "ok\r\n" assembles to 01 04 6F 6B 0D 0A. -/
theorem test_assemble_send :
    assembleBytes (ascii "SEND \"ok\\r\\n\"") = some [0x01, 0x04, 0x6F, 0x6B, 0x0D, 0x0A] := by
  decide +kernel

/-- Rule R80: RECEIVE 16 assembles to 04 10 and TOGGLE to 05 00; a comment starts at a semicolon. -/
theorem test_assemble_receive :
    assembleBytes (ascii "RECEIVE 16 ; a line\nTOGGLE") = some [0x04, 0x10, 0x05, 0x00] := by
  decide +kernel

/-- 95_test_vectors.md, L2.7: CRITICAL around SEND "x" gives 06 00 01 01 78 07 00. -/
theorem test_assemble_critical :
    assembleBytes (ascii "CRITICAL " ++ [0x7B] ++ ascii " SEND \"x\" " ++ [0x7D]) =
        some [0x06, 0x00, 0x01, 0x01, 0x78, 0x07, 0x00] ∧
      encodeAll (Instr.critical [.send [0x78]]) = [0x06, 0x00, 0x01, 0x01, 0x78, 0x07, 0x00] := by
  decide +kernel

/-- L2.7: CRLF gives 01 02 0D 0A; rule R80: a capacity above 255 is no operand. -/
theorem test_assemble_crlf :
    assembleBytes (ascii "CRLF") = some [0x01, 0x02, 0x0D, 0x0A] ∧
      assemble (ascii "RECEIVE 256") = none := by
  decide +kernel

/-! ## The rings (L2.1) -/

/-- V-RG3 and V-RG4: a push into a full ring is dropped; a push at 127 wraps. -/
theorem test_push_full_and_wrap :
    (ring 0 127 0 []).push 0x41 = ring 0 127 0 [] ∧
      ((ring 5 127 5 []).push 0x41).tail = 0 ∧ ((ring 5 127 5 []).push 0x41).at 127 = 0x41 := by
  decide +kernel

/-- V-RG8 to V-RG10: a pop at 127 wraps; a stored 00 by each reading. -/
theorem test_pop_wrap_and_nul :
    ((ring 127 2 127 [0x55]).pop false).1 = some 0x55 ∧ ((ring 127 2 127 [0x55]).pop false).2.head = 0 ∧
      ((ring 3 5 3 [0, 1]).pop false).1 = some 0 ∧ ((ring 3 5 3 [0, 1]).pop true).1 = none ∧
      ((ring 3 5 3 [0, 1]).pop true).2.head = 4 := by
  decide +kernel

/-! ## Commands, one micro-step each -/

/-- V-S9: the SEND of "ok\r\n" from an idle interrupt mode at index 22. -/
theorem test_send_interrupt :
    holdsNext
        (exec (.send [0x6F, 0x6B, 0x0D, 0x0A])
          { interrupt (.send [0x6F, 0x6B, 0x0D, 0x0A]) with tx := ring 22 22 22 [] })
        (fun t => t.tx.head == 23 && t.tx.tail == 26 && t.txStage == 0x6F && t.perTxBusy &&
          t.txInFlight && t.depth == 0 && t.tx.contents == [0x6B, 0x0D, 0x0A] && t.seq == .idle) =
      true := by
  decide +kernel

/-- V-S2: a polling SEND of two bytes that times out after one. -/
theorem test_send_polling_timeout :
    holdsNext (sendUnder ⟨0, 1, true, false⟩ [0x68, 0x69] (polling (.send [0x68, 0x69])))
      (fun t => t.lineOut == [0x68] && t.fault == none) = true := by
  decide +kernel

/-- V-S14: a full payload ring takes the CR and drops the LF. -/
theorem test_sendLine_drops_lf :
    holdsNext
        (exec (.sendLine [])
          { interrupt (.sendLine [] .crlf) with
            tx := ring 0 126 0 [], txInFlight := true, perTxBusy := true })
        (fun t => t.tx.tail == 127 && t.tx.at 126 == cr && t.seq == .idle) = true := by
  decide +kernel

/-- V-S8 for SEND_LINE: the fault's origin is the command, its byte the first of the payload. -/
theorem test_sendLine_overlap :
    holdsNext (exec (.sendLine [0x68]) { polling (.sendLine [0x68] .text) with perTxBusy := true })
      (fun t => t.fault == some (.txOverlap .sendLine 0x68) && t.lineOut == []) = true := by
  decide +kernel

/-- V-RC11: a receive at depth 255 faults with origin RECV_BYTE at its attempt. -/
theorem test_recvByte_overflow :
    holdsNext (exec .recvByte { interrupt (.recvByte (.source .attempt)) with depth := 255 })
      (fun t => t.fault == some (.guardOverflow .recvByte)) = true := by
  decide +kernel

/-- V-RC10: an attempt in interrupt mode takes the oldest byte. -/
theorem test_recvByte_pops :
    holdsNext
        (exec .recvByte
          { interrupt (.recvByte (.source .attempt)) with rx := ring 0 2 0 [0x31, 0x32] })
        (fun t => t.rx.head == 1 && t.seq == .recvByte (.deliver 0x31)) = true := by
  decide +kernel

/-- V-RC5: a CR as the first byte is echoed and not stored. -/
theorem test_receive_cr :
    holdsNext (receiveUnder ⟨0, 1, true, false⟩ 4 (polling (.receive 4 [] (.echo cr))))
      (fun t => t.lineOut == [cr] && t.seq == .receive 4 [] .echoLf) = true := by
  decide +kernel

/-- V-RC8: the second byte fills the buffer and the scan stops without a LF. -/
theorem test_receive_full :
    holdsNext (receiveUnder ⟨0, 1, true, false⟩ 2 (polling (.receive 2 [0x61] (.echo 0x62))))
      (fun t => t.lineOut == [0x62] && t.seq == .receive 2 [0x61, 0x62] .finish) = true := by
  decide +kernel

/-- V-M5: the OFF line over an outstanding byte raises TX_OVERLAP with origin TOGGLE and byte 41. -/
theorem test_toggle_overlap :
    holdsNext (exec .toggle { polling (.toggle (.offLine .text)) with perTxBusy := true })
      (fun t => t.fault == some (.txOverlap .toggle 0x41) && t.lineOut == []) = true := by
  decide +kernel

/-- Program P7's last step: the prime pushes the stale byte, then finds a reception armed. -/
theorem test_toggle_double_arm :
    holdsNext
        (exec .toggle
          { interrupt (.toggle .prime) with rxStage := 0x61, rx := ring 0 1 0 [0x61] })
        (fun t => t.fault == some (.rxDoubleArm .toggle) && t.rx.contents == [0x61, 0x61]) = true := by
  decide +kernel

/-- V-G5: ACQUIRE at depth 255 faults and keeps the depth. -/
theorem test_acquire_overflow :
    holdsNext (exec .acquire { polling .acquire with depth := 255 })
      (fun t => t.fault == some (.guardOverflow .acquire) && t.depth == 255) = true := by
  decide +kernel

/-- V-G3: RELEASE at depth 0 faults. -/
theorem test_release_underflow :
    holdsNext (exec .release (polling .release))
      (fun t => t.fault == some (.guardUnderflow .release) && t.depth == 0) = true := by
  decide +kernel

/-- V-G6: SEND at depth 254 keeps its push and its flag, and faults in the kickstart. -/
theorem test_send_nested_overflow :
    holdsNext
        (exec (.send [0x7A])
          { interrupt (.send [0x7A]) with depth := 254, tx := ring 22 22 22 [] })
        (fun t => t.fault == some (.guardOverflow .send) && t.depth == 255 && t.txInFlight &&
          !t.perTxBusy && t.tx.contents == [0x7A]) = true := by
  decide +kernel

/-! ## Steps -/

/-- V-M9: the header 05 01 raises ILLEGAL_COMMAND and changes nothing else of the block. -/
theorem test_step_illegal :
    holdsNext (step { State.reset with port := [0x05, 0x01] })
      (fun t => t.fault == some (.illegalCommand 0x0501) && t.mode == .polling && t.seq == .idle) =
        true := by
  decide +kernel

/-- The placed word of ACQUIRE is what the next step takes. -/
theorem test_step_placed :
    holdsNext (step (State.reset.withFetchWord 16 0x0600)) (fun t => t.seq == .acquire) = true := by
  decide +kernel

/-- V-H4: RXC over an armed reception keeps its push and faults with origin RXC. -/
theorem test_irq_double_arm :
    holdsNext (step { interrupt .idle with rxStage := 0x35, rxPend := true, rx := ring 7 7 7 [] })
      (fun t => t.fault == some (.rxDoubleArm .rxc) && t.rx.tail == 8 && t.rx.at 7 == 0x35) = true := by
  decide +kernel

/-- V-H10: TXC over an outstanding byte faults with origin TXC and the byte popped. -/
theorem test_irq_overlap :
    holdsNext
        (stepUnder (always 0 0 true false)
          { interrupt .idle with
            txPend := true, perTxBusy := true, tx := ring 23 26 23 [0x6B, 0x0D, 0x0A] })
        (fun t => t.fault == some (.txOverlap .txc 0x6B) && t.txStage == 0x6B && t.tx.head == 24) =
      true := by
  decide +kernel

/-- V-H5: the reception completes: the byte is staged and RXC becomes pending. -/
theorem test_per_reception :
    holdsNext (step { interrupt .idle with lineIn := [0x61] })
      (fun t => t.rxStage == 0x61 && !t.perRxArmed && t.rxPend && t.lineIn == []) = true := by
  decide +kernel

/-- V-H12: an event pending in polling mode is not deliverable, and no agent is enabled. -/
theorem test_polling_keeps_pending :
    step { State.reset with txPend := true } = .next { State.reset with txPend := true } := rfl

/-- Rule R271: a line byte with nothing to take it may be lost, or stay. -/
theorem test_line_loss_is_optional :
    stepUnder (always 0 0 true false) { State.reset with lineIn := [0x61] } =
        .next { State.reset with drawn := 1 } ∧
      stepUnder (always 1 0 true false) { State.reset with lineIn := [0x61] } =
        .next { State.reset with lineIn := [0x61], drawn := 1 } :=
  ⟨rfl, rfl⟩

/-- Rule R302: after reset the machine waits for its host. -/
theorem test_reset_waits : step State.reset = .next State.reset := rfl

/-! ## Witnesses: states and operands that meet the hypotheses of each obligation -/

theorem witness_DecodeOfEncode : (Instr.sendLine (List.replicate 255 0)).wf = true := by decide +kernel

theorem witness_EncodeOfDecode : decode [0x04, 0xFF, 0x00] = .command (.receive 0xFF) [0x00] := by decide

theorem witness_IllegalHeadersFault :
    decode [0x07, 0x01, 0x05] = .illegal 0x0701 [0x05] ∧
      ({ State.reset with port := [0x07, 0x01, 0x05] } : State).fault = none ∧
      ({ State.reset with port := [0x07, 0x01, 0x05] } : State).seq = .idle := by
  decide

theorem witness_CommandLengths :
    decode [0x02, 0x01, 0x41, 0x42] = .command (.sendLine [0x41]) [0x42] ∧
      decode [0x08, 0x00, 0x01] = .illegal 0x0800 [0x01] ∧ decode [0x01, 0xFF] = .incomplete := by
  decide

theorem witness_IncompleteCommandWaits :
    ({ State.reset with port := [0x05] } : State).seq = .idle ∧ decode [0x05] = .incomplete ∧
      stepUnder (always 0 0 true true) { State.reset with port := [0x05] } =
        .next { State.reset with port := [0x05] } :=
  ⟨rfl, rfl, rfl⟩

theorem witness_StepRunsDecodedCommand :
    ({ State.reset with port := [0x06, 0x00] } : State).schedule (Config.drawsAt 0) =
        some (.foreground, { State.reset with port := [0x06, 0x00] }) ∧
      decode [0x06, 0x00] = .command .acquire [] ∧
      (polling .release).schedule (Config.drawsAt 0) = some (.foreground, polling .release) ∧
      (polling .release).seq.instr = some .release :=
  ⟨rfl, rfl, rfl, rfl⟩

theorem witness_PlacedWordRunsNext : decodeTableWord 16 0x0300 = some .recvByte := by decide

theorem witness_IntakeSetsSequencer : State.reset.fault = none ∧ State.reset.seq = .idle := ⟨rfl, rfl⟩

theorem witness_FaultStopsEveryAgent :
    ({ State.reset with fault := some (.guardUnderflow .release) } : State).fault =
      some (.guardUnderflow .release) := rfl

/-- Both events deliverable; neither; TXC alone. -/
theorem witness_RxcBeforeTxc :
    ({ interrupt .idle with rxPend := true, txPend := true, perRxArmed := false } : State).deliverable .rxc =
        true ∧
      ({ interrupt .idle with rxPend := true, txPend := true, perRxArmed := false } : State).deliverable .txc =
        true ∧
      ({ interrupt .idle with rxPend := true, txPend := true, perRxArmed := false } : State).irqStep.fault =
        none ∧
      ({ interrupt .idle with txPend := true } : State).deliverable .rxc = false ∧
      ({ interrupt .idle with txPend := true } : State).deliverable .txc = true := by
  decide +kernel

theorem witness_AcquireRuns :
    ({ polling .acquire with depth := 254 } : State).fault = none ∧
      ({ polling .acquire with depth := 254 } : State).seq = .acquire ∧ (254#8 : Byte) ≠ 255#8 ∧
      ({ polling .acquire with depth := 255 } : State).depth = 255#8 := by
  decide

theorem witness_ReleaseRuns :
    ({ polling .release with depth := 1 } : State).fault = none ∧
      ({ polling .release with depth := 1 } : State).seq = .release ∧ (1#8 : Byte) ≠ 0#8 ∧
      (polling .release).depth = 0#8 := by
  decide

theorem witness_DepthChangesOnlyInGuardCommands :
    step (polling .acquire) = .next { State.reset with depth := 1 } ∧
      ({ State.reset with depth := 1 } : State).fault = none :=
  ⟨rfl, rfl⟩

theorem witness_GuardFaultCauses :
    step { polling .acquire with depth := 255 } =
        .next { polling .acquire with depth := 255, fault := some (.guardOverflow .acquire) } ∧
      step (polling .release) = .next { polling .release with fault := some (.guardUnderflow .release) } :=
  ⟨rfl, rfl⟩

/-- A ring at the edge of each clause: empty, full, one byte, and a stored 0x00. -/
theorem witness_rings :
    (ring 3 3 3 []).isEmpty = true ∧ (ring 5 4 5 []).isFull = true ∧ (ring 127 0 127 [1]).isEmpty = false ∧
      (ring 0 126 0 []).isFull = false ∧ (ring 3 5 3 [0, 1]).at 3 = 0#8 := by
  decide +kernel

theorem witness_FifoLaw : State.reset.tx.isEmpty = true := rfl

theorem witness_OverflowLaw : (ring 9 9 9 []).isEmpty = true := rfl

/-- SEND free to run: in polling mode; in interrupt mode queueing at depth 254; kickstarting at 253. -/
theorem witness_SendRuns :
    (polling (.send [0x41])).fault = none ∧ (polling (.send [0x41])).seq = .send [0x41] ∧
      (polling (.send [0x41])).SendClear [0x41] ∧
      ({ interrupt (.send [0x41]) with txInFlight := true, depth := 254 } : State).SendClear [0x41] ∧
      ({ interrupt (.send [0x41]) with depth := 253 } : State).SendClear [0x41] := by
  refine ⟨rfl, rfl, .inl rfl, ?_, ?_⟩
  · show (254#8 : Byte) ≠ 255#8
    decide
  · show (253#8 : Byte).toNat < 254 ∧ _
    exact ⟨by decide, .inl rfl⟩

theorem witness_SendFaults :
    ({ polling (.send [0x41]) with perTxBusy := true } : State).perTxBusy = true ∧
      ({ interrupt (.send [0x41]) with depth := 255 } : State).depth = 255#8 ∧
      ({ interrupt (.send [0x41]) with depth := 254 } : State).depth = 254#8 ∧
      ({ interrupt (.send [0x41]) with depth := 254 } : State).txInFlight = false ∧
      ({ interrupt (.send [0x41]) with depth := 253, perTxBusy := true } : State).depth.toNat < 254 ∧
      ((State.reset.tx.pushAll [0x41]).pop false).1 = some 0x41 := by
  decide +kernel

theorem witness_EmptySendChangesNothing :
    (polling .idle).mode = .polling ∧ (polling .idle).seq = .idle ∧
      (interrupt (.send [])).mode = .interrupt ∧ (interrupt (.send [])).seq = .send [] ∧
      (interrupt (.send [])).depth.toNat < 254 ∧ (interrupt (.send [])).txInFlight = false ∧
      (interrupt (.send [])).tx.isEmpty = true := by
  decide

theorem witness_SendLineRuns :
    (polling (.sendLine [] .text)).fault = none ∧ (polling (.sendLine [] .text)).SendClear [] ∧
      (polling (.sendLine [] .crlf)).SendClear [cr, lf] :=
  ⟨rfl, .inr rfl, .inl rfl⟩

/-- A SEND not free to run in each clause: the echo of RECEIVE in polling mode, SEND_LINE's text at depths
255 and 254, and at depth 0 the ON line of a TOGGLE nested in a receive. -/
theorem witness_ContainedSendFaults :
    (∃ s : State, s.fault = none ∧ s.seq.instr = some (.receive 4) ∧ s.sending = some [0x41] ∧
      ¬s.SendClear [0x41] ∧ s.mode = .polling) ∧
    (∃ s : State, s.fault = none ∧ s.seq.instr = some (.sendLine [0x41]) ∧ s.sending = some [0x41] ∧
      ¬s.SendClear [0x41] ∧ s.mode = .interrupt ∧ s.depth = 255#8) ∧
    (∃ s : State, s.fault = none ∧ s.seq.instr = some (.sendLine [0x41]) ∧ s.sending = some [0x41] ∧
      ¬s.SendClear [0x41] ∧ s.mode = .interrupt ∧ s.depth = 254#8) ∧
    ∃ s : State, s.fault = none ∧ s.seq.instr = some .recvByte ∧ s.sending = some [cr, lf] ∧
      ¬s.SendClear [cr, lf] ∧ s.mode = .interrupt ∧ s.depth.toNat < 254 := by
  refine
    ⟨⟨{ polling (.receive 4 [] (.echo 0x41)) with perTxBusy := true }, rfl, rfl, rfl, ?_, rfl⟩,
      ⟨{ interrupt (.sendLine [0x41] .text) with depth := 255 }, rfl, rfl, rfl, ?_, rfl, rfl⟩,
      ⟨{ interrupt (.sendLine [0x41] .text) with depth := 254 }, rfl, rfl, rfl, ?_, rfl, rfl⟩,
      ⟨{ interrupt (.recvByte (.source (.toggling (.onLine .crlf)))) with perTxBusy := true },
        rfl, rfl, rfl, ?_, rfl, by decide⟩⟩
  · rintro (h | h) <;> cases h
  · exact fun h => absurd h.1 (by decide)
  · exact fun h => absurd h.1 (by decide)
  · exact fun h => absurd (h : _ ∧ (true = false ∨ _ = none)).2 (by decide +kernel)

theorem witness_SentinelEndsBurst :
    ∃ s : State, s.params.nulIsEmpty = true ∧ s.tx.contents = 0#8 :: [0x42] ∧ s.deliverable .rxc = false ∧
      s.deliverable .txc = true :=
  ⟨{ interrupt .idle with
      txPend := true, tx := ring 24 26 24 [0x00, 0x42], params := { Params.standard with nulIsEmpty := true } },
    rfl, by decide +kernel, rfl, rfl⟩

theorem witness_HookAnswers :
    (polling (.recvByte (.source .hook))).fault = none ∧
      (polling (.receive 1 [] (.source .hook))).seq = .receive 1 [] (.source .hook) :=
  ⟨rfl, rfl⟩

theorem witness_NestedToggleRunsAsToggle :
    exec .toggle { polling (.recvByte (.source (.toggling .enableLine))) with seq := .toggle .enableLine } =
        .next { polling (.toggle .prime) with lineEn := true } ∧
      (polling (.recvByte (.source (.toggling .enableLine)))).seq =
        .recvByte (.source (.toggling .enableLine)) :=
  ⟨rfl, rfl⟩

/-- An attempt of each command; the depth at, and below, the limit; an empty ring and a byte held. -/
theorem witness_InterruptAttempt :
    (interrupt (.recvByte (.source .attempt))).mode = .interrupt ∧
      (interrupt (.recvByte (.source .attempt))).seq.instr = some .recvByte ∧
      (interrupt (.receive 1 [] (.source .attempt))).seq.instr = some (.receive 1) ∧
      ({ interrupt (.recvByte (.source .attempt)) with depth := 255 } : State).depth = 255#8 ∧
      (interrupt (.recvByte (.source .attempt))).depth ≠ 255#8 ∧
      (interrupt (.recvByte (.source .attempt))).rx.contents = [] ∧
      (ring 0 2 0 [0x31, 0x32]).contents = [0x31, 0x32] := by
  decide +kernel

theorem witness_PollingAttempt :
    (polling (.recvByte (.source .attempt))).mode = .polling ∧
      (polling (.receive 1 [] (.source .attempt))).seq.instr = some (.receive 1) ∧
      ({ polling (.recvByte (.source .attempt)) with perRxArmed := true } : State).perRxArmed = true ∧
      (polling (.recvByte (.source .attempt))).perRxArmed = false ∧
      (polling (.recvByte (.source .attempt))).lineIn = [] ∧
      ({ polling (.recvByte (.source .attempt)) with lineIn := [0x00] } : State).lineIn = [0x00] := by
  decide

theorem witness_RecvByteDelivers :
    (polling (.recvByte (.deliver 0x35))).fault = none ∧
      (polling (.recvByte (.deliver 0x35))).seq = .recvByte (.deliver 0x35) :=
  ⟨rfl, rfl⟩

/-- A state whose next step is the completion of a transmission, for the invariants of every step. -/
theorem witness_step :
    step { interrupt .idle with perTxBusy := true, txInFlight := true, txStage := 0x41 } =
      .next { interrupt .idle with txPend := true, txInFlight := true, txStage := 0x41, lineOut := [0x41] } := rfl

theorem witness_StepKeepsReceivedByteNonZero :
    (polling (.receive 4 [] (.echo 0x41))).seq.GotNonZero ∧ (polling (.receive 4 [] (.echo 0x41))).seq.BufferFits ∧
      stepUnder (always 0 1 true false) (polling (.receive 4 [] (.echo 0x41))) =
        .next { polling (.receive 4 [0x41] (.source .hook)) with lineOut := [0x41], drawn := 1 } :=
  ⟨by show (0x41#8 : Byte) ≠ 0#8; decide, by show 0 < 4; decide, rfl⟩

theorem witness_ReceiveEchoes :
    (polling (.receive 1 [] (.echo cr))).fault = none ∧ (polling (.receive 1 [] (.echo cr))).SendClear [cr] ∧
      (polling (.receive 1 [] .echoLf)).SendClear [lf] :=
  ⟨rfl, .inl rfl, .inl rfl⟩

theorem witness_ReceiveFinishes :
    (polling (.receive 255 (List.replicate 255 1) .finish)).fault = none ∧
      (List.replicate 255 (1#8 : Byte)).length ≤ 255 := by
  decide +kernel

theorem witness_ReceiveZeroCapacity :
    ∃ s : State, s.fault = none ∧ s.seq = .idle ∧ s.port = 4#8 :: 0#8 :: [0x05, 0x00] ∧
      s.anyDeliverable = false :=
  ⟨{ State.reset with port := [4, 0, 5, 0] }, rfl, rfl, rfl, rfl⟩

theorem witness_RoundTripEchoPolling :
    ∃ (env : Nat → Draws) (s : State),
      (∀ n, (env n).hook = false ∧ (env n).take = true ∧ (env n).sent % 2 = 1 ∧ (env n).pick % 2 = 0) ∧
      s.fault = none ∧ s.seq = .idle ∧ s.mode = .polling ∧ s.lineEn = false ∧ s.perRxArmed = false ∧
      s.perTxBusy = false ∧ s.port = [4#8, 2] ∧ s.lineIn = [0x31] ++ cr :: [0x32] ∧
      0#8 ∉ [(0x31 : Byte)] ∧ cr ∉ [(0x31 : Byte)] ∧ [(0x31 : Byte)].length < (2 : Byte).toNat :=
  ⟨always 0 1 true false, { State.reset with port := [4, 2], lineIn := [0x31, cr, 0x32] },
    fun _ => ⟨rfl, rfl, rfl, rfl⟩, rfl, rfl, rfl, rfl, rfl, rfl, rfl, rfl, by decide, by decide, by decide⟩

theorem witness_RxcHandlerRuns :
    ({ interrupt .idle with rxPend := true, perRxArmed := false } : State).deliverable .rxc = true ∧
      ({ interrupt .idle with rxPend := true } : State).deliverable .rxc = true := by
  decide

theorem witness_TxcHandlerRuns :
    ({ interrupt .idle with txPend := true } : State).deliverable .rxc = false ∧
      ({ interrupt .idle with txPend := true } : State).deliverable .txc = true ∧
      (State.reset.tx.pop false).1 = none ∧ ((ring 25 26 25 [0x0A]).pop false).1 = some 0x0A := by
  decide +kernel

theorem witness_TransmitBurstDrains :
    ∃ s : State, s.fault = none ∧ s.depth = 0#8 ∧ s.lineEn = true ∧ s.rxPend = false ∧ s.txPend = false ∧
      s.perTxBusy = true ∧ s.txInFlight = true ∧ (s.params.nulIsEmpty = false ∨ 0#8 ∉ s.tx.contents) ∧
      s.tx.count = 2 :=
  ⟨{ interrupt .idle with perTxBusy := true, txInFlight := true, tx := ring 24 26 24 [0x0D, 0x0A] },
    rfl, rfl, rfl, rfl, rfl, rfl, rfl, .inl rfl, by decide +kernel⟩

theorem witness_ReceptionPipelineFills :
    ∃ s : State, s.fault = none ∧ s.depth = 0#8 ∧ s.lineEn = true ∧ s.rxPend = false ∧ s.perRxArmed = true ∧
      s.lineIn = [0x61, 0x00] ++ [0x62] ∧ s.rx.count + [(0x61 : Byte), 0x00].length ≤ 127 :=
  ⟨{ interrupt .idle with lineIn := [0x61, 0x00, 0x62], rx := ring 3 0 3 [] },
    rfl, rfl, rfl, rfl, rfl, rfl, by decide +kernel⟩

theorem witness_PeripheralMoves :
    ({ interrupt .idle with lineIn := [0x61] } : State).enabled .rxComplete = true ∧
      ({ interrupt .idle with perTxBusy := true } : State).enabled .txComplete = true ∧
      ({ State.reset with lineIn := [0x61] } : State).enabled .lineLoss = true := by
  decide

theorem witness_ToggleMicroSteps :
    (polling (.toggle .flip)).mode = .polling ∧ (interrupt (.toggle .flip)).mode = .interrupt ∧
      (polling (.toggle .prime)).perRxArmed = false ∧ (interrupt (.toggle .prime)).perRxArmed = true ∧
      ({ interrupt (.toggle .drain) with depth := 255 } : State).depth = 255#8 ∧
      (polling (.toggle (.offLine .text))).SendClear Params.standard.confirmOff ∧
      (polling (.toggle (.offLine .crlf))).SendClear [cr, lf] :=
  ⟨rfl, rfl, rfl, rfl, rfl, .inl rfl, .inl rfl⟩

theorem witness_ToggleToInterruptLines :
    (interrupt (.toggle (.onLine .text))).SendClear Params.standard.confirmOn ∧
      (interrupt (.toggle (.onLine .crlf))).SendClear [cr, lf] := by
  constructor <;> exact ⟨by decide, .inl rfl⟩

theorem witness_ToggleFromPollingRuns :
    ∃ s : State, s.fault = none ∧ s.seq = .toggle .flip ∧ s.mode = .polling ∧ s.depth.toNat < 254 ∧
      s.perRxArmed = false ∧ s.perTxBusy = false ∧ s.txInFlight = false ∧ s.tx.isEmpty = true ∧
      ((s.rxPend = false ∧ s.txPend = false) ∨ s.depth ≠ 0#8) ∧ s.params.confirmOn = 0x41 :: Params.standard.confirmOn.tail ∧
      ((0x41 : Byte) ≠ 0#8 ∨ s.params.nulIsEmpty = false) ∧ s.params.confirmOn.length ≤ 125 :=
  ⟨{ polling (.toggle .flip) with depth := 253 },
    rfl, rfl, rfl, by decide, rfl, rfl, rfl, rfl, .inl ⟨rfl, rfl⟩, rfl, .inr rfl, by decide⟩

theorem witness_ToggleFromInterruptRuns :
    ∃ (env : Nat → Draws) (s : State), s.fault = none ∧ s.seq = .toggle .flip ∧ s.mode = .interrupt ∧
      s.depth ≠ 255#8 ∧ s.perTxBusy = false ∧ s.params.confirmOff ≠ [] ∧
      ((s.rxPend = false ∧ s.txPend = false) ∨ s.depth ≠ 0#8) ∧
      (env s.drawn).sent % (s.params.confirmOff.length + 1) = s.params.confirmOff.length ∧
      (env (s.drawn + 1)).sent % 3 = 2 :=
  ⟨fun n => ⟨0, if n = 0 then 21 else 2, true, false⟩, { interrupt (.toggle .flip) with depth := 254, txPend := true },
    rfl, rfl, rfl, by decide, rfl, by decide, .inr (by decide), by decide, by decide⟩

/-- A TOGGLE at its longest position; a step of it that FG makes and one that it does not; a run of one
step. -/
theorem witness_BoundedCommands :
    ((polling (.toggle .flip)).seq.instr = some .toggle ∧ Instr.toggle.stepBound = some 7) ∧
    (∃ (env : Nat → Draws) (s s' : State), stepUnder env s = .next s' ∧ s.seq ≠ .idle ∧
      s.seq.remaining = some 7 ∧ s.makes env .foreground) ∧
    (∃ (env : Nat → Draws) (s s' : State), stepUnder env s = .next s' ∧ s.seq ≠ .idle ∧
      s.seq.remaining = some 7 ∧ ¬s.makes env .foreground) ∧
    ∃ (env : Nat → Draws) (r : Nat → State) (made : Finset Nat),
      (∀ k, k < 1 → stepUnder env (r k) = .next (r (k + 1)) ∧ (r k).seq ≠ .idle) ∧
      (r 0).seq.instr = some .acquire ∧ Instr.acquire.stepBound = some 1 ∧ made.card = 1 ∧
      ∀ k, k ∈ made → k < 1 ∧ (r k).makes env .foreground := by
  refine ⟨⟨rfl, rfl⟩, ⟨always 0 0 true false, polling (.toggle .flip), _, rfl, nofun, rfl, rfl⟩,
    ⟨always 1 0 true false, { polling (.toggle .flip) with perTxBusy := true }, _, rfl, nofun, rfl, nofun⟩,
    always 0 0 true false,
    fun k => if k = 0 then polling .acquire else { State.reset with depth := 1 }, {0}, ?_, rfl, rfl, rfl, ?_⟩
  · rintro k hk
    obtain rfl : k = 0 := by omega
    exact ⟨rfl, nofun⟩
  · intro k hk
    obtain rfl : k = 0 := by simpa using hk
    exact ⟨by decide, rfl⟩

/-- The mode laws with a switch to polling under way, and a step of it. -/
theorem witness_StepKeepsModeLaws :
    ({ polling (.toggle .drain) with depth := 3 } : State).ModeLaws ∧
      ∃ t, step { polling (.toggle .drain) with depth := 3 } = .next t :=
  ⟨⟨rfl, rfl, rfl⟩, _, rfl⟩

theorem witness_StepKeepsRxRingNoNul :
    ({ interrupt .idle with rxPend := true, rxStage := 0x61, perRxArmed := false } : State).RxRingNoNul ∧
      ∃ t, step { interrupt .idle with rxPend := true, rxStage := 0x61, perRxArmed := false } = .next t := by
  refine ⟨?_, _, rfl⟩
  show 0#8 ∉ (interrupt .idle).rx.contents
  decide +kernel

theorem witness_StepKeepsTI :
    ∃ s t : State, s.TI ∧ s.BurstLive ∧ step s = .next t ∧
      (s.seq.togglePos = some .clearInFlight → s.perTxBusy = false ∧ s.txPend = false) :=
  ⟨{ interrupt .idle with perTxBusy := true, txInFlight := true, txStage := 0x41 }, _,
    ⟨fun _ => rfl, fun h => by cases h.2⟩, fun _ _ => .inl rfl, rfl, fun h => by cases h⟩

theorem witness_OverlapUnderTIOnlyInPolling :
    ({ polling (.send [0x41]) with perTxBusy := true, txInFlight := true } : State).TI ∧
      holdsNext
          (stepUnder (always 0 0 true false)
            { polling (.send [0x41]) with perTxBusy := true, txInFlight := true })
          (fun t => t.fault == some (.txOverlap .send 0x41)) =
        true :=
  ⟨⟨fun _ => rfl, fun h => by cases h.2⟩, by decide +kernel⟩

theorem witness_StepKeepsOneReception :
    ({ interrupt .idle with lineIn := [0x61] } : State).OneReception ∧
      ∃ t, step { interrupt .idle with lineIn := [0x61] } = .next t :=
  ⟨fun h => (by cases h.2), _, rfl⟩

theorem witness_DoubleArmOnlyAtPrime :
    (interrupt (.toggle .prime)).OneReception ∧ (interrupt (.toggle .prime)).ModeLaws ∧
      holdsNext (step (interrupt (.toggle .prime)))
          (fun t => t.fault == some (.rxDoubleArm .toggle)) = true :=
  ⟨fun h => (by cases h.2), rfl, by decide +kernel⟩

end Sys2Proof.Tests
end

section
/-! What each operation of a step can leave, one constructor per outcome, from a state without a fault. -/

namespace Sys2Proof.Machine

variable (s : State) (d : Draws) (o : Origin) (p : List Byte)

/-- A `Release()` either raises GUARD_UNDERFLOW, at depth 0 only, or goes one level up. -/
theorem State.release_cases :
    (s.depth = 0#8 ∧ s.release o = s.raise (.guardUnderflow o)) ∨
      (s.depth ≠ 0#8 ∧ s.release o = { s with depth := s.depth - 1#8 }) := by
  by_cases h : s.depth = 0#8
  · exact .inl ⟨h, s.release_of_zero o h⟩
  · exact .inr ⟨h, s.release_of_ne o h⟩

/-- What the IRQ step leaves (rules R190 to R193 and R254). -/
inductive IrqTo (s : State) : State → Prop
  | rxcArms (hp : s.rxPend = true) (ha : s.perRxArmed = false) :
      IrqTo s { s with rxPend := false, rx := s.rx.deliver s.rxStage, perRxArmed := true }
  | rxcDoubleArm (hp : s.rxPend = true) (ha : s.perRxArmed = true) :
      IrqTo s { s with
        rxPend := false, rx := s.rx.deliver s.rxStage, fault := some (.rxDoubleArm .rxc) }
  | txcArms (b : Byte) (q : Ring) (hr : s.rxPend = false) (hp : s.txPend = true)
      (hb : s.perTxBusy = false) (hq : s.tx.pop s.params.nulIsEmpty = (some b, q)) :
      IrqTo s { s with txPend := false, tx := q, txStage := b, perTxBusy := true }
  | txcOverlap (b : Byte) (q : Ring) (hr : s.rxPend = false) (hp : s.txPend = true)
      (hb : s.perTxBusy = true) (hq : s.tx.pop s.params.nulIsEmpty = (some b, q)) :
      IrqTo s { s with
        txPend := false, depth := s.depth + 1#8, tx := q, txStage := b,
        fault := some (.txOverlap .txc b) }
  | txcEnds (q : Ring) (hr : s.rxPend = false) (hp : s.txPend = true)
      (hq : s.tx.pop s.params.nulIsEmpty = (none, q)) :
      IrqTo s { s with txPend := false, tx := q, txInFlight := false }

/-- An event that some agent is to take finds the line enabled, the guard free and no fault (rule R253). -/
theorem State.anyDeliverable_free (h : s.anyDeliverable = true) :
    s.lineEn = true ∧ s.depth = 0#8 ∧ s.fault = none := by
  obtain he | ⟨-, he⟩ := s.anyDeliverable_cases h <;> exact ((s.deliverable_iff _).1 he).2

theorem State.irqStep_cases (h : s.anyDeliverable = true) : IrqTo s s.irqStep := by
  obtain hr | ⟨hr, ht⟩ := s.anyDeliverable_cases h
  · have hp : s.rxPend = true := ((s.deliverable_iff .rxc).1 hr).1
    rw [s.irqStep_rxc hr]
    split
    · exact .rxcDoubleArm hp ‹_›
    · exact .rxcArms hp (by simpa using ‹¬s.perRxArmed = true›)
  · obtain ⟨hp, hl, hd, hf⟩ := (s.deliverable_iff .txc).1 ht
    have hrp : s.rxPend = false := by
      simpa [State.deliverable, State.pend, State.irqMasked, hl, hd, hf] using hr
    rw [s.irqStep_txc hr ht]
    rcases hq : s.tx.pop s.params.nulIsEmpty with ⟨_ | b, q⟩
    · exact .txcEnds q hrp hp hq
    · cases hb : s.perTxBusy with
      | true => simpa only [State.txOutcome, hb, if_true] using IrqTo.txcOverlap b q hrp hp hb hq
      | false =>
        simpa only [State.txOutcome, hb, Bool.false_eq_true, if_false] using
          IrqTo.txcArms b q hrp hp hb hq

/-- What one SEND leaves (rules R141, R142, R240, R245 and R248). -/
inductive SendTo (s : State) (o : Origin) : List Byte → State → Prop
  | silent (hm : s.mode = .polling) : SendTo s o [] s
  | transmits (b : Byte) (rest : List Byte) (k : Nat) (hm : s.mode = .polling)
      (hb : s.perTxBusy = false) :
      SendTo s o (b :: rest)
        { s with lineOut := s.lineOut ++ (b :: rest).take k, drawn := s.drawn + 1 }
  | overlap (b : Byte) (rest : List Byte) (hm : s.mode = .polling) (hb : s.perTxBusy = true) :
      SendTo s o (b :: rest) { s with fault := some (.txOverlap o b) }
  | queues (p : List Byte) (hm : s.mode = .interrupt) (hi : s.txInFlight = true)
      (hd : s.depth ≠ 255#8) : SendTo s o p { s with tx := s.tx.pushAll p }
  | kicks (p : List Byte) (b : Byte) (q : Ring) (hm : s.mode = .interrupt) (hi : s.txInFlight = false)
      (hb : s.perTxBusy = false) (hq : (s.tx.pushAll p).pop s.params.nulIsEmpty = (some b, q))
      (hd : s.depth.toNat < 254) :
      SendTo s o p { s with tx := q, txStage := b, perTxBusy := true, txInFlight := true }
  | kicksNothing (p : List Byte) (q : Ring) (hm : s.mode = .interrupt) (hi : s.txInFlight = false)
      (hq : (s.tx.pushAll p).pop s.params.nulIsEmpty = (none, q)) (hd : s.depth.toNat < 254) :
      SendTo s o p { s with tx := q, txInFlight := false }
  | overflow (p : List Byte) (hm : s.mode = .interrupt) (hd : s.depth = 255#8) :
      SendTo s o p { s with fault := some (.guardOverflow o) }
  | kickOverflow (p : List Byte) (hm : s.mode = .interrupt) (hi : s.txInFlight = false)
      (hd : s.depth = 254#8) :
      SendTo s o p { s with
        depth := 255#8, tx := s.tx.pushAll p, txInFlight := true,
        fault := some (.guardOverflow o) }
  | kickOverlap (p : List Byte) (b : Byte) (q : Ring) (hm : s.mode = .interrupt)
      (hi : s.txInFlight = false) (hb : s.perTxBusy = true)
      (hq : (s.tx.pushAll p).pop s.params.nulIsEmpty = (some b, q)) (hd : s.depth.toNat < 254) :
      SendTo s o p { s with
        depth := s.depth + 2#8, tx := q, txStage := b, txInFlight := true,
        fault := some (.txOverlap o b) }

theorem State.sendNow_cases_of_clear (hf : s.fault = none) (hc : s.SendClear p) :
    SendTo s o p (s.sendNow d o p) := by
  rw [s.sendNow_of_clear d o p hf hc]
  cases hm : s.mode with
  | polling =>
    simp only [State.SendClear, hm] at hc
    cases p with
    | nil => simpa only [State.afterSend, hm] using SendTo.silent (o := o) hm
    | cons b rest =>
      have hb : s.perTxBusy = false := by simpa using hc
      simpa only [State.afterSend, hm] using SendTo.transmits (o := o) b rest _ hm hb
  | interrupt =>
    simp only [State.SendClear, hm] at hc
    cases hi : s.txInFlight with
    | true => simpa only [State.afterSend, hm, hi, if_true] using
      SendTo.queues (o := o) p hm hi (by simpa [hi] using hc)
    | false =>
      simp only [hi, Bool.false_eq_true, if_false] at hc
      rcases hq : (s.tx.pushAll p).pop s.params.nulIsEmpty with ⟨_ | b, q⟩
      · simpa only [State.afterSend, hm, hi, hq, Bool.false_eq_true, if_false] using
          SendTo.kicksNothing (o := o) p q hm hi hq hc.1
      · have hb : s.perTxBusy = false := by simpa [hq] using hc.2
        simpa only [State.afterSend, hm, hi, hq, Bool.false_eq_true, if_false] using
          SendTo.kicks (o := o) p b q hm hi hb hq hc.1

/-- Everything one SEND can do. -/
theorem State.sendNow_cases (hf : s.fault = none) : SendTo s o p (s.sendNow d o p) := by
  by_cases hc : s.SendClear p
  · exact s.sendNow_cases_of_clear d o p hf hc
  obtain ⟨b, rest, hm, hb, rfl, he⟩ | ⟨hm, hd, he⟩ | ⟨hm, hd, hi, he⟩ | ⟨b, q, hm, hd, hi, hb, hq, he⟩ :=
    s.sendNow_blocked d o p hf hc <;> rw [he]
  · exact .overlap b rest hm hb
  · exact .overflow p hm hd
  · exact .kickOverflow p hm hi hd
  · exact .kickOverlap p b q hm hi hb hq hd

/-- What a micro-step of a TOGGLE that makes no SEND leaves (rules R194 and R210 to R215). -/
inductive ToggleTo (s : State) : TogglePos → State → Prop
  | flip : ToggleTo s .flip { s with mode := s.mode.flip }
  | enableLine : ToggleTo s .enableLine { s with lineEn := true }
  | primeOverflow (hd : s.depth = 255#8) :
      ToggleTo s .prime { s with fault := some (.guardOverflow .toggle) }
  | primeDoubleArm (ha : s.perRxArmed = true) (hd : s.depth ≠ 255#8) :
      ToggleTo s .prime { s with
        rx := s.rx.deliver s.rxStage, fault := some (.rxDoubleArm .toggle) }
  | primeArms (ha : s.perRxArmed = false) (hd : s.depth ≠ 255#8) :
      ToggleTo s .prime { s with rx := s.rx.deliver s.rxStage, perRxArmed := true }
  | abortRx : ToggleTo s .abortRx { s with perRxArmed := false }
  | disableLine : ToggleTo s .disableLine { s with lineEn := false }
  | clearInFlight : ToggleTo s .clearInFlight { s with txInFlight := false }
  | drainOverflow (hd : s.depth = 255#8) :
      ToggleTo s .drain { s with fault := some (.guardOverflow .toggle) }
  | drains (hd : s.depth ≠ 255#8) : ToggleTo s .drain { s with rx := s.rx.drain, tx := s.tx.drain }

/-- Everything a micro-step of a TOGGLE that makes no SEND can do. -/
theorem State.toggleEffect_cases (t : TogglePos) (hf : s.fault = none) (ht : s.seq.togglePos = some t)
    (hs : s.sending = none) : ToggleTo s t (s.toggleEffect d t) := by
  cases t with
  | flip => exact .flip
  | enableLine => exact .enableLine
  | prime =>
    rw [State.toggleEffect, State.armFirstReceive]
    by_cases hd : s.depth = 255#8
    · rw [s.rxHandlerBody_max .toggle hd]
      exact .primeOverflow hd
    · rw [s.rxHandlerBody_eq .toggle hf hd]
      split
      · exact .primeDoubleArm ‹_› hd
      · exact .primeArms (by simpa using ‹¬s.perRxArmed = true›) hd
  | abortRx => exact .abortRx
  | disableLine => exact .disableLine
  | clearInFlight => exact .clearInFlight
  | drain =>
    rw [State.toggleEffect]
    by_cases hd : s.depth = 255#8
    · rw [s.drainRings_max .toggle hd]
      exact .drainOverflow hd
    · rw [s.drainRings_eq .toggle hf hd]
      exact .drains hd
  | onLine stage => cases stage <;> simp [State.sending, ht] at hs
  | offLine stage => cases stage <;> simp [State.sending, ht] at hs

/-- What one byte attempt leaves (rules R162, R163 and R270). -/
inductive AttemptTo (s : State) (o : Origin) : State → Prop
  | overflow (hm : s.mode = .interrupt) (hd : s.depth = 255#8) :
      AttemptTo s o { s with fault := some (.guardOverflow o) }
  | pops (hm : s.mode = .interrupt) (hd : s.depth ≠ 255#8) :
      AttemptTo s o { s with rx := (s.rx.pop s.params.nulIsEmpty).2 }
  | doubleArm (hm : s.mode = .polling) (ha : s.perRxArmed = true) :
      AttemptTo s o { s with fault := some (.rxDoubleArm o) }
  | getsNothing (n : Nat) (hm : s.mode = .polling) (ha : s.perRxArmed = false) :
      AttemptTo s o { s with drawn := n }
  | takes (b : Byte) (rest : List Byte) (hm : s.mode = .polling) (ha : s.perRxArmed = false)
      (hl : s.lineIn = b :: rest) : AttemptTo s o { s with lineIn := rest, drawn := s.drawn + 1 }

/-- Everything one byte attempt can do. -/
theorem State.attempt_cases (hf : s.fault = none) : AttemptTo s o (s.attempt d o).2 := by
  unfold State.attempt
  cases hm : s.mode with
  | interrupt =>
    by_cases hd : s.depth = 255#8
    · simp only [s.attemptInterrupt_max o hd]
      exact .overflow hm hd
    · simp only [s.attemptInterrupt_eq o hf hd]
      exact .pops hm hd
  | polling =>
    obtain ⟨ha, he⟩ | ⟨ha, -, he⟩ | ⟨b, rest, ha, hl, -, he⟩ | ⟨_, _, ha, -, -, he⟩ :=
      s.blockingReceive_cases d o <;> simp only [he]
    · exact .doubleArm hm ha
    · exact .getsNothing s.drawn hm ha
    · exact .takes b rest hm ha hl
    · exact .getsNothing _ hm ha

/-- What a running command's micro-step does to the block, its move of the sequencer apart. -/
inductive EffectTo (s : State) : State → Prop
  | sends (p : List Byte) (o : Origin) (u : State) (hs : s.sending = some p) (h : SendTo s o p u) :
      EffectTo s u
  | toggles (t : TogglePos) (u : State) (ht : s.seq.togglePos = some t) (h : ToggleTo s t u) : EffectTo s u
  | hook : EffectTo s s.drew
  | attempts (o : Origin) (u : State) (ha : s.seq.attempting = true) (h : AttemptTo s o u) : EffectTo s u
  | delivers (b : Byte) (h : s.seq = .recvByte (.deliver b)) : EffectTo s { s with resByte := b }
  | finishes (cap : Byte) (w : List Byte) (h : s.seq = .receive cap w .finish) :
      EffectTo s (s.writeResults w)
  | acquires (h : s.seq = .acquire) (hd : s.depth ≠ 255#8) :
      EffectTo s { s with depth := s.depth + 1#8 }
  | acquireOverflow (h : s.seq = .acquire) (hd : s.depth = 255#8) :
      EffectTo s (s.raise (.guardOverflow .acquire))
  | releases (h : s.seq = .release) (hd : s.depth ≠ 0#8) :
      EffectTo s { s with depth := s.depth - 1#8 }
  | releaseUnderflow (h : s.seq = .release) (hd : s.depth = 0#8) :
      EffectTo s (s.raise (.guardUnderflow .release))

/-- What each effect of a micro-step establishes, the micro-step establishes too, unless it is about the
sequencer. -/
theorem MicroTo.of_effects {d : Draws} {s s' : State} {P : State → Prop} (h : MicroTo d s s')
    (hf : s.fault = none) (hgoto : ∀ u q, P u → P (u.goto q)) (heff : ∀ u, EffectTo s u → P u) : P s' := by
  have hthen (u : State) (q : Seq) (hu : EffectTo s u) : P (u.thenDo fun t => t.goto q) :=
    u.thenDo_keeps P _ (fun t => hgoto t q) (heff u hu)
  cases h with
  | sends p o q hs => exact hthen _ q (.sends p o _ hs (s.sendNow_cases d o p hf))
  | toggles t q ht hs => exact hthen _ q (.toggles t _ ht (s.toggleEffect_cases d t hf ht hs))
  | hook q => exact hthen _ q .hook
  | attempts o q ha => exact hthen _ q (.attempts o _ ha (s.attempt_cases d o hf))
  | delivers b hb => exact hgoto _ .idle (heff _ (.delivers b hb))
  | finishes cap w hw => exact hgoto _ .idle (heff _ (.finishes cap w hw))
  | acquires ha =>
    refine hthen _ .idle ?_
    obtain ⟨hd, he⟩ | ⟨hd, he⟩ := s.acquire_cases .acquire <;> rw [he]
    · exact .acquireOverflow ha hd
    · exact .acquires ha hd
  | releases hr =>
    refine hthen _ .idle ?_
    obtain ⟨hd, he⟩ | ⟨hd, he⟩ := s.release_cases .release <;> rw [he]
    · exact .releaseUnderflow hr hd
    · exact .releases hr hd

end Sys2Proof.Machine
end

section
/-! Who writes each field (rule R39). -/

namespace Sys2Proof.Machine

variable {s s' : State} {d : Draws} {o : Origin} {p : List Byte} {m : Move}

/-- The table of writers (rule R39) for one move `m` from `s` to `s'`. A field that the move does not write
needs no argument: its condition is met by default. -/
structure FieldWrites (m : Move) (s s' : State) : Prop where
  mode : s'.mode ≠ s.mode → m = .foreground ∧ s.seq.togglePos = some .flip := by exact absurd rfl
  txInFlight : s'.txInFlight ≠ s.txInFlight → m = .irq ∨ (m = .foreground ∧
    ((s.mode = .interrupt ∧ s.sending.isSome = true) ∨
      s.seq.togglePos = some .clearInFlight)) := by exact absurd rfl
  depth : s'.depth ≠ s.depth → m = .irq ∨ (m = .foreground ∧
    (s.seq = .acquire ∨ s.seq = .release ∨
      (s.mode = .interrupt ∧ s.sending.isSome = true))) := by exact absurd rfl
  lineEn : s'.lineEn ≠ s.lineEn → m = .foreground ∧
    (s.seq.togglePos = some .enableLine ∨ s.seq.togglePos = some .disableLine) := by exact absurd rfl
  rxPend : s'.rxPend ≠ s.rxPend → (s'.rxPend = true ∧ m = .rxComplete) ∨
    (s'.rxPend = false ∧ m = .irq) := by exact absurd rfl
  txPend : s'.txPend ≠ s.txPend → (s'.txPend = true ∧ m = .txComplete) ∨
    (s'.txPend = false ∧ m = .irq) := by exact absurd rfl
  rxStored : (s'.rx.buf ≠ s.rx.buf ∨ s'.rx.tail ≠ s.rx.tail) → m = .irq ∨
    (m = .foreground ∧ s.seq.togglePos = some .prime) := by exact (·.elim (absurd rfl) (absurd rfl))
  rxHead : s'.rx.head ≠ s.rx.head → m = .foreground ∧
    ((s.mode = .interrupt ∧ s.seq.attempting = true) ∨
      s.seq.togglePos = some .drain) := by exact absurd rfl
  txStored : (s'.tx.buf ≠ s.tx.buf ∨ s'.tx.tail ≠ s.tx.tail) → m = .foreground ∧
    s.mode = .interrupt ∧ s.sending.isSome = true := by exact (·.elim (absurd rfl) (absurd rfl))
  txHead : s'.tx.head ≠ s.tx.head → m = .irq ∨ (m = .foreground ∧
    ((s.mode = .interrupt ∧ s.sending.isSome = true) ∨
      s.seq.togglePos = some .drain)) := by exact absurd rfl
  rxStage : s'.rxStage ≠ s.rxStage → m = .rxComplete := by exact absurd rfl
  txStage : s'.txStage ≠ s.txStage → m = .irq ∨
    (m = .foreground ∧ s.mode = .interrupt ∧ s.sending.isSome = true) := by exact absurd rfl
  perRxArmed : s'.perRxArmed ≠ s.perRxArmed →
    (s'.perRxArmed = true ∧ (m = .irq ∨ (m = .foreground ∧ s.seq.togglePos = some .prime))) ∨
    (s'.perRxArmed = false ∧ (m = .rxComplete ∨
      (m = .foreground ∧ s.seq.togglePos = some .abortRx))) := by exact absurd rfl
  perTxBusy : s'.perTxBusy ≠ s.perTxBusy →
    (s'.perTxBusy = true ∧ (m = .irq ∨
      (m = .foreground ∧ s.mode = .interrupt ∧ s.sending.isSome = true))) ∨
    (s'.perTxBusy = false ∧ m = .txComplete) := by exact absurd rfl
  fault : s'.fault ≠ s.fault → m = .irq ∨ m = .foreground := by exact absurd rfl
  lineOut : s'.lineOut ≠ s.lineOut → m = .txComplete ∨
    (m = .foreground ∧ s.mode = .polling ∧ s.sending.isSome = true) := by exact absurd rfl
  lineIn : s'.lineIn ≠ s.lineIn → m = .rxComplete ∨ m = .lineLoss ∨
    (m = .foreground ∧ s.mode = .polling ∧ s.seq.attempting = true) := by exact absurd rfl
  resByte : s'.resByte ≠ s.resByte →
    m = .foreground ∧ ∃ b, s.seq = .recvByte (.deliver b) := by exact absurd rfl
  results : (s'.resLen ≠ s.resLen ∨ s'.resBuf ≠ s.resBuf) → m = .foreground ∧
    ∃ cap filled, s.seq = .receive cap filled .finish := by exact (·.elim (absurd rfl) (absurd rfl))
  seq : s'.seq ≠ s.seq → m = .foreground := by exact absurd rfl
  port : s'.port ≠ s.port → m = .foreground ∧ s.seq = .idle := by exact absurd rfl
  params : s'.params = s.params := by exact rfl

/-- The table does not read the count of free values. -/
theorem FieldWrites.of_drew (h : FieldWrites m s.drew s') : FieldWrites m s s' := { h with }

/-- Delivering a byte into the ring pops nothing. -/
@[simp] theorem Ring.deliver_head (q : Ring) (b : Byte) : (q.deliver b).head = q.head := by
  unfold Ring.deliver
  split
  · rfl
  · exact q.push_head b

/-- A pop changes nothing but `head`. -/
theorem Ring.pop_stored {q r : Ring} {nul : Bool} {a : Option Byte} (h : q.pop nul = (a, r)) :
    ¬(r.buf ≠ q.buf ∨ r.tail ≠ q.tail) := by
  obtain rfl : (q.pop nul).2 = r := by rw [h]
  simp

theorem IrqTo.fieldWrites (h : IrqTo s s') : FieldWrites .irq s s' := by
  cases h with
  | rxcArms =>
    exact {
      rxPend := fun _ => .inr ⟨rfl, rfl⟩
      rxStored := fun _ => .inl rfl
      rxHead := absurd (Ring.deliver_head _ _)
      perRxArmed := fun _ => .inl ⟨rfl, .inl rfl⟩ }
  | rxcDoubleArm =>
    exact {
      rxPend := fun _ => .inr ⟨rfl, rfl⟩
      rxStored := fun _ => .inl rfl
      rxHead := absurd (Ring.deliver_head _ _)
      fault := fun _ => .inl rfl }
  | txcArms b q _ _ _ hq =>
    exact {
      txPend := fun _ => .inr ⟨rfl, rfl⟩
      txStored := fun h => absurd h (Ring.pop_stored hq)
      txHead := fun _ => .inl rfl
      txStage := fun _ => .inl rfl
      perTxBusy := fun _ => .inl ⟨rfl, .inl rfl⟩ }
  | txcOverlap b q _ _ _ hq =>
    exact {
      txPend := fun _ => .inr ⟨rfl, rfl⟩
      depth := fun _ => .inl rfl
      txStored := fun h => absurd h (Ring.pop_stored hq)
      txHead := fun _ => .inl rfl
      txStage := fun _ => .inl rfl
      fault := fun _ => .inl rfl }
  | txcEnds q _ _ hq =>
    exact {
      txPend := fun _ => .inr ⟨rfl, rfl⟩
      txInFlight := fun _ => .inl rfl
      txStored := fun h => absurd h (Ring.pop_stored hq)
      txHead := fun _ => .inl rfl }

theorem SendTo.fieldWrites (h : SendTo s o p s') (hs : s.sending = some p) :
    FieldWrites .foreground s s' := by
  have hp : s.sending.isSome = true := by rw [hs]; rfl
  cases h with
  | silent => exact {}
  | transmits b rest k hm => exact { lineOut := fun _ => .inr ⟨rfl, hm, hp⟩ }
  | overlap => exact { fault := fun _ => .inr rfl }
  | queues _ hm =>
    exact {
      txStored := fun _ => ⟨rfl, hm, hp⟩
      txHead := fun _ => .inr ⟨rfl, .inl ⟨hm, hp⟩⟩ }
  | kicks _ b q hm =>
    exact {
      txInFlight := fun _ => .inr ⟨rfl, .inl ⟨hm, hp⟩⟩
      txStored := fun _ => ⟨rfl, hm, hp⟩
      txHead := fun _ => .inr ⟨rfl, .inl ⟨hm, hp⟩⟩
      txStage := fun _ => .inr ⟨rfl, hm, hp⟩
      perTxBusy := fun _ => .inl ⟨rfl, .inr ⟨rfl, hm, hp⟩⟩ }
  | kicksNothing _ q hm =>
    exact {
      txInFlight := fun _ => .inr ⟨rfl, .inl ⟨hm, hp⟩⟩
      txStored := fun _ => ⟨rfl, hm, hp⟩
      txHead := fun _ => .inr ⟨rfl, .inl ⟨hm, hp⟩⟩ }
  | overflow => exact { fault := fun _ => .inr rfl }
  | kickOverflow _ hm =>
    exact {
      txInFlight := fun _ => .inr ⟨rfl, .inl ⟨hm, hp⟩⟩
      depth := fun _ => .inr ⟨rfl, .inr (.inr ⟨hm, hp⟩)⟩
      txStored := fun _ => ⟨rfl, hm, hp⟩
      txHead := fun _ => .inr ⟨rfl, .inl ⟨hm, hp⟩⟩
      fault := fun _ => .inr rfl }
  | kickOverlap _ b q hm =>
    exact {
      txInFlight := fun _ => .inr ⟨rfl, .inl ⟨hm, hp⟩⟩
      depth := fun _ => .inr ⟨rfl, .inr (.inr ⟨hm, hp⟩)⟩
      txStored := fun _ => ⟨rfl, hm, hp⟩
      txHead := fun _ => .inr ⟨rfl, .inl ⟨hm, hp⟩⟩
      txStage := fun _ => .inr ⟨rfl, hm, hp⟩
      fault := fun _ => .inr rfl }

theorem ToggleTo.fieldWrites {t : TogglePos} (h : ToggleTo s t s') (ht : s.seq.togglePos = some t) :
    FieldWrites .foreground s s' := by
  cases h with
  | flip => exact { mode := fun _ => ⟨rfl, ht⟩ }
  | enableLine => exact { lineEn := fun _ => ⟨rfl, .inl ht⟩ }
  | primeOverflow => exact { fault := fun _ => .inr rfl }
  | primeDoubleArm =>
    exact {
      rxStored := fun _ => .inr ⟨rfl, ht⟩
      rxHead := absurd (Ring.deliver_head _ _)
      fault := fun _ => .inr rfl }
  | primeArms =>
    exact {
      rxStored := fun _ => .inr ⟨rfl, ht⟩
      rxHead := absurd (Ring.deliver_head _ _)
      perRxArmed := fun _ => .inl ⟨rfl, .inr ⟨rfl, ht⟩⟩ }
  | abortRx => exact { perRxArmed := fun _ => .inr ⟨rfl, .inr ⟨rfl, ht⟩⟩ }
  | disableLine => exact { lineEn := fun _ => ⟨rfl, .inr ht⟩ }
  | clearInFlight => exact { txInFlight := fun _ => .inr ⟨rfl, .inr ht⟩ }
  | drainOverflow => exact { fault := fun _ => .inr rfl }
  | drains =>
    exact {
      rxHead := fun _ => ⟨rfl, .inr ht⟩
      txHead := fun _ => .inr ⟨rfl, .inr ht⟩ }

theorem AttemptTo.fieldWrites (h : AttemptTo s o s') (ha : s.seq.attempting = true) :
    FieldWrites .foreground s s' := by
  cases h with
  | overflow => exact { fault := fun _ => .inr rfl }
  | pops hm =>
    exact {
      rxStored := fun h => absurd h (Ring.pop_stored rfl)
      rxHead := fun _ => ⟨rfl, .inl ⟨hm, ha⟩⟩ }
  | doubleArm => exact { fault := fun _ => .inr rfl }
  | getsNothing => exact {}
  | takes b rest hm => exact { lineIn := fun _ => .inr (.inr ⟨rfl, hm, ha⟩) }

theorem EffectTo.fieldWrites (h : EffectTo s s') : FieldWrites .foreground s s' := by
  cases h with
  | sends p o _ hs h => exact h.fieldWrites hs
  | toggles t _ ht h => exact h.fieldWrites ht
  | hook => exact {}
  | attempts o _ ha h => exact h.fieldWrites ha
  | delivers b hb => exact { resByte := fun _ => ⟨rfl, b, hb⟩ }
  | finishes cap w hw => exact { results := fun _ => ⟨rfl, cap, w, hw⟩ }
  | acquires ha => exact { depth := fun _ => .inr ⟨rfl, .inl ha⟩ }
  | releases hr => exact { depth := fun _ => .inr ⟨rfl, .inr (.inl hr)⟩ }
  | acquireOverflow | releaseUnderflow => exact { fault := fun _ => .inr rfl }

theorem MoveTo.fieldWrites (h : MoveTo d s m s') (hf : s.fault = none) : FieldWrites m s s' := by
  cases h with
  | irq h => exact (s.irqStep_cases h).fieldWrites
  | micro _ hs =>
    exact (s.micro_cases d hs).of_effects hf (fun _ _ h => { h with seq := fun _ => rfl })
      fun _ => EffectTo.fieldWrites
  | intake i rest _ hs => exact { seq := fun _ => rfl, port := fun _ => ⟨rfl, hs⟩ }
  | illegal hd rest _ hs => exact { fault := fun _ => .inr rfl, port := fun _ => ⟨rfl, hs⟩ }
  | rxComplete b rest =>
    exact {
      rxPend := fun _ => .inl ⟨rfl, rfl⟩
      rxStage := fun _ => rfl
      perRxArmed := fun _ => .inr ⟨rfl, .inl rfl⟩
      lineIn := fun _ => .inl rfl }
  | txComplete =>
    exact {
      txPend := fun _ => .inl ⟨rfl, rfl⟩
      perTxBusy := fun _ => .inr ⟨rfl, rfl⟩
      lineOut := fun _ => .inl rfl }
  | lineLoss b rest => exact { lineIn := fun _ => .inr (.inl rfl) }
  | wait => exact {}

/-- Settles O48: each move a step can make keeps the table of writers. -/
theorem fieldWriters : Obligations.FieldWriters := by
  intro env s s' h
  obtain ⟨hf, ⟨-, rfl⟩ | ⟨m, s1, hm, hs1, hmove⟩⟩ := stepUnder_cases env s s' h
  · simp
  have hw : FieldWrites m s s' := by
    obtain rfl | rfl := hs1
    · exact hmove.fieldWrites hf
    · exact (hmove.fieldWrites (s := s.drew) hf).of_drew
  have hmakes (k : Move) : s.makes env k ↔ m = k := by simp [State.makes, hm]
  simp only [hmakes]
  exact ⟨hw.mode, hw.txInFlight, hw.depth, hw.lineEn, hw.rxPend, hw.txPend, hw.rxStored, hw.rxHead,
    hw.txStored, hw.txHead, hw.rxStage, hw.txStage, hw.perRxArmed, hw.perTxBusy, hw.fault, hw.lineOut,
    hw.lineIn, hw.resByte, hw.results, hw.seq, hw.port, hw.params⟩

end Sys2Proof.Machine
end

section
/-! The mode laws (rules R41(a) and R41(c)). -/

namespace Sys2Proof.Machine

variable {s s' : State} {d : Draws} {o : Origin} {p : List Byte} {m : Move}

/-- The mode laws at a TOGGLE's rest, and before its flip. -/
def State.PollingAtRest (s : State) : Prop := s.mode = .polling → s.quietLine ∧ s.ringsEmpty

theorem State.modeLaws_iff_of_rest (h : s.seq.togglePos = none ∨ s.seq.togglePos = some .flip) :
    s.ModeLaws ↔ s.PollingAtRest := by
  obtain h | h := h <;> simp only [State.ModeLaws, h, State.PollingAtRest]

/-- Where the line is enabled or a reception armed, the mode laws say nothing that an agent beside FG can
change, but for the position between the abort and the line disable. -/
theorem State.ModeLaws.of_not_quiet (hl : s.ModeLaws) (hq : ¬s.quietLine) (hmode : s'.mode = s.mode)
    (hseq : s'.seq = s.seq)
    (hdisable : s.perRxArmed = false → (s.rxPend = true → s.lineEn = true → s.depth ≠ 0#8) →
      s'.perRxArmed = false ∧ (s'.rxPend = true → s'.lineEn = true → s'.depth ≠ 0#8)) :
    s'.ModeLaws := by
  simp only [State.ModeLaws, hseq, hmode] at hl ⊢
  generalize s.seq.togglePos = pos at hl ⊢
  rcases pos with _ | _ | _ | _ | _ | _ | _ | _ | _ | _
  case none | some.flip => exact fun hm => absurd (hl hm).1 hq
  case some.enableLine => exact absurd hl.2.1 hq
  case some.prime | some.onLine | some.abortRx => exact hl
  case some.disableLine => exact ⟨hl.1, hdisable hl.2.1 hl.2.2⟩
  case some.clearInFlight | some.drain => exact absurd hl.2 hq
  case some.offLine => exact absurd hl.2.1 hq

/-- The handlers write neither the mode nor the sequencer, and with no RXC pending the reception stays as
it is. -/
theorem IrqTo.frame (h : IrqTo s s') :
    s'.mode = s.mode ∧ s'.seq = s.seq ∧
      (s.rxPend = false → s'.perRxArmed = s.perRxArmed ∧ s'.rxPend = s.rxPend) := by
  cases h with
  | rxcArms hp | rxcDoubleArm hp => exact ⟨rfl, rfl, fun hr => by simp [hp] at hr⟩
  | txcArms | txcOverlap | txcEnds => exact ⟨rfl, rfl, fun _ => ⟨rfl, rfl⟩⟩

theorem State.irqStep_keeps_modeLaws (h : s.anyDeliverable = true) (hl : s.ModeLaws) :
    s.irqStep.ModeLaws := by
  obtain ⟨hen, hd, -⟩ := s.anyDeliverable_free h
  obtain ⟨hmode, hseq, hframe⟩ := (s.irqStep_cases h).frame
  refine hl.of_not_quiet (fun hq => by simp [hq.1] at hen) hmode hseq fun ha hpend => ?_
  have hr : s.rxPend = false := by simpa [hen, hd] using hpend
  obtain ⟨ha', hr'⟩ := hframe hr
  exact ⟨ha'.trans ha, fun hp => by simp [hr', hr] at hp⟩

/-- In polling mode a SEND writes neither the line's state nor the rings; no SEND writes the mode or the
sequencer. -/
theorem SendTo.frame (h : SendTo s o p s') :
    s'.mode = s.mode ∧ s'.seq = s.seq ∧
      (s.mode = .polling → s.quietLine ∧ s.ringsEmpty → s'.quietLine ∧ s'.ringsEmpty) := by
  cases h with
  | silent | transmits | overlap => exact ⟨rfl, rfl, fun _ h => h⟩
  | queues _ hm | kicks _ _ _ hm | kicksNothing _ _ hm | overflow _ hm | kickOverflow _ hm
  | kickOverlap _ _ _ hm => exact ⟨rfl, rfl, fun hp => by simp [hm] at hp⟩

/-- A SEND is made outside a TOGGLE, or at its ON line or OFF line. -/
theorem State.togglePos_of_sending (h : s.sending = some p) :
    s.seq.togglePos = none ∨ (∃ stage, s.seq.togglePos = some (.onLine stage)) ∨
      ∃ stage, s.seq.togglePos = some (.offLine stage) := by
  cases ht : s.seq.togglePos with
  | none => exact .inl rfl
  | some t =>
    cases t with
    | onLine stage => exact .inr (.inl ⟨stage, rfl⟩)
    | offLine stage => exact .inr (.inr ⟨stage, rfl⟩)
    | _ => simp [State.sending, ht] at h

theorem SendTo.keeps_modeLaws (h : SendTo s o p s') (hs : s.sending = some p) (hl : s.ModeLaws) :
    s'.ModeLaws := by
  obtain ⟨hmode, hseq, hrest⟩ := h.frame
  simp only [State.ModeLaws, hseq, hmode] at hl ⊢
  obtain ht | ⟨stage, ht⟩ | ⟨stage, ht⟩ := State.togglePos_of_sending hs <;> simp only [ht] at hl ⊢
  · exact fun hm => hrest hm (hl hm)
  · exact hl
  · exact ⟨hl.1, hrest hl.1 hl.2⟩

/-- The position after a SEND asks no more of the mode laws than the SEND's own. -/
theorem State.ModeLaws.goto_after_send {q : Seq} (hl : s.ModeLaws)
    (hpos : s.seq.togglePos = none ∨ (∃ stage, s.seq.togglePos = some (.onLine stage)) ∨
      ∃ stage, s.seq.togglePos = some (.offLine stage))
    (hq : q.togglePos = s.seq.togglePos.bind fun t => t.next s) : (s.goto q).ModeLaws := by
  simp only [State.ModeLaws, State.goto_seq, hq] at hl ⊢
  obtain ht | ⟨_ | _, ht⟩ | ⟨_ | _, ht⟩ := hpos <;>
    simp only [ht, Option.bind, TogglePos.next] at hl ⊢
  · exact hl
  · exact hl
  · exact fun hm => by simp [hl] at hm
  · exact hl
  · exact fun _ => hl.2

/-- Where FG has the move, a pending RXC is held back by the line's disable or by the guard. -/
theorem State.rxPend_held (hf : s.fault = none) (h : s.anyDeliverable = false) :
    s.rxPend = true → s.lineEn = true → s.depth ≠ 0#8 := by
  intro hp hen hd
  have hdel : s.deliverable .rxc = true := (s.deliverable_iff .rxc).2 ⟨hp, hen, hd, hf⟩
  simp [State.anyDeliverable, hdel] at h

/-- A micro-step of a TOGGLE that faults keeps the mode law of its position. -/
theorem ToggleTo.modeLaws_of_fault {t : TogglePos} (h : ToggleTo s t s') (ht : s.seq.togglePos = some t)
    (hl : s.ModeLaws) (hf : s.fault = none) (hf' : ∃ f, s'.fault = some f) : s'.ModeLaws := by
  cases h with
  | primeOverflow | drainOverflow => exact hl
  | primeDoubleArm => simpa only [State.ModeLaws, ht] using hl
  | flip | enableLine | primeArms | abortRx | disableLine | clearInFlight | drains =>
    simp [hf] at hf'

/-- Each micro-step of a TOGGLE leads from its own position's mode law to the next one's. -/
theorem ToggleTo.modeLaws_next {t : TogglePos} {q : Seq} (h : ToggleTo s t s')
    (ht : s.seq.togglePos = some t) (hf : s.fault = none) (hdel : s.anyDeliverable = false)
    (hl : s.ModeLaws) (hf' : s'.fault = none) (hq : q.togglePos = t.next s') : (s'.goto q).ModeLaws := by
  cases h <;> simp only [State.ModeLaws, State.goto_seq, ht, hq, TogglePos.next] at hl ⊢
  case flip =>
    cases hm : s.mode with
    | polling => exact ⟨rfl, hl hm⟩
    | interrupt => rfl
  case enableLine => exact hl.1
  case primeArms => exact hl
  case abortRx => exact ⟨hl, rfl, State.rxPend_held hf hdel⟩
  case disableLine => exact ⟨hl.1, rfl, hl.2.1⟩
  case clearInFlight => exact hl
  case drains => exact ⟨hl.1, hl.2, Ring.drain_isEmpty _, Ring.drain_isEmpty _⟩
  case primeOverflow | primeDoubleArm | drainOverflow => cases hf'

/-- A micro-step outside a TOGGLE's body stays outside it, or comes to its flip. -/
theorem State.PollingAtRest.thenGoto {q : Seq} (h : s.PollingAtRest) (hs : s.seq.togglePos = none)
    (hq : q.togglePos = none ∨ q.togglePos = some .flip) :
    (s.thenDo fun t => t.goto q).ModeLaws := by
  obtain ⟨-, he⟩ | ⟨-, he⟩ := s.thenDo_cases fun t => t.goto q <;> rw [he]
  · exact (State.modeLaws_iff_of_rest (.inl hs)).2 h
  · exact (State.modeLaws_iff_of_rest hq).2 h

theorem AttemptTo.keeps_pollingAtRest (h : AttemptTo s o s') (hr : s.PollingAtRest) :
    s'.PollingAtRest := by
  cases h with
  | overflow | doubleArm | getsNothing | takes => exact hr
  | pops hm => exact fun hp => by simp [hm] at hp

theorem MicroTo.keeps_modeLaws (h : MicroTo d s s') (hf : s.fault = none)
    (hdel : s.anyDeliverable = false) (hl : s.ModeLaws) : s'.ModeLaws := by
  have hrest (hs : s.seq.togglePos = none) : s.PollingAtRest := (State.modeLaws_iff_of_rest (.inl hs)).1 hl
  cases h with
  | sends p o q hs hq =>
    have hl' := (s.sendNow_cases d o p hf).keeps_modeLaws hs hl
    obtain ⟨-, he⟩ | ⟨-, he⟩ := (s.sendNow d o p).thenDo_cases fun t => t.goto q <;> rw [he]
    · exact hl'
    · refine hl'.goto_after_send ?_ ?_ <;> rw [State.sendNow_seq]
      · exact State.togglePos_of_sending hs
      · exact hq
  | toggles t q ht hs hq =>
    have hto := s.toggleEffect_cases d t hf ht hs
    obtain ⟨hf', he⟩ | ⟨hf', he⟩ := (s.toggleEffect d t).thenDo_cases fun u => u.goto q <;> rw [he]
    · exact hto.modeLaws_of_fault ht hl hf hf'
    · exact hto.modeLaws_next ht hf hdel hl hf' hq
  | hook q _ ht _ hq => exact State.PollingAtRest.thenGoto (s := s.drew) (hrest ht) ht hq
  | attempts o q _ ht _ hq =>
    exact ((s.attempt_cases d o hf).keeps_pollingAtRest (hrest ht)).thenGoto
      (by rw [State.attempt_seq, ht]) (.inl hq)
  | delivers b hb => exact (State.modeLaws_iff_of_rest (.inl rfl)).2 (hrest (by rw [hb]; rfl))
  | finishes cap w hw => exact (State.modeLaws_iff_of_rest (.inl rfl)).2 (hrest (by rw [hw]; rfl))
  | acquires ha =>
    have hs : s.seq.togglePos = none := by rw [ha]; rfl
    obtain ⟨dep, fl, he⟩ := s.acquire_shape .acquire
    rw [he]
    exact State.PollingAtRest.thenGoto (s := { s with depth := dep, fault := fl }) (hrest hs) hs (.inl rfl)
  | releases hr =>
    have hs : s.seq.togglePos = none := by rw [hr]; rfl
    obtain ⟨dep, fl, he⟩ := s.release_shape .release
    rw [he]
    exact State.PollingAtRest.thenGoto (s := { s with depth := dep, fault := fl }) (hrest hs) hs (.inl rfl)

theorem MoveTo.keeps_modeLaws (h : MoveTo d s m s') (hf : s.fault = none) (hl : s.ModeLaws) :
    s'.ModeLaws := by
  cases h with
  | irq h => exact s.irqStep_keeps_modeLaws h hl
  | micro hdel hs => exact (s.micro_cases d hs).keeps_modeLaws hf hdel hl
  | intake i rest _ hs =>
    have hrest : s.PollingAtRest := (State.modeLaws_iff_of_rest (.inl (by rw [hs]; rfl))).1 hl
    exact (State.modeLaws_iff_of_rest (Seq.start_togglePos s.mode i)).2 hrest
  | rxComplete b rest ha =>
    exact hl.of_not_quiet (fun hq => by simp [hq.2] at ha) rfl rfl fun hn => by simp [hn] at ha
  | illegal | txComplete | lineLoss | wait => exact hl

/-- Settles O54: the mode laws at a TOGGLE's positions lead from its flip to the rest after it. -/
theorem stepKeepsModeLaws : Obligations.StepKeepsModeLaws := by
  intro env s s' hl h
  obtain ⟨env', h⟩ := stepUnder_of_step env s s' h
  exact stepUnder_keeps State.ModeLaws (fun _ h => h) (fun _ _ _ _ hf hl hm => hm.keeps_modeLaws hf hl)
    env' s s' hl h

end Sys2Proof.Machine
end

section
/-! The line's two streams (rule R35). -/

namespace Sys2Proof.Machine

variable {s s' : State} {d : Draws} {o : Origin} {p : List Byte} {m : Move}

/-- The line output has grown at its end, and at most the front byte of the line input is gone. -/
structure StreamsOn (s s' : State) : Prop where
  lineOut : ∃ out, s'.lineOut = s.lineOut ++ out
  lineIn : s'.lineIn = s.lineIn ∨ ∃ b, s.lineIn = b :: s'.lineIn

theorem StreamsOn.of_eq (ho : s'.lineOut = s.lineOut) (hi : s'.lineIn = s.lineIn) : StreamsOn s s' :=
  ⟨⟨[], by simp [ho]⟩, .inl hi⟩

theorem SendTo.streamsOn (h : SendTo s o p s') : StreamsOn s s' := by
  cases h with
  | transmits => exact ⟨⟨_, rfl⟩, .inl rfl⟩
  | silent | overlap | queues | kicks | kicksNothing | overflow | kickOverflow | kickOverlap =>
    exact .of_eq rfl rfl

theorem ToggleTo.streamsOn {t : TogglePos} (h : ToggleTo s t s') : StreamsOn s s' := by
  cases h <;> exact .of_eq rfl rfl

theorem AttemptTo.streamsOn (h : AttemptTo s o s') : StreamsOn s s' := by
  cases h with
  | takes b rest _ _ hl => exact ⟨⟨[], by simp⟩, .inr ⟨b, hl⟩⟩
  | overflow | pops | doubleArm | getsNothing => exact .of_eq rfl rfl

theorem EffectTo.streamsOn (h : EffectTo s s') : StreamsOn s s' := by
  cases h with
  | sends _ _ _ _ h => exact h.streamsOn
  | toggles _ _ _ h => exact h.streamsOn
  | attempts _ _ _ h => exact h.streamsOn
  | hook | delivers | finishes | acquires | acquireOverflow | releases | releaseUnderflow =>
    exact .of_eq rfl rfl

theorem IrqTo.streamsOn (h : IrqTo s s') : StreamsOn s s' := by
  cases h <;> exact .of_eq rfl rfl

theorem MoveTo.streamsOn (h : MoveTo d s m s') (hf : s.fault = none) : StreamsOn s s' := by
  cases h with
  | irq h => exact (s.irqStep_cases h).streamsOn
  | micro _ hs =>
    exact (s.micro_cases d hs).of_effects hf (fun _ _ h => ⟨h.lineOut, h.lineIn⟩)
      fun _ => EffectTo.streamsOn
  | intake | illegal | wait => exact .of_eq rfl rfl
  | rxComplete b rest _ hl => exact ⟨⟨[], by simp⟩, .inr ⟨b, hl⟩⟩
  | txComplete => exact ⟨⟨_, rfl⟩, .inl rfl⟩
  | lineLoss b rest _ hl => exact ⟨⟨[], by simp⟩, .inr ⟨b, hl⟩⟩

/-- Settles O49: each move a step can make keeps to the front of the input and the end of the output. -/
theorem lineStreams : Obligations.LineStreams := by
  intro env s s' h
  obtain ⟨env', h⟩ := stepUnder_of_step env s s' h
  obtain ⟨hf, ⟨-, rfl⟩ | ⟨m, s1, -, rfl | rfl, hmove⟩⟩ := stepUnder_cases env' s s' h
  · exact ⟨⟨[], by simp⟩, .inl rfl⟩
  · exact ⟨(hmove.streamsOn hf).lineOut, (hmove.streamsOn hf).lineIn⟩
  · have hon := hmove.streamsOn (s := s.drew) hf
    exact ⟨hon.lineOut, hon.lineIn⟩

end Sys2Proof.Machine
end

section
/-! The RX ring holds no 0x00 (rule R41(b)). -/

namespace Sys2Proof.Machine

variable {s s' : State} {d : Draws} {o : Origin} {p : List Byte} {m : Move}

/-- A pop brings no new byte into a ring. -/
theorem Ring.pop_no_nul (q : Ring) (nul : Bool) (h : 0#8 ∉ q.contents) :
    0#8 ∉ (q.pop nul).2.contents := by
  rw [Ring.pop_contents_snd]
  exact fun hc => h (List.mem_of_mem_tail hc)

theorem IrqTo.keeps_rxRingNoNul (h : IrqTo s s') (hn : s.RxRingNoNul) : s'.RxRingNoNul := by
  cases h with
  | rxcArms | rxcDoubleArm => exact Ring.deliver_no_nul _ _ hn
  | txcArms | txcOverlap | txcEnds => exact hn

theorem ToggleTo.keeps_rxRingNoNul {t : TogglePos} (h : ToggleTo s t s') (hn : s.RxRingNoNul) :
    s'.RxRingNoNul := by
  cases h with
  | primeDoubleArm | primeArms => exact Ring.deliver_no_nul _ _ hn
  | drains => simp [State.RxRingNoNul]
  | flip | enableLine | primeOverflow | abortRx | disableLine | clearInFlight | drainOverflow => exact hn

theorem AttemptTo.keeps_rxRingNoNul (h : AttemptTo s o s') (hn : s.RxRingNoNul) : s'.RxRingNoNul := by
  cases h with
  | pops => exact Ring.pop_no_nul _ _ hn
  | overflow | doubleArm | getsNothing | takes => exact hn

theorem EffectTo.keeps_rxRingNoNul (h : EffectTo s s') (hn : s.RxRingNoNul) : s'.RxRingNoNul := by
  cases h with
  | sends _ _ _ _ h => cases h <;> exact hn
  | toggles _ _ _ h => exact h.keeps_rxRingNoNul hn
  | attempts _ _ _ h => exact h.keeps_rxRingNoNul hn
  | hook | delivers | finishes | acquires | acquireOverflow | releases | releaseUnderflow => exact hn

theorem MoveTo.keeps_rxRingNoNul (h : MoveTo d s m s') (hf : s.fault = none) (hn : s.RxRingNoNul) :
    s'.RxRingNoNul := by
  cases h with
  | irq h => exact (s.irqStep_cases h).keeps_rxRingNoNul hn
  | micro _ hs =>
    exact (s.micro_cases d hs).of_effects hf (fun _ _ h => h) fun _ h => h.keeps_rxRingNoNul hn
  | intake | illegal | rxComplete | txComplete | lineLoss | wait => exact hn

/-- Settles O55: only a delivery adds to the RX ring, and it never adds 0x00. -/
theorem stepKeepsRxRingNoNul : Obligations.StepKeepsRxRingNoNul := by
  intro env s s' hn h
  obtain ⟨env', h⟩ := stepUnder_of_step env s s' h
  exact stepUnder_keeps State.RxRingNoNul (fun _ h => h)
    (fun _ _ _ _ hf hn hm => hm.keeps_rxRingNoNul hf hn) env' s s' hn h

end Sys2Proof.Machine
end

section
/-! The transmit invariant TI (rule R41(d)), and TX_OVERLAP under it (rule R245). -/

namespace Sys2Proof.Machine

variable {s s' : State} {d : Draws} {o o' : Origin} {p : List Byte} {m : Move} {b : Byte}

/-- A byte whose TXC is pending is outstanding no more. -/
theorem State.TI.not_busy_of_pend (h : s.TI) (hp : s.txPend = true) : ¬s.perTxBusy = true :=
  fun hb => h.2 ⟨hb, hp⟩

/-- With no burst in flight nothing is outstanding and no TXC is pending. -/
theorem State.TI.idle (h : s.TI) (hi : s.txInFlight = false) :
    ¬(s.perTxBusy = true ∨ s.txPend = true) :=
  fun hc => by simpa [hi] using h.1 hc

theorem IrqTo.keeps_ti (h : IrqTo s s') (hti : s.TI) : s'.TI := by
  cases h with
  | rxcArms | rxcDoubleArm => exact hti
  | txcArms b q _ hp => exact ⟨fun _ => hti.1 (.inr hp), fun hc => nomatch hc.2⟩
  | txcOverlap b q _ hp hb => exact absurd hb (hti.not_busy_of_pend hp)
  | txcEnds q _ hp =>
    exact ⟨fun hc => absurd (hc.resolve_right nofun) (hti.not_busy_of_pend hp), fun hc => nomatch hc.2⟩

theorem SendTo.keeps_ti (h : SendTo s o p s') (hti : s.TI) : s'.TI := by
  cases h with
  | silent | transmits | overlap | queues | overflow => exact hti
  | kicks _ b q _ hi => exact ⟨fun _ => rfl, fun hc => hti.idle hi (.inr hc.2)⟩
  | kicksNothing _ q _ hi => exact ⟨fun hc => absurd hc (hti.idle hi), hti.2⟩
  | kickOverflow | kickOverlap => exact ⟨fun _ => rfl, hti.2⟩

theorem ToggleTo.keeps_ti {t : TogglePos} (h : ToggleTo s t s') (hti : s.TI)
    (hclear : t = .clearInFlight → s.perTxBusy = false ∧ s.txPend = false) : s'.TI := by
  cases h with
  | clearInFlight =>
    obtain ⟨hb, hp⟩ := hclear rfl
    exact ⟨fun hc => by simp [hb, hp] at hc, hti.2⟩
  | flip | enableLine | primeOverflow | primeDoubleArm | primeArms | abortRx | disableLine |
    drainOverflow | drains => exact hti

theorem EffectTo.keeps_ti (h : EffectTo s s') (hti : s.TI)
    (hclear : s.seq.togglePos = some .clearInFlight → s.perTxBusy = false ∧ s.txPend = false) :
    s'.TI := by
  cases h with
  | sends _ _ _ _ h => exact h.keeps_ti hti
  | toggles t _ ht h => exact h.keeps_ti hti fun he => hclear (he ▸ ht)
  | attempts _ _ _ h => cases h <;> exact hti
  | hook | delivers | finishes | acquires | acquireOverflow | releases | releaseUnderflow => exact hti

theorem MoveTo.keeps_ti (h : MoveTo d s m s') (hf : s.fault = none) (hti : s.TI)
    (hclear : s.seq.togglePos = some .clearInFlight → s.perTxBusy = false ∧ s.txPend = false) :
    s'.TI := by
  cases h with
  | irq h => exact (s.irqStep_cases h).keeps_ti hti
  | micro _ hs =>
    exact (s.micro_cases d hs).of_effects hf (fun _ _ h => h) fun _ h => h.keeps_ti hti hclear
  | intake | illegal | rxComplete | lineLoss | wait => exact hti
  | txComplete hb => exact ⟨fun _ => hti.1 (.inl hb), fun hc => nomatch hc.1⟩

/-- Settles O56: a burst's byte is outstanding, then its TXC pending, and the flag outlives both. -/
theorem stepKeepsTI : Obligations.StepKeepsTI := by
  intro env s s' hti hclear h
  obtain ⟨env', h⟩ := stepUnder_of_step env s s' h
  obtain ⟨hf, ⟨-, rfl⟩ | ⟨m, s1, -, rfl | rfl, hmove⟩⟩ := stepUnder_cases env' s s' h
  · exact hti
  · exact hmove.keeps_ti hf hti hclear
  · exact hmove.keeps_ti (s := s.drew) hf hti hclear

/-- Under TI the TXC handler finds no byte outstanding. -/
theorem IrqTo.no_overlap (h : IrqTo s s') (hf : s.fault = none) (hti : s.TI) :
    s'.fault ≠ some (.txOverlap o b) := by
  cases h with
  | txcOverlap b q _ hp hb => exact absurd hb (hti.not_busy_of_pend hp)
  | rxcArms | rxcDoubleArm | txcArms | txcEnds => simp [hf]

/-- Under TI a kickstart finds no byte outstanding, so a SEND that ends with TX_OVERLAP is a blocking
transmit, stopped at its first byte. -/
theorem SendTo.overlap_polling (h : SendTo s o' p s') (hf : s.fault = none) (hti : s.TI)
    (ho : s'.fault = some (.txOverlap o b)) :
    s.mode = .polling ∧ s.perTxBusy = true ∧ ∃ rest, p = b :: rest := by
  cases h with
  | overlap b' rest hm hb =>
    obtain ⟨-, rfl⟩ : o' = o ∧ b' = b := by simpa using ho
    exact ⟨hm, hb, rest, rfl⟩
  | kickOverlap _ _ _ _ hi hb => exact absurd (.inl hb) (hti.idle hi)
  | silent | transmits | queues | kicks | kicksNothing | overflow | kickOverflow => simp [hf] at ho

theorem EffectTo.overlap_polling (h : EffectTo s s') (hf : s.fault = none) (hti : s.TI)
    (ho : s'.fault = some (.txOverlap o b)) :
    s.mode = .polling ∧ s.perTxBusy = true ∧ ∃ rest, s.sending = some (b :: rest) := by
  cases h with
  | sends p _ _ hs h =>
    obtain ⟨hm, hb, rest, rfl⟩ := h.overlap_polling hf hti ho
    exact ⟨hm, hb, rest, hs⟩
  | toggles _ _ _ h => cases h <;> simp [hf] at ho
  | attempts _ _ _ h => cases h <;> simp [hf] at ho
  | hook | delivers | acquires | acquireOverflow | releases | releaseUnderflow => simp [hf] at ho
  | finishes => simp [State.writeResults, hf] at ho

theorem MoveTo.overlap_polling (h : MoveTo d s m s') (hf : s.fault = none) (hti : s.TI)
    (ho : s'.fault = some (.txOverlap o b)) :
    m = .foreground ∧ s.mode = .polling ∧ s.perTxBusy = true ∧
      ∃ rest, s.sending = some (b :: rest) := by
  cases h with
  | irq h => exact absurd ho ((s.irqStep_cases h).no_overlap hf hti)
  | micro _ hs =>
    refine ⟨rfl, (s.micro_cases d hs).of_effects (P := fun u => u.fault = some (.txOverlap o b) → _) hf
      (fun _ _ h => h) (fun _ h => h.overlap_polling hf hti) ho⟩
  | intake | illegal | rxComplete | txComplete | lineLoss | wait => simp [hf] at ho

/-- Settles O57: under TI neither the TXC handler nor a kickstart meets an outstanding byte. -/
theorem overlapUnderTIOnlyInPolling : Obligations.OverlapUnderTIOnlyInPolling := by
  intro env s s' o b hti h ho
  obtain ⟨hf, ⟨-, rfl⟩ | ⟨m, s1, hm, hs1, hmove⟩⟩ := stepUnder_cases env s s' h
  · simp [hf] at ho
  have hover : m = .foreground ∧ s.mode = .polling ∧ s.perTxBusy = true ∧
      ∃ rest, s.sending = some (b :: rest) := by
    obtain rfl | rfl := hs1
    · exact hmove.overlap_polling hf hti ho
    · exact hmove.overlap_polling (s := s.drew) hf hti ho
  obtain ⟨rfl, hrest⟩ := hover
  exact ⟨by simp [State.makes, hm], hrest⟩

end Sys2Proof.Machine
end

section
/-! A fault stops every agent (rules R34 and R240). -/

namespace Sys2Proof.Machine

variable {s : State} {f : Fault}

theorem State.enabled_of_fault (h : s.fault = some f) (m : Move) : s.enabled m = false := by
  cases m with
  | irq => simp [State.enabled, State.anyDeliverable, State.deliverable, h]
  | foreground | rxComplete | txComplete | lineLoss | wait => simp [State.enabled, h]

theorem stepUnder_of_fault (env : Nat → Draws) (h : s.fault = some f) : stepUnder env s = .fault f := by
  simp only [stepUnder, State.stepBy, h]

/-- Settles O10: enabling, a step and a command's meaning all look at the fault first. -/
theorem faultStopsEveryAgent : Obligations.FaultStopsEveryAgent := by
  refine ⟨rfl, fun s f h => ⟨State.enabled_of_fault h, ?_, fun env => stepUnder_of_fault env h, fun i => ?_⟩⟩
  · rw [step_eq_stepUnder, stepUnder_of_fault _ h]
  · rw [exec_eq_execUnder, execUnder_fault _ i s f h]

end Sys2Proof.Machine
end

section
/-! Which moves are enabled, and which of them a step makes (rule R56). -/

namespace Sys2Proof.Machine

variable {s : State} {m : Move}

theorem State.enabled_irq :
    s.enabled .irq = true ↔ s.deliverable .rxc = true ∨ s.deliverable .txc = true := by
  simp [State.enabled, State.anyDeliverable]

theorem State.portReady_iff : s.portReady = true ↔ decode s.port ≠ .incomplete := by
  unfold State.portReady
  cases decode s.port <;> simp

theorem Seq.instr_isSome (q : Seq) : q.instr.isSome = true ↔ q ≠ .idle := by
  rw [Ne, ← q.instr_eq_none, ← Option.ne_none_iff_isSome]

theorem State.enabled_foreground :
    s.enabled .foreground = true ↔
      s.fault = none ∧ s.deliverable .rxc = false ∧ s.deliverable .txc = false ∧
        (s.seq ≠ .idle ∨ decode s.port ≠ .incomplete) := by
  simp [State.enabled, State.anyDeliverable, State.portReady_iff, Seq.instr_isSome, and_assoc]

theorem State.enabled_rxComplete :
    s.enabled .rxComplete = true ↔ s.fault = none ∧ s.perRxArmed = true ∧ s.lineIn ≠ [] := by
  simp [State.enabled, and_assoc]

theorem State.enabled_txComplete :
    s.enabled .txComplete = true ↔ s.fault = none ∧ s.perTxBusy = true := by
  simp [State.enabled]

theorem State.enabled_lineLoss :
    s.enabled .lineLoss = true ↔ s.fault = none ∧ s.perRxArmed = false ∧ s.lineIn ≠ [] := by
  simp [State.enabled, and_assoc]

/-- Waiting is a move where a byte may be lost and nothing else can move (rule R271). -/
theorem State.enabled_wait :
    s.enabled .wait = true ↔
      s.enabled .lineLoss = true ∧ ∀ m, m ≠ .lineLoss → m ≠ .wait → s.enabled m = false := by
  have hothers : (∀ m, m ≠ .lineLoss → m ≠ .wait → s.enabled m = false) ↔
      s.enabled .rxComplete = false ∧ s.enabled .txComplete = false ∧ s.enabled .irq = false ∧
        s.enabled .foreground = false := by
    constructor
    · exact fun h => ⟨h _ nofun nofun, h _ nofun nofun, h _ nofun nofun, h _ nofun nofun⟩
    · rintro ⟨hr, ht, hi, hf⟩ (_ | _ | _ | _ | _ | _) hl hw
      exacts [hi, hf, hr, ht, absurd rfl hl, absurd rfl hw]
  have hwait : s.enabled .wait = true ↔ s.enabled .lineLoss = true ∧ s.perTxBusy = false ∧
      s.anyDeliverable = false ∧ s.seq.instr = none ∧ s.portReady = false := by
    simp [State.enabled, and_assoc]
  rw [hwait, hothers]
  refine and_congr_right fun hl => ?_
  obtain ⟨hf, ha, -⟩ := State.enabled_lineLoss.1 hl
  simp +contextual [State.enabled, hf, ha]

theorem State.mem_moves : m ∈ s.moves ↔ s.enabled m = true := by
  cases m <;> simp [State.moves]

/-- A move that alone is enabled is made, and nothing is drawn for it. -/
theorem State.schedule_of_only (d : Draws) (hm : s.enabled m = true)
    (hothers : ∀ k, k ≠ m → s.enabled k = false) : s.schedule d = some (m, s) := by
  have hmoves : s.moves = [m] := by cases m <;> simp [State.moves, hm, hothers]
  simp only [State.schedule, hmoves]

/-- The environment's pick chooses among the enabled moves by its remainder (rule R56(d)). -/
theorem State.schedule_fst (s : State) (d : Draws) :
    (s.schedule d).map Prod.fst = s.moves[d.pick % s.moves.length]? := by
  unfold State.schedule
  split
  · rename_i h
    simp [h]
  · rename_i h
    simp [h, Nat.mod_one]
  · rename_i m ms _ h
    rw [h, Option.map_some, List.getD_eq_getElem?_getD, List.length_cons,
      List.getElem?_eq_getElem (by simpa using Nat.mod_lt _ ms.length.succ_pos), Option.getD_some]

/-- An environment that always picks the `k`-th enabled move. -/
def alwaysPicks (k : Nat) : Nat → Draws := fun _ => { pick := k, sent := 0, take := false, hook := false }

/-- An enabled move is one of the scheduler's list, and its place in the list is a pick. -/
theorem State.enabled_iff_makes : s.enabled m = true ↔ ∃ env, s.makes env m := by
  simp only [State.makes, State.moveUnder, State.schedule_fst, ← State.mem_moves]
  constructor
  · intro h
    obtain ⟨k, hk, rfl⟩ := List.getElem_of_mem h
    exact ⟨alwaysPicks k, by simp [alwaysPicks, Nat.mod_eq_of_lt hk, hk]⟩
  · rintro ⟨env, h⟩
    exact List.mem_of_getElem? h

/-- Settles O11: each agent's own condition, and the scheduler's freedom to pick any enabled move. -/
theorem enabledAgents : Obligations.EnabledAgents := fun _ =>
  ⟨State.enabled_irq, State.enabled_foreground, State.enabled_rxComplete, State.enabled_txComplete,
    State.enabled_lineLoss, State.enabled_wait, fun _ => State.enabled_iff_makes⟩

end Sys2Proof.Machine
end

section
/-! FG's move in a step: the running command, or the one at the port (rules R37, R56 and R66). -/

namespace Sys2Proof.Machine

variable {s s1 : State} {i : Instr} {rest : List Byte}
  {run : Instr → State → Host.Outcome State Fault Refusal}

theorem State.foregroundMove_of_running (hi : s.seq.instr = some i) :
    s.foregroundMove run = run i s := by
  simp only [State.foregroundMove, hi]

theorem State.foregroundMove_of_command (hs : s.seq = .idle) (hp : decode s.port = .command i rest) :
    s.foregroundMove run = run i { s with port := rest } := by
  simp only [State.foregroundMove, (Seq.instr_eq_none _).2 hs, hp]

theorem step_foreground (hf : s.fault = none)
    (h : s.schedule (Config.drawsAt s.drawn) = some (.foreground, s1)) :
    step s = s1.foregroundMove exec := by
  simp only [step, State.stepBy, hf, h, State.perform]

/-- Settles O7: a draw of the scheduler's changes neither the sequencer nor the port. -/
theorem stepRunsDecodedCommand : Obligations.StepRunsDecodedCommand := by
  intro s s1 i hf h
  obtain ⟨-, hs1⟩ := s.schedule_some _ _ _ h
  have hseq : s1.seq = s.seq := by obtain rfl | rfl := hs1 <;> rfl
  have hport : s1.port = s.port := by obtain rfl | rfl := hs1 <;> rfl
  rw [step_foreground hf h]
  exact ⟨hs1, fun rest hs hp => State.foregroundMove_of_command (hseq.trans hs) (by rw [hport, hp]),
    fun hi => State.foregroundMove_of_running (by rw [hseq, hi])⟩

/-- The bytes of the command whose bits are `w`, before any others, decode to that command (rule R76). -/
theorem decode_tableBytes {nbits w : Nat} (h : decodeTableWord nbits w = some i) (rest : List Byte) :
    decode (tableBytes nbits w ++ rest) = .command i rest := by
  unfold decodeTableWord at h
  split at h <;> cases h
  rename_i r hd
  rw [tableBytes, decodedLength, hd]
  exact decode_take _ i r hd rest

/-- With a command placed at the port FG alone is enabled, so nothing is drawn (log entry 7). -/
theorem State.schedule_withFetchWord {nbits w : Nat} (h : decodeTableWord nbits w = some i) (d : Draws) :
    (s.withFetchWord nbits w).schedule d = some (.foreground, s.withFetchWord nbits w) := by
  have hp : decode (s.withFetchWord nbits w).port = .command i s.port := decode_tableBytes h s.port
  refine State.schedule_of_only d (State.enabled_foreground.2 ⟨rfl, rfl, rfl, .inr (by simp [hp])⟩) ?_
  rintro (_ | _ | _ | _ | _ | _) hk
  case foreground => exact absurd rfl hk
  all_goals rfl

/-- Settles O8: FG is the only agent enabled at a placed command, and takes it. -/
theorem placedWordRunsNext : Obligations.PlacedWordRunsNext := by
  intro s nbits w i h
  rw [step_foreground rfl (State.schedule_withFetchWord h _)]
  exact State.foregroundMove_of_command rfl (decode_tableBytes h s.port)

end Sys2Proof.Machine
end

section
/-! Where intake sets the sequencer, by the mode and the operands (rules R66, R142, R143 and R165). -/

namespace Sys2Proof.Machine

/-- Only a polling SEND of an empty payload has no micro-step (rule R142). -/
theorem sendHasStep_eq (m : Mode) (p : List Byte) : sendHasStep m p = !decide (m = .polling ∧ p = []) := by
  cases m <;> cases p <;> rfl

theorem Seq.sendStart_eq (m : Mode) (p : List Byte) :
    Seq.sendStart m p = if m = .polling ∧ p = [] then .idle else .send p := by
  simp only [Seq.sendStart, sendHasStep_eq, Bool.not_eq_true', decide_eq_false_iff_not, ite_not]

theorem LineStage.start_eq (m : Mode) (p : List Byte) :
    LineStage.start m p = if m = .polling ∧ p = [] then .crlf else .text := by
  simp only [LineStage.start, sendHasStep_eq, Bool.not_eq_true', decide_eq_false_iff_not, ite_not]

theorem ReceivePos.loopHead_nil (cap : Byte) :
    ReceivePos.loopHead cap [] = if cap = 0#8 then .finish else .source .hook := by
  have hcap : ([] : List Byte).length = cap.toNat ↔ cap = 0#8 := by
    rw [List.length_nil, BitVec.toNat_eq, eq_comm]
    rfl
  simp only [ReceivePos.loopHead, hcap]

/-- `exec` at an idle sequencer is intake (rule R66). -/
theorem exec_idle (i : Instr) (s : State) (hf : s.fault = none) (hs : s.seq = .idle) :
    exec i s = .next { s with seq := Seq.start s.mode i } := by
  rw [exec_eq_execUnder, execUnder_idle _ i s hf hs]
  rfl

/-- Settles O9: intake moves to the command's first micro-step, which its mode and operands select. -/
theorem intakeSetsSequencer : Obligations.IntakeSetsSequencer := by
  intro s hf hs
  simp only [exec_idle _ s hf hs, Seq.start, Seq.sendStart_eq, LineStage.start_eq, ReceivePos.loopHead_nil,
    implies_true, and_self]

end Sys2Proof.Machine
end

section
/-! The decoder read backwards: which bytes give each of its three results (rules R70 to R72, R75 and R76). -/

namespace Sys2Proof

variable {b0 b1 : Byte} {bytes rest : List Byte} {i : Instr} {op : Opcode} {hd : Header}

/-- The opcode byte of a row of the opcode map (rule R72). -/
def Opcode.byte : Opcode → Byte
  | .send => 1#8
  | .sendLine => 2#8
  | .recvByte => 3#8
  | .receive => 4#8
  | .toggle => 5#8
  | .acquire => 6#8
  | .release => 7#8

/-- Is the operand byte free? In the other rows it is 0x00 (rules R71 and R72). -/
def Opcode.takesOperand : Opcode → Bool
  | .send | .sendLine | .receive => true
  | .recvByte | .toggle | .acquire | .release => false

/-- A header selects a row by its opcode byte, and where the row takes no operand by a zero operand. -/
theorem ofHeader_eq_some_iff :
    Opcode.ofHeader (header b0 b1) = some op ↔
      b0 = op.byte ∧ (op.takesOperand = true ∨ b1 = 0#8) := by
  rw [ofHeader_eq]
  constructor
  · intro h
    split_ifs at h <;> cases h <;> simp_all [Opcode.byte, Opcode.takesOperand]
  · rintro ⟨rfl, h⟩
    cases op <;> simp_all [Opcode.byte, Opcode.takesOperand]

/-- The header of any command selects its own row (rule R72). -/
theorem ofHeader_of_instr : ∀ i : Instr,
    Opcode.ofHeader (header i.opcodeByte i.operandByte) = some i.opcode
  | .send p => (Laws.Encoding.send p).1
  | .sendLine p => (Laws.Encoding.sendLine p).1
  | .recvByte => Laws.Encoding.recvByte.1
  | .receive cap => (Laws.Encoding.receive cap).1
  | .toggle => Laws.Encoding.toggle.1
  | .acquire => Laws.Encoding.acquire.1
  | .release => Laws.Encoding.release.1

/-- The illegal headers (rule R75). -/
theorem ofHeader_eq_none_iff :
    Opcode.ofHeader (header b0 b1) = none ↔
      b0 = 0#8 ∨ 8 ≤ b0.toNat ∨ ((b0 = 3#8 ∨ b0 = 5#8 ∨ b0 = 6#8 ∨ b0 = 7#8) ∧ b1 ≠ 0#8) := by
  simp only [ofHeader_eq, ite_eq_iff, reduceCtorEq, and_false, false_or, and_true]
  bv_omega

/-- A legal header leaves the rest to its row's operand byte and payload. -/
theorem decode_of_legal (h : Opcode.ofHeader (header b0 b1) = some op) :
    decode (b0 :: b1 :: bytes) = decodeBody op b1 bytes := by
  simp only [decode, h]

theorem decode_of_not_legal (h : Opcode.ofHeader (header b0 b1) = none) :
    decode (b0 :: b1 :: bytes) = .illegal (header b0 b1) bytes := by
  simp only [decode, h]

theorem decodePayload_append (mk : List Byte → Instr) (p rest : List Byte) :
    decodePayload mk p.length (p ++ rest) = .command (mk p) rest := by
  simp [decodePayload]

/-- A complete payload is the first bytes after the header, as many as the operand byte says. -/
theorem decodePayload_eq_command {mk : List Byte → Instr} {n : Nat}
    (h : decodePayload mk n bytes = .command i rest) :
    ∃ p, i = mk p ∧ p.length = n ∧ bytes = p ++ rest := by
  unfold decodePayload at h
  split at h <;> cases h
  exact ⟨bytes.take n, rfl, List.length_take_of_le ‹_›, (List.take_append_drop n bytes).symm⟩

theorem decodePayload_eq_incomplete_iff {mk : List Byte → Instr} {n : Nat} :
    decodePayload mk n bytes = .incomplete ↔ bytes.length < n := by
  simp [decodePayload]

theorem decodePayload_ne_illegal (mk : List Byte → Instr) (n : Nat) :
    decodePayload mk n bytes ≠ .illegal hd rest := by
  unfold decodePayload
  split <;> exact nofun

/-- The operand byte holds the length of a payload of up to 255 bytes (rule R71). -/
theorem toNat_length_byte {p : List Byte} (h : p.length ≤ 255) :
    (BitVec.ofNat 8 p.length).toNat = p.length := by
  rw [BitVec.toNat_ofNat, Nat.mod_eq_of_lt (by omega)]

/-- The row of a well-formed command reads its operand byte and payload back. -/
theorem decodeBody_of_wf (h : i.wf = true) :
    decodeBody i.opcode i.operandByte (i.payload ++ rest) = .command i rest := by
  cases i with
  | send p | sendLine p =>
    simp only [decodeBody, Instr.opcode, Instr.operandByte, Instr.payload,
      toNat_length_byte (of_decide_eq_true h), decodePayload_append]
  | recvByte | receive | toggle | acquire | release => rfl

/-- What a row reads is a well-formed command of that row, from its own operand byte and payload. -/
theorem decodeBody_eq_command (h : decodeBody op b1 bytes = .command i rest) :
    i.opcode = op ∧ i.wf = true ∧ (op.takesOperand = true → b1 = i.operandByte) ∧
      bytes = i.payload ++ rest := by
  cases op with
  | send | sendLine =>
    obtain ⟨p, rfl, hlen, rfl⟩ := decodePayload_eq_command h
    have hb1 : b1 = BitVec.ofNat 8 p.length := by rw [hlen, BitVec.ofNat_toNat, BitVec.setWidth_eq]
    have hwf : p.length ≤ 255 := by omega
    exact ⟨rfl, decide_eq_true hwf, fun _ => hb1, rfl⟩
  | receive =>
    cases h
    exact ⟨rfl, rfl, fun _ => rfl, rfl⟩
  | recvByte | toggle | acquire | release =>
    cases h
    exact ⟨rfl, rfl, nofun, rfl⟩

theorem decodeBody_eq_incomplete_iff :
    decodeBody op b1 bytes = .incomplete ↔
      (op = .send ∨ op = .sendLine) ∧ bytes.length < b1.toNat := by
  cases op <;> simp [decodeBody, decodePayload_eq_incomplete_iff]

theorem decodeBody_ne_illegal : decodeBody op b1 bytes ≠ .illegal hd rest := by
  cases op with
  | send | sendLine => exact decodePayload_ne_illegal _ _
  | recvByte | receive | toggle | acquire | release => exact nofun

/-- Settles O1: the header selects the command's row, which reads the operand byte and payload back. -/
theorem decodeOfEncode : Obligations.DecodeOfEncode := by
  intro i rest h
  calc decode (encode i ++ rest)
      = decodeBody i.opcode i.operandByte (i.payload ++ rest) := decode_of_legal (ofHeader_of_instr i)
    _ = .command i rest := decodeBody_of_wf h

/-- Settles O2: the row's own operand check makes the header the command's. -/
theorem encodeOfDecode : Obligations.EncodeOfDecode := by
  intro bytes rest i h
  obtain _ | ⟨b0, _ | ⟨b1, bs⟩⟩ := bytes
  · cases h
  · cases h
  cases hop : Opcode.ofHeader (header b0 b1) with
  | none => cases (decode_of_not_legal hop).symm.trans h
  | some op =>
    rw [decode_of_legal hop] at h
    obtain ⟨rfl, hwf, hoperand, rfl⟩ := decodeBody_eq_command h
    obtain ⟨rfl, hb1⟩ := ofHeader_eq_some_iff.1 hop
    obtain ⟨hbyte, hzero⟩ := ofHeader_eq_some_iff.1 (ofHeader_of_instr i)
    have hb1 : b1 = i.operandByte := by
      obtain htakes | hb1 := hb1
      · exact hoperand htakes
      · exact hzero.elim hoperand fun h0 => hb1.trans h0.symm
    rw [hb1, ← hbyte]
    exact ⟨hwf, rfl⟩

/-- An illegal header is one that selects no row; its two bytes alone are taken (rules R75 and R76). -/
theorem decode_eq_illegal_iff :
    decode (b0 :: b1 :: bytes) = .illegal hd rest ↔
      Opcode.ofHeader (header b0 b1) = none ∧ hd = header b0 b1 ∧ rest = bytes := by
  cases hop : Opcode.ofHeader (header b0 b1) with
  | none => simp [decode_of_not_legal hop, eq_comm]
  | some op => simp [decode_of_legal hop, decodeBody_ne_illegal]

/-- A header is enough but in a row that carries a payload (rule R76). -/
theorem decode_eq_incomplete_iff :
    decode (b0 :: b1 :: bytes) = .incomplete ↔
      (b0 = 1#8 ∨ b0 = 2#8) ∧ bytes.length < b1.toNat := by
  cases hop : Opcode.ofHeader (header b0 b1) with
  | none =>
    have hb0 : ¬(b0 = 1#8 ∨ b0 = 2#8) := by
      have := ofHeader_eq_none_iff.1 hop
      bv_omega
    simp [decode_of_not_legal hop, hb0]
  | some op =>
    have hb0 : b0 = op.byte := (ofHeader_eq_some_iff.1 hop).1
    rw [decode_of_legal hop, decodeBody_eq_incomplete_iff]
    subst hb0
    cases op <;> simp [Opcode.byte]

/-- The length of a well-formed command, from its header (rule R76). -/
theorem Instr.length_eq (h : i.wf = true) :
    i.length = if i.opcodeByte = 1#8 ∨ i.opcodeByte = 2#8 then 2 + i.operandByte.toNat else 2 := by
  cases i with
  | send p | sendLine p =>
    simp [Instr.length, Instr.payload, Instr.opcodeByte, Instr.operandByte,
      toNat_length_byte (of_decide_eq_true h)]
  | recvByte | receive | toggle | acquire | release => simp [Instr.length, Instr.payload, Instr.opcodeByte]

/-- Settles O4: a command's length from its encoding, the other two results from their headers. -/
theorem commandLengths : Obligations.CommandLengths := by
  refine ⟨fun b0 b1 bytes rest i h => ?_, fun b0 b1 bytes rest hd h => (decode_eq_illegal_iff.1 h).2.2,
    fun bytes => ?_⟩
  · obtain ⟨hwf, hbytes⟩ := encodeOfDecode _ _ _ h
    have hlen := congrArg List.length hbytes
    rw [List.length_append, Laws.Encoding.length_encode] at hlen
    obtain ⟨rfl, rfl, -⟩ : b0 = i.opcodeByte ∧ b1 = i.operandByte ∧ bytes = i.payload ++ rest := by
      simpa [encode] using hbytes
    exact ⟨hlen, Instr.length_eq hwf⟩
  · obtain _ | ⟨b0, _ | ⟨b1, bs⟩⟩ := bytes
    · simp [decode]
    · simp [decode]
    · simp [decode_eq_incomplete_iff]

/-- Settles O5 by running the decoder on the nine words. -/
theorem specWordsDecode : Obligations.SpecWordsDecode := by
  unfold Obligations.SpecWordsDecode
  decide

end Sys2Proof
end

section
/-! What FG does with an illegal and with an incomplete command at the port (rules R75, R77 and R242). -/

namespace Sys2Proof.Machine

variable {s s' : State} {hd : Header} {rest : List Byte} {m : Move}
  {run : Instr → State → Host.Outcome State Fault Refusal}

theorem State.foregroundMove_of_illegal (hs : s.seq = .idle) (hp : decode s.port = .illegal hd rest) :
    s.foregroundMove run = .next { s with port := rest, fault := some (.illegalCommand hd) } := by
  simp only [State.foregroundMove, (Seq.instr_eq_none _).2 hs, hp, State.raise]

/-- Settles O3: the illegal headers select no row of the opcode map, and intake raises the fault. -/
theorem illegalHeadersFault : Obligations.IllegalHeadersFault := by
  refine fun b0 b1 rest => ⟨?_, fun h r hill => ?_⟩
  · simp only [decode_eq_illegal_iff, ← ofHeader_eq_none_iff, exists_and_left, exists_eq, and_true]
  · obtain ⟨-, rfl, rfl⟩ := decode_eq_illegal_iff.1 hill
    exact ⟨header_toNat b0 b1, rfl, fun s _ hs hp => State.foregroundMove_of_illegal hs (hp ▸ hill)⟩

/-- Only FG's moves write the sequencer and the port (rule R39). -/
theorem FieldWrites.keeps_seq_port (h : FieldWrites m s s') (hm : m ≠ .foreground) :
    s'.seq = s.seq ∧ s'.port = s.port :=
  ⟨not_not.1 fun hseq => hm (h.seq hseq), not_not.1 fun hport => hm (h.port hport).1⟩

theorem stepUnder_keeps_seq_port {env : Nat → Draws} (he : s.enabled .foreground = false)
    (h : stepUnder env s = .next s') : s'.seq = s.seq ∧ s'.port = s.port := by
  obtain ⟨hf, ⟨-, rfl⟩ | ⟨m, s1, hm, hs1, hmove⟩⟩ := stepUnder_cases env s s' h
  · exact ⟨rfl, rfl⟩
  have hfg : m ≠ .foreground := by
    rintro rfl
    exact absurd (s.schedule_some _ _ _ hm).1 (he ▸ Bool.false_ne_true)
  obtain rfl | rfl := hs1
  · exact (hmove.fieldWrites hf).keeps_seq_port hfg
  · exact (hmove.fieldWrites (s := s.drew) hf).keeps_seq_port hfg

/-- Settles O6: with FG not enabled, no step touches the sequencer or the port. -/
theorem incompleteCommandWaits : Obligations.IncompleteCommandWaits := by
  intro env s s' hs hp
  have he : s.enabled .foreground = false := by
    simp [← Bool.not_eq_true, State.enabled_foreground, hs, hp]
  exact ⟨he, fun h => hs ▸ stepUnder_keeps_seq_port he h⟩

end Sys2Proof.Machine
end

section
/-! The rings' indices as numbers, and what one push and one pop leave (rules R101 to R104). -/

namespace Sys2Proof.Machine

variable (q : Ring) (nul : Bool)

/-- Advancing a ring index by one is advancing it modulo the capacity (rule R13). -/
theorem toNat_index_add_one (i : Index) : (i + 1#7).toNat = (i.toNat + 1) % 128 :=
  BitVec.toNat_add i 1#7

/-- Full as the spec writes it, on the indices as numbers (rule R102). -/
theorem Ring.isFull_iff_toNat : q.isFull = true ↔ (q.tail.toNat + 1) % 128 = q.head.toNat := by
  rw [Ring.isFull_iff, BitVec.toNat_eq, toNat_index_add_one]

theorem Ring.not_isEmpty_and_isFull : ¬(q.isEmpty = true ∧ q.isFull = true) := by
  rintro ⟨hempty, hfull⟩
  have h0 : q.count = 0 := (Ring.count_eq_zero_iff q).2 hempty
  have hmax : q.count = 127 := (Ring.count_eq_max_iff q).2 hfull
  omega

/-- The byte a pop of a ring that is not empty gives (rule R104). -/
theorem Ring.pop_byte (h : q.isEmpty = false) :
    (q.pop nul).1 = if q.at q.head = 0#8 ∧ nul = true then none else some (q.at q.head) := by
  have hpop := Ring.pop_contents q nul
  rw [Ring.contents_cons q h] at hpop
  exact hpop.1

/-- Settles O17: by the indices, and by the count, which is their difference. -/
theorem emptyAndFull : Obligations.EmptyAndFull := fun q =>
  ⟨Ring.isEmpty_iff q, Ring.isFull_iff_toNat q, (Ring.count_eq_zero_iff q).symm,
    (Ring.count_eq_max_iff q).symm, Ring.count_le q, Ring.not_isEmpty_and_isFull q⟩

/-- Settles O18: a push writes the one slot at `tail`, which is the next one past the bytes held. -/
theorem pushResult : Obligations.PushResult := by
  refine fun q b => ⟨Ring.push_full q b, fun h => ⟨?slot, fun i hi => ?others, Ring.push_head q b,
    ?tail, Ring.push_contents q b h⟩⟩
  case slot => rw [Ring.push_at q b _ h, if_pos rfl]
  case others => rw [Ring.push_at q b i h, if_neg hi]
  case tail => rw [Ring.push_tail q b h, toNat_index_add_one]

/-- Settles O19: a pop moves `head` past the front byte; the reading decides the answer alone. -/
theorem popResult : Obligations.PopResult := by
  refine fun q nul => ⟨Ring.pop_empty q nul, fun h => ⟨?head, Ring.pop_tail q nul, Ring.pop_buf q nul,
    ?front, Ring.pop_byte q nul h⟩⟩
  case head => rw [Ring.pop_ring q nul h, toNat_index_add_one]
  case front => rw [Ring.pop_ring q nul h, ← Ring.contents_cons q h]

end Sys2Proof.Machine
end

section
/-! The order of the bytes over any pushes and pops (rules R106 and R107). -/

namespace Sys2Proof.Machine

variable {q : Ring} {nul : Bool} {accepted popped : List Byte}

/-- The bytes a pop gives back: under the sentinel reading, all but 0x00 (rule R104). -/
def readable (nul : Bool) (b : Byte) : Bool := !nul || b != 0#8

theorem readable_iff {b : Byte} : readable nul b = true ↔ ¬(b = 0#8 ∧ nul = true) := by
  cases nul <;> simp [readable]

/-- The invariant of the FIFO law (rule R106), for either reading: of the readable bytes accepted so far,
the first ones are popped and the rest are held, in order. -/
def Ring.Fifo (q : Ring) (nul : Bool) (accepted popped : List Byte) : Prop :=
  accepted.filter (readable nul) = popped ++ q.contents.filter (readable nul)

/-- A pop takes the byte it gives, if any, off the front of the readable bytes held (rule R104). -/
theorem Ring.pop_readable (q : Ring) (nul : Bool) :
    (q.pop nul).1.toList ++ (q.pop nul).2.contents.filter (readable nul) =
      q.contents.filter (readable nul) := by
  have hpop := Ring.pop_contents q nul
  cases hc : q.contents with
  | nil =>
    rw [hc] at hpop
    simp [hpop, hc]
  | cons b bs =>
    rw [hc] at hpop
    obtain ⟨hbyte, hrest⟩ := hpop
    rw [hbyte, hrest]
    by_cases hnul : b = 0#8 ∧ nul = true
    · rw [if_pos hnul, List.filter_cons_of_neg (mt readable_iff.1 (not_not_intro hnul))]
      rfl
    · rw [if_neg hnul, List.filter_cons_of_pos (readable_iff.2 hnul)]
      rfl

theorem Ring.Fifo.push (h : q.Fifo nul accepted popped) (b : Byte) :
    (q.push b).Fifo nul (if q.isFull then accepted else accepted ++ [b]) popped := by
  cases hfull : q.isFull with
  | true => rwa [Ring.push_full q b hfull]
  | false =>
    unfold Ring.Fifo at h ⊢
    simp [Ring.push_contents q b hfull, h]

theorem Ring.Fifo.pop (h : q.Fifo nul accepted popped) :
    (q.pop nul).2.Fifo nul accepted (popped ++ (q.pop nul).1.toList) := by
  unfold Ring.Fifo at h ⊢
  rw [List.append_assoc, Ring.pop_readable, h]

/-- Any pushes and pops keep the FIFO invariant (rule R106). -/
theorem Ring.Fifo.runRing (ops : List RingOp) (h : q.Fifo nul accepted popped) :
    (runRing nul ops q accepted popped).1.Fifo nul (runRing nul ops q accepted popped).2.1
      (runRing nul ops q accepted popped).2.2 := by
  induction ops generalizing q accepted popped with
  | nil => exact h
  | cons op ops ih =>
    cases op with
    | push b => exact ih (h.push b)
    | pop => exact ih h.pop

theorem Ring.fifo_of_isEmpty (h : q.isEmpty = true) : q.Fifo nul [] [] := by
  simp [Ring.Fifo, (Ring.contents_eq_nil_iff q).2 h]

/-- Settles O20: an empty ring meets the FIFO invariant, and where 0x00 is a byte like any other every
byte is readable. -/
theorem fifoLaw : Obligations.FifoLaw := by
  refine fun ops q h => ⟨?_, (Ring.fifo_of_isEmpty (nul := true) h).runRing ops⟩
  have hall : readable false = fun _ => true := rfl
  simpa only [Ring.Fifo, hall, List.filter_true] using (Ring.fifo_of_isEmpty (nul := false) h).runRing ops

/-- Settles O21: an empty ring has room for 127 bytes. -/
theorem overflowLaw : Obligations.OverflowLaw := by
  intro q p h
  have hcontents : (q.pushAll p).contents = p.take 127 := by
    rw [Ring.pushAll_contents, (Ring.contents_eq_nil_iff q).2 h, (Ring.count_eq_zero_iff q).2 h,
      List.nil_append]
  exact ⟨hcontents, by rw [← Ring.length_contents, hcontents, List.length_take, Nat.min_comm]⟩

end Sys2Proof.Machine
end

section
/-! The guard: what a step does to the depth, and which guard fault it can end with (rules R120 to R126). -/

namespace Sys2Proof.Machine

variable {s s' : State} {d : Draws} {o : Origin} {p : List Byte} {m : Move} {q : Seq} {n n' : Byte}
  {f : Option Fault}

theorem State.micro_acquire (hs : s.seq = .acquire) :
    s.micro d = (s.acquire .acquire).thenDo fun t => t.goto .idle := by
  simp only [State.micro, hs]

theorem State.micro_release (hs : s.seq = .release) :
    s.micro d = (s.release .release).thenDo fun t => t.goto .idle := by
  simp only [State.micro, hs]

/-- Settles O13: the micro-step is one `Acquire()`. -/
theorem acquireRuns : Obligations.AcquireRuns := by
  intro s hf hs
  rw [exec_running .acquire s hf (by rw [hs]; rfl), State.micro_acquire hs]
  refine ⟨fun hd => ?_, fun hd => ?_⟩
  · rw [s.guarded_eq .acquire _ hf hd]
    rfl
  · rw [s.guarded_max .acquire _ hd]
    rfl

/-- Settles O14: the micro-step is one `Release()`. -/
theorem releaseRuns : Obligations.ReleaseRuns := by
  intro s hf hs
  rw [exec_running .release s hf (by rw [hs]; rfl), State.micro_release hs]
  refine ⟨fun hd => ?_, fun hd => ?_⟩
  · rw [s.release_of_ne .release hd, State.thenDo_of_none { s with depth := s.depth - 1#8 } _ hf]
    rfl
  · rw [s.release_of_zero .release hd]
    rfl

/-- The depth and the fault that a move made at position `q` and depth `n` leaves. -/
inductive GuardTo (q : Seq) (n : Byte) : Byte → Option Fault → Prop
  | level (f : Option Fault) (ho : ∀ o, f ≠ some (.guardOverflow o))
      (hu : ∀ o, f ≠ some (.guardUnderflow o)) : GuardTo q n n f
  | acquires (f : Option Fault) (hf : f = none) (hq : q = .acquire) (hn : n ≠ 255#8) :
      GuardTo q n (n + 1#8) f
  | releases (f : Option Fault) (hf : f = none) (hq : q = .release) (hn : n ≠ 0#8) :
      GuardTo q n (n - 1#8) f
  /-- A TX_OVERLAP inside `k` guards, which are not given back (rule R240). -/
  | overlap (o : Origin) (b k : Byte) (hk : k.toNat ≤ 2) : GuardTo q n (n + k) (some (.txOverlap o b))
  | overflow (o : Origin) (hn : n = 255#8) : GuardTo q n n (some (.guardOverflow o))
  /-- The kickstart's guard overflows inside SEND's (rules R126 and R141). -/
  | kickOverflow (o : Origin) (hn : n = 254#8) : GuardTo q n 255#8 (some (.guardOverflow o))
  | underflow (hq : q = .release) (hn : n = 0#8) : GuardTo q n n (some (.guardUnderflow .release))

theorem GuardTo.of_no_fault (hf : f = none) : GuardTo q n n f :=
  .level f (by simp [hf]) (by simp [hf])

theorem IrqTo.guardTo (h : IrqTo s s') (hf : s.fault = none) :
    GuardTo s.seq s.depth s'.depth s'.fault := by
  cases h with
  | rxcArms | txcArms | txcEnds => exact .of_no_fault hf
  | rxcDoubleArm => exact .level _ nofun nofun
  | txcOverlap b => exact .overlap .txc b 1#8 (by decide)

theorem SendTo.guardTo (h : SendTo s o p s') (hf : s.fault = none) :
    GuardTo s.seq s.depth s'.depth s'.fault := by
  cases h with
  | silent | transmits | queues | kicks | kicksNothing => exact .of_no_fault hf
  | overlap => exact .level _ nofun nofun
  | overflow _ _ hd => exact .overflow o hd
  | kickOverflow _ _ _ hd => exact .kickOverflow o hd
  | kickOverlap _ b => exact .overlap o b 2#8 (by decide)

theorem ToggleTo.guardTo {t : TogglePos} (h : ToggleTo s t s') (hf : s.fault = none) :
    GuardTo s.seq s.depth s'.depth s'.fault := by
  cases h with
  | flip | enableLine | primeArms | abortRx | disableLine | clearInFlight | drains =>
    exact .of_no_fault hf
  | primeDoubleArm => exact .level _ nofun nofun
  | primeOverflow hd | drainOverflow hd => exact .overflow .toggle hd

theorem AttemptTo.guardTo (h : AttemptTo s o s') (hf : s.fault = none) :
    GuardTo s.seq s.depth s'.depth s'.fault := by
  cases h with
  | pops | getsNothing | takes => exact .of_no_fault hf
  | doubleArm => exact .level _ nofun nofun
  | overflow _ hd => exact .overflow o hd

theorem EffectTo.guardTo (h : EffectTo s s') (hf : s.fault = none) :
    GuardTo s.seq s.depth s'.depth s'.fault := by
  cases h with
  | sends _ _ _ _ h => exact h.guardTo hf
  | toggles _ _ _ h => exact h.guardTo hf
  | attempts _ _ _ h => exact h.guardTo hf
  | hook | delivers | finishes => exact .of_no_fault hf
  | acquires hq hd => exact .acquires _ hf hq hd
  | acquireOverflow _ hd => exact .overflow .acquire hd
  | releases hq hd => exact .releases _ hf hq hd
  | releaseUnderflow hq hd => exact .underflow hq hd

theorem MoveTo.guardTo (h : MoveTo d s m s') (hf : s.fault = none) :
    GuardTo s.seq s.depth s'.depth s'.fault := by
  cases h with
  | irq h => exact (s.irqStep_cases h).guardTo hf
  | micro _ hs =>
    exact (s.micro_cases d hs).of_effects (P := fun u => GuardTo s.seq s.depth u.depth u.fault) hf
      (fun _ _ h => h) fun _ h => h.guardTo hf
  | illegal => exact .level _ nofun nofun
  | intake | rxComplete | txComplete | lineLoss | wait => exact .of_no_fault hf

/-- Everything a step can do to the depth, with the fault it leaves. -/
theorem stepUnder_guardTo {env : Nat → Draws} (h : stepUnder env s = .next s') :
    GuardTo s.seq s.depth s'.depth s'.fault := by
  obtain ⟨hf, ⟨-, rfl⟩ | ⟨m, s1, -, rfl | rfl, hmove⟩⟩ := stepUnder_cases env s s' h
  · exact .of_no_fault hf
  · exact hmove.guardTo hf
  · exact hmove.guardTo (s := s.drew) hf

/-- Without a fault only the guard commands leave the depth changed. -/
theorem GuardTo.depth_cases (h : GuardTo q n n' none) :
    n' = n ∨ (q = .acquire ∧ n ≠ 255#8 ∧ n' = n + 1#8) ∨ (q = .release ∧ n ≠ 0#8 ∧ n' = n - 1#8) := by
  cases h with
  | level => exact .inl rfl
  | acquires _ _ hq hn => exact .inr (.inl ⟨hq, hn, rfl⟩)
  | releases _ _ hq hn => exact .inr (.inr ⟨hq, hn, rfl⟩)

/-- Settles O15: without a fault the guards of SEND, TOGGLE, the attempts and the handlers are level. -/
theorem depthChangesOnlyInGuardCommands : Obligations.DepthChangesOnlyInGuardCommands := by
  intro env s s' h hf
  obtain ⟨env', h⟩ := stepUnder_of_step env s s' h
  exact (hf ▸ stepUnder_guardTo h).depth_cases

theorem GuardTo.depth_le (h : GuardTo q n n' f) : n'.toNat ≤ n.toNat + 2 := by
  cases h with
  | level | overflow | underflow => omega
  | acquires | releases => bv_omega
  | overlap _ _ k hk =>
    have hle : (n + k).toNat ≤ n.toNat + k.toNat := Nat.mod_le _ _
    omega
  | kickOverflow _ hn => simp [hn]

theorem GuardTo.of_overflow (h : GuardTo q n n' (some (.guardOverflow o))) : 254 ≤ n.toNat := by
  cases h with
  | level _ ho => exact absurd rfl (ho o)
  | acquires _ hf | releases _ hf => cases hf
  | overflow _ hn | kickOverflow _ hn => simp [hn]

theorem GuardTo.of_underflow (h : GuardTo q n n' (some (.guardUnderflow o))) :
    o = .release ∧ q = .release ∧ n = 0#8 := by
  cases h with
  | level _ _ hu => exact absurd rfl (hu o)
  | acquires _ hf | releases _ hf => cases hf
  | underflow hq hn => exact ⟨rfl, hq, hn⟩

/-- Settles O16: at most two guards are held at once, and only RELEASE leaves a guard it did not enter. -/
theorem guardFaultCauses : Obligations.GuardFaultCauses := by
  intro env s s' h
  obtain ⟨env', h⟩ := stepUnder_of_step env s s' h
  have hg := stepUnder_guardTo h
  exact ⟨hg.depth_le, fun o ho => (ho ▸ hg).of_overflow, fun o hu => (hu ▸ hg).of_underflow⟩

end Sys2Proof.Machine
end

section
/-! The send family: where a SEND completes, where it faults, and what ends a burst (rules R140 to R146). -/

namespace Sys2Proof.Machine

variable {s : State} {d : Draws} {i : Instr} {o : Origin} {p : List Byte} {q : Seq}

/-- A running command whose micro-step is a SEND with no fault in its way sends, and moves on. -/
theorem exec_of_sendClear (hf : s.fault = none) (hi : s.seq.instr = some i) (hc : s.SendClear p)
    (hmicro : ∀ d, s.micro d = (s.sendNow d o p).thenDo fun t => t.goto q) :
    ∃ k, k ≤ p.length ∧ exec i s = .next { s.afterSend p k with seq := q } := by
  have hk : (Config.drawsAt s.drawn).sent % (p.length + 1) ≤ p.length :=
    Nat.le_of_lt_succ (Nat.mod_lt _ (Nat.succ_pos _))
  refine ⟨_, hk, ?_⟩
  rw [exec_running i s hf hi, hmicro, s.sendNow_then_goto _ o p q hf hc]

/-- A draw under which a blocking transmit of `k` bytes or more emits `k` (rule R142). -/
def drawSent (k : Nat) : Draws := { pick := 0, sent := k, take := false, hook := false }

theorem State.micro_send (hs : s.seq = .send p) :
    s.micro d = (s.sendNow d .send p).thenDo fun t => t.goto .idle := by
  simp only [State.micro, hs]

/-- Settles O22: the micro-step is one SEND, and the draw's count is read modulo `N + 1`. -/
theorem sendRuns : Obligations.SendRuns := by
  intro s p hf hs hc
  have hi : s.seq.instr = some (.send p) := by rw [hs]; rfl
  refine ⟨exec_of_sendClear hf hi hc fun _ => State.micro_send hs, fun k hk => ?_⟩
  have hrun : sendUnder (drawSent k) p s = .next (s.micro (drawSent k)) :=
    execUnder_running (fun _ => drawSent k) (.send p) s hf hi
  refine ⟨drawSent k, ?_⟩
  rw [hrun, State.micro_send hs, s.sendNow_then_goto (drawSent k) .send p .idle hf hc,
    show (drawSent k).sent % (p.length + 1) = k from Nat.mod_eq_of_lt (Nat.lt_succ_of_le hk)]

/-- Settles O25: each micro-step is one SEND. -/
theorem sendLineRuns : Obligations.SendLineRuns := by
  intro s p hf
  refine ⟨fun hs hc => ?_, fun hs hc => ?_⟩
  all_goals
    refine exec_of_sendClear (o := .sendLine) hf (by rw [hs]; rfl) hc fun d => ?_
    simp only [State.micro, State.sendLineStep, hs]

/-- Settles O24: an empty payload has no polling micro-step, and an empty ring answers the kickstart's
pop with nothing. -/
theorem emptySendChangesNothing : Obligations.EmptySendChangesNothing := by
  intro s hf
  refine ⟨fun hm hs => ?_, fun hm hs hd hi he => ?_⟩
  · rw [exec_idle _ s hf hs, Seq.start, Seq.sendStart_eq, if_pos ⟨hm, rfl⟩, ← hs]
  · have hpop : (s.tx.pushAll []).pop s.params.nulIsEmpty = (none, s.tx) := Ring.pop_empty s.tx _ he
    have hc : s.SendClear [] := by
      simp only [State.SendClear, hm, hi, hpop, Bool.false_eq_true, if_false]
      exact ⟨hd, .inr trivial⟩
    obtain ⟨⟨k, -, hrun⟩, -⟩ := sendRuns s [] hf hs hc
    have hafter : s.afterSend [] k = s := by
      simp only [State.afterSend, hm, hi, hpop, Bool.false_eq_true, if_false]
      rw [← hi, ← hm]
    rw [hrun, hafter]

/-! ## The SEND that does not complete -/

/-- A TOGGLE's micro-step at a SEND is that SEND, with TOGGLE as its origin (rules R211 to R213). -/
theorem State.toggleEffect_of_sending {t : TogglePos} (ht : s.seq.togglePos = some t)
    (hs : s.sending = some p) : s.toggleEffect d t = s.sendNow d .toggle p := by
  rcases t with _ | _ | _ | (_ | _) | _ | _ | _ | _ | (_ | _) <;>
    simp only [State.sending, ht, Option.some.injEq, reduceCtorEq] at hs
  all_goals
    subst hs
    rfl

/-- Whose request the SEND at a position of a command is (rule R241): a TOGGLE nested in a receive keeps
its own origin. -/
def Seq.sendOrigin (q : Seq) : Instr → Origin
  | .send _ => .send
  | .sendLine _ => .sendLine
  | .recvByte => .toggle
  | .receive _ => if q.togglePos.isSome then .toggle else .receive
  | .toggle => .toggle
  | .acquire => .acquire
  | .release => .release

theorem Seq.sendOrigin_of_togglePos {t : TogglePos} (hi : q.instr = some i) (ht : q.togglePos = some t) :
    q.sendOrigin i = .toggle := by
  cases q with
  | recvByte | toggle =>
    cases hi
    rfl
  | receive =>
    cases hi
    simp [Seq.sendOrigin, ht]
  | idle | send | sendLine | acquire | release => cases ht

/-- A running TOGGLE's micro-step, as the command's or nested in a receive, is its effect and a move of the
sequencer (rules R160 and R210). -/
theorem State.micro_of_togglePos {t : TogglePos} (ht : s.seq.togglePos = some t) :
    ∃ q, s.micro d = (s.toggleEffect d t).thenDo fun u => u.goto q := by
  unfold Seq.togglePos at ht
  split at ht <;> cases ht <;> rename_i hq
  · simp only [State.micro, State.toggleStep, hq, State.thenDo_goto]
    exact ⟨_, rfl⟩
  · simp only [State.micro, State.recvByteStep, hq]
    exact ⟨_, rfl⟩
  · simp only [State.micro, State.receiveStep, hq]
    exact ⟨_, rfl⟩

/-- Where a command's next micro-step is a SEND, the micro-step is that SEND and a move of the sequencer. -/
theorem State.micro_of_sending (hi : s.seq.instr = some i) (hs : s.sending = some p) :
    ∃ q, s.micro d = (s.sendNow d (s.seq.sendOrigin i) p).thenDo fun t => t.goto q := by
  cases ht : s.seq.togglePos with
  | some t =>
    rw [Seq.sendOrigin_of_togglePos hi ht, ← State.toggleEffect_of_sending ht hs]
    exact State.micro_of_togglePos ht
  | none =>
    simp only [State.sending, ht] at hs
    split at hs <;> cases hs
    all_goals
      rename_i hq
      rw [hq] at hi
      cases hi
      simp only [State.micro, State.sendLineStep, State.receiveStep, hq]
      exact ⟨_, rfl⟩

/-- A SEND with a fault in its way is all that its micro-step does, the sequencer staying (rule R240). -/
theorem exec_of_not_sendClear (hf : s.fault = none) (hi : s.seq.instr = some i)
    (hs : s.sending = some p) (hc : ¬s.SendClear p) :
    exec i s = .next (s.sendNow (Config.drawsAt s.drawn) (s.seq.sendOrigin i) p) := by
  obtain ⟨q, hq⟩ := State.micro_of_sending (d := Config.drawsAt s.drawn) hi hs
  rw [exec_running i s hf hi, hq]
  obtain ⟨_, _, -, -, -, he⟩ | ⟨-, -, he⟩ | ⟨-, -, -, he⟩ | ⟨_, _, -, -, -, -, -, he⟩ :=
    s.sendNow_blocked (Config.drawsAt s.drawn) (s.seq.sendOrigin i) p hf hc <;> rw [he] <;> rfl

/-- Settles O26: the micro-step is the SEND, which the mode and the depth let fault in one way only. -/
theorem containedSendFaults : Obligations.ContainedSendFaults := by
  intro s i p o hf hi hs hc ho
  obtain rfl : o = s.seq.sendOrigin i := ho
  rw [exec_of_not_sendClear hf hi hs hc]
  obtain ⟨b, rest, hm, hb, rfl, he⟩ | ⟨hm, hd, he⟩ | ⟨hm, hd, hi', he⟩ |
    ⟨b, q, hm, hd, hi', hb, hq, he⟩ :=
      s.sendNow_blocked (Config.drawsAt s.drawn) (s.seq.sendOrigin i) p hf hc <;> rw [he]
  · exact ⟨fun _ => ⟨b, rest, rfl, hb, rfl⟩, by simp [hm], by simp [hm], by simp [hm]⟩
  · exact ⟨by simp [hm], fun _ _ => rfl, by simp [hd], by simp [hd]⟩
  · exact ⟨by simp [hm], by simp [hd], fun _ _ => ⟨hi', rfl⟩, by simp [hd]⟩
  · exact ⟨by simp [hm], fun _ h => by simp [h] at hd, fun _ h => by simp [h] at hd,
      fun _ _ => ⟨hi', hb, b, q, hq, rfl⟩⟩

/-- Settles O23: SEND is one of the commands that contain a SEND. -/
theorem sendFaults : Obligations.SendFaults := by
  intro s p hf hs
  have hsend : s.sending = some p := by simp [State.sending, hs, Seq.togglePos]
  have hfault (hc : ¬s.SendClear p) :=
    containedSendFaults s (.send p) p .send hf (by rw [hs]; rfl) hsend hc rfl
  refine ⟨fun b rest hm hp hb => ?_, fun hm hd => ?_, fun hm hd hi => ?_, fun b q hm hd hi hb hq => ?_⟩
  · obtain ⟨hpoll, -⟩ := hfault (by simp [State.SendClear, hm, hb, hp])
    obtain ⟨b', rest', hp', -, he⟩ := hpoll hm
    obtain ⟨rfl, -⟩ := List.cons.inj (hp.symm.trans hp')
    exact he
  · obtain ⟨-, hmax, -⟩ := hfault (by simp [State.SendClear, hm, hd])
    exact hmax hm hd
  · obtain ⟨-, -, hnested, -⟩ := hfault (by simp [State.SendClear, hm, hd, hi])
    exact (hnested hm hd).2
  · obtain ⟨-, -, -, hkick⟩ := hfault (by simp [State.SendClear, hm, hi, hb, hq])
    obtain ⟨-, -, b', q', hq', he⟩ := hkick hm hd
    obtain ⟨rfl, rfl⟩ : b = b' ∧ q = q' := by simpa [hq] using hq'
    exact he

/-! ## The sentinel reading -/

/-- Settles O27: the handler's pop consumes the 0x00 and answers nothing, so the burst ends. -/
theorem sentinelEndsBurst : Obligations.SentinelEndsBurst := by
  intro s bs hnul htx hr ht
  have hpop := Ring.pop_contents s.tx s.params.nulIsEmpty
  rw [htx] at hpop
  obtain ⟨hbyte, hrest⟩ : (s.tx.pop s.params.nulIsEmpty).1 = none ∧
      (s.tx.pop s.params.nulIsEmpty).2.contents = bs := by simpa [hnul] using hpop
  rw [s.irqStep_txc hr ht]
  rw [show s.tx.pop s.params.nulIsEmpty = (none, (s.tx.pop s.params.nulIsEmpty).2) from Prod.ext hbyte rfl]
  exact ⟨rfl, hrest⟩

end Sys2Proof.Machine
end

section
/-! Where a running command's micro-step takes the sequencer (rules R37, R141, R143, R160, R161, R164, R165 and R210). -/

namespace Sys2Proof.Machine

variable {s s' u : State} {d : Draws} {i : Instr} {o : Origin} {p w : List Byte} {cap b : Byte}
  {q q' : Seq} {after : SourceNext → Seq}

/-! ## The micro-step at each position -/

theorem State.micro_sendLine_text (hs : s.seq = .sendLine p .text) :
    s.micro d = (s.sendNow d .sendLine p).thenDo fun t => t.goto (.sendLine p .crlf) := by
  simp only [State.micro, State.sendLineStep, hs]

theorem State.micro_sendLine_crlf (hs : s.seq = .sendLine p .crlf) :
    s.micro d = (s.sendNow d .sendLine [cr, lf]).thenDo fun t => t.goto .idle := by
  simp only [State.micro, State.sendLineStep, hs]

theorem State.micro_toggle {t : TogglePos} (hs : s.seq = .toggle t) :
    s.micro d =
      (s.toggleEffect d t).thenDo fun u => u.goto (Seq.afterToggle t (s.toggleEffect d t)) := by
  simp only [State.micro, State.toggleStep, hs, State.thenDo_goto]

theorem State.micro_recvByte_deliver (hs : s.seq = .recvByte (.deliver b)) :
    s.micro d = { s with resByte := b, seq := .idle } := by
  simp only [State.micro, State.recvByteStep, hs, State.goto]

theorem State.micro_receive_echo (hs : s.seq = .receive cap w (.echo b)) :
    s.micro d = (s.sendNow d .receive [b]).thenDo fun t => t.goto (Seq.afterEcho cap w b) := by
  simp only [State.micro, State.receiveStep, hs]

theorem State.micro_receive_echoLf (hs : s.seq = .receive cap w .echoLf) :
    s.micro d = (s.sendNow d .receive [lf]).thenDo fun t => t.goto (.receive cap w .finish) := by
  simp only [State.micro, State.receiveStep, hs]

theorem State.micro_receive_finish (hs : s.seq = .receive cap w .finish) :
    s.micro d = (s.writeResults w).goto .idle := by
  simp only [State.micro, State.receiveStep, hs]

/-- The two receives, each with its origin and with where a micro-step of the byte source takes it
(rules R161, R164 and R165). -/
inductive Receives : Instr → Origin → (SourceNext → Seq) → Prop
  | recvByte : Receives .recvByte .recvByte fun r => .recvByte (RecvPos.after r)
  | receive (cap : Byte) (w : List Byte) :
      Receives (.receive cap) .receive fun r => .receive cap w (ReceivePos.after r)

/-- At a position of the byte source both receives make the source's micro-step (rule R161). -/
theorem Receives.micro (h : Receives i o after) {pos : SourcePos} (hs : s.seq = after (.goOn pos)) :
    s.micro d = (s.sourceStep d o pos).2.thenDo fun u => u.goto (after (s.sourceStep d o pos).1) := by
  cases h with
  | recvByte => simp only [State.micro, State.recvByteStep, hs, RecvPos.after]
  | receive cap w => simp only [State.micro, State.receiveStep, hs, ReceivePos.after]

/-! ## Where it leads -/

/-- The byte source never gets a 0x00 (rule R161). -/
theorem State.sourceStep_ne_nul (s : State) (d : Draws) (o : Origin) (pos : SourcePos) :
    (s.sourceStep d o pos).1 ≠ .got 0#8 := by
  cases pos with
  | hook | toggling => exact nofun
  | attempt =>
    simp only [State.sourceStep, SourceNext.afterAttempt]
    split
    · exact nofun
    · rename_i hb
      exact fun h => hb (SourceNext.got.inj h)

@[simp] theorem State.sourceStep_seq (s : State) (d : Draws) (o : Origin) (pos : SourcePos) :
    (s.sourceStep d o pos).2.seq = s.seq := by
  cases pos with
  | hook => rfl
  | toggling t => exact s.toggleEffect_seq d t
  | attempt => exact s.attempt_seq d o

/-- Where a micro-step that raises no fault takes the sequencer, whatever the rest of the state. -/
inductive SeqTo : Seq → Seq → Prop
  | send (p : List Byte) : SeqTo (.send p) .idle
  | lineText (p : List Byte) : SeqTo (.sendLine p .text) (.sendLine p .crlf)
  | lineEnd (p : List Byte) : SeqTo (.sendLine p .crlf) .idle
  | source {i : Instr} {o : Origin} {after : SourceNext → Seq} (hrec : Receives i o after)
      (pos : SourcePos) (r : SourceNext) (hr : r ≠ .got 0#8) : SeqTo (after (.goOn pos)) (after r)
  | delivers (b : Byte) : SeqTo (.recvByte (.deliver b)) .idle
  | echo (cap : Byte) (w : List Byte) (b : Byte) :
      SeqTo (.receive cap w (.echo b)) (Seq.afterEcho cap w b)
  | echoLf (cap : Byte) (w : List Byte) : SeqTo (.receive cap w .echoLf) (.receive cap w .finish)
  | finishes (cap : Byte) (w : List Byte) : SeqTo (.receive cap w .finish) .idle
  | toggle (t : TogglePos) (u : State) : SeqTo (.toggle t) (Seq.afterToggle t u)
  | acquire : SeqTo .acquire .idle
  | release : SeqTo .release .idle

/-- The sequencer has gone on from `q`, or a fault was raised and it has stayed (log entry 16). -/
def State.SeqFrom (s' : State) (q : Seq) : Prop :=
  SeqTo q s'.seq ∨ (s'.fault ≠ none ∧ s'.seq = q)

theorem SeqTo.thenGoto (h : SeqTo q q') (hu : u.seq = q) :
    (u.thenDo fun t => t.goto q').SeqFrom q := by
  obtain ⟨⟨f, hf⟩, he⟩ | ⟨-, he⟩ := u.thenDo_cases fun t => t.goto q' <;> rw [he]
  · exact .inr ⟨by simp [hf], hu⟩
  · exact .inl h

theorem State.micro_seqFrom (s : State) (d : Draws) (hs : s.seq ≠ .idle) :
    (s.micro d).SeqFrom s.seq := by
  have hsource {i o after pos} (h : Receives i o after) (hq : s.seq = after (.goOn pos)) :
      (s.micro d).SeqFrom (after (.goOn pos)) := by
    rw [h.micro hq]
    exact (SeqTo.source h pos _ (s.sourceStep_ne_nul d o pos)).thenGoto (by simp [hq])
  cases hq : s.seq with
  | idle => exact absurd hq hs
  | send p =>
    rw [State.micro_send hq]
    exact (SeqTo.send p).thenGoto (by simp [hq])
  | sendLine p stage =>
    cases stage with
    | text =>
      rw [State.micro_sendLine_text hq]
      exact (SeqTo.lineText p).thenGoto (by simp [hq])
    | crlf =>
      rw [State.micro_sendLine_crlf hq]
      exact (SeqTo.lineEnd p).thenGoto (by simp [hq])
  | recvByte pos =>
    cases pos with
    | source pos => exact hsource .recvByte hq
    | deliver b =>
      rw [State.micro_recvByte_deliver hq]
      exact .inl (.delivers b)
  | receive cap w pos =>
    cases pos with
    | source pos => exact hsource (.receive cap w) hq
    | echo b =>
      rw [State.micro_receive_echo hq]
      exact (SeqTo.echo cap w b).thenGoto (by simp [hq])
    | echoLf =>
      rw [State.micro_receive_echoLf hq]
      exact (SeqTo.echoLf cap w).thenGoto (by simp [hq])
    | finish =>
      rw [State.micro_receive_finish hq]
      exact .inl (.finishes cap w)
  | toggle t =>
    rw [State.micro_toggle hq]
    exact (SeqTo.toggle t _).thenGoto (by simp [hq])
  | acquire =>
    rw [State.micro_acquire hq]
    obtain ⟨_, _, he⟩ := s.acquire_shape .acquire
    exact SeqTo.acquire.thenGoto (by simp [he, hq])
  | release =>
    rw [State.micro_release hq]
    obtain ⟨_, _, he⟩ := s.release_shape .release
    exact SeqTo.release.thenGoto (by simp [he, hq])

/-- To keep a law of the sequencer alone, a step need only meet it at every intake and keep it from each
position to the next. -/
theorem step_keeps_seq {P : Seq → Prop} (hstart : ∀ m i, P (Seq.start m i))
    (hto : ∀ q q', SeqTo q q' → P q → P q') (env : Nat → Draws) (s s' : State) (hp : P s.seq)
    (h : step s = .next s' ∨ stepUnder env s = .next s') : P s'.seq := by
  obtain ⟨env', h⟩ := stepUnder_of_step env s s' h
  refine stepUnder_keeps (fun s => P s.seq) (fun _ h => h) (fun d s m s' _ hp hmove => ?_) env' s s' hp h
  cases hmove with
  | irq => rwa [s.irqStep_seq]
  | micro _ hs =>
    obtain hnext | ⟨-, he⟩ := s.micro_seqFrom d hs
    · exact hto _ _ hnext hp
    · rwa [he]
  | intake i => exact hstart s.mode i
  | illegal | rxComplete | txComplete | lineLoss | wait => exact hp

end Sys2Proof.Machine
end

section
/-! The byte source's filter and RECEIVE's capacity, as laws of the sequencer (rules R161 and R165). -/

namespace Sys2Proof.Machine

variable {q q' : Seq} {cap : Byte} {w : List Byte}

/-- RECEIVE's loop goes on at its end or at the hook. -/
theorem ReceivePos.loopHead_cases (cap : Byte) (w : List Byte) :
    (w.length = cap.toNat ∧ ReceivePos.loopHead cap w = .finish) ∨
      (w.length ≠ cap.toNat ∧ ReceivePos.loopHead cap w = .source .hook) := by
  unfold ReceivePos.loopHead
  split
  · exact .inl ⟨‹_›, rfl⟩
  · exact .inr ⟨‹_›, rfl⟩

theorem Seq.gotNonZero_loopHead (cap : Byte) (w : List Byte) :
    (Seq.receive cap w (ReceivePos.loopHead cap w)).GotNonZero := by
  obtain ⟨-, he⟩ | ⟨-, he⟩ := ReceivePos.loopHead_cases cap w <;> simp only [he, Seq.GotNonZero]

theorem Seq.bufferFits_loopHead (h : w.length ≤ cap.toNat) :
    (Seq.receive cap w (ReceivePos.loopHead cap w)).BufferFits := by
  obtain ⟨hlen, he⟩ | ⟨hlen, he⟩ := ReceivePos.loopHead_cases cap w <;>
    simp only [he, Seq.BufferFits] <;> omega

/-- Intake leads to no byte got, and to an empty working buffer. -/
theorem Seq.start_lawful (m : Mode) (i : Instr) :
    (Seq.start m i).GotNonZero ∧ (Seq.start m i).BufferFits := by
  cases i with
  | send p =>
    rw [Seq.start, Seq.sendStart]
    split <;> exact ⟨trivial, trivial⟩
  | receive cap => exact ⟨Seq.gotNonZero_loopHead cap [], Seq.bufferFits_loopHead (Nat.zero_le _)⟩
  | sendLine | recvByte | toggle | acquire | release => exact ⟨trivial, trivial⟩

theorem SeqTo.gotNonZero (h : SeqTo q q') : q'.GotNonZero := by
  cases h with
  | source hrec pos r hr =>
    cases r with
    | goOn => cases hrec <;> trivial
    | got b =>
      have hb : b ≠ 0#8 := fun h => hr (congrArg _ h)
      cases hrec <;> exact hb
  | echo cap w b =>
    unfold Seq.afterEcho
    split
    · trivial
    · exact Seq.gotNonZero_loopHead cap (w ++ [b])
  | toggle t u =>
    unfold Seq.afterToggle
    split <;> trivial
  | send | lineText | lineEnd | delivers | echoLf | finishes | acquire | release => trivial

theorem SeqTo.keeps_bufferFits (h : SeqTo q q') (hq : q.BufferFits) : q'.BufferFits := by
  cases h with
  | source hrec pos r =>
    cases hrec with
    | recvByte => cases r <;> trivial
    | receive cap w => cases r <;> exact hq
  | echo cap w b =>
    have hlt : w.length < cap.toNat := hq
    unfold Seq.afterEcho
    split
    · exact Nat.le_of_lt hlt
    · exact Seq.bufferFits_loopHead (by simpa using hlt)
  | toggle t u =>
    unfold Seq.afterToggle
    split <;> trivial
  | echoLf => exact hq
  | send | lineText | lineEnd | delivers | finishes | acquire | release => trivial

/-- Settles O33: the byte source filters 0x00, and nothing else leads to a byte got. -/
theorem stepKeepsReceivedByteNonZero : Obligations.StepKeepsReceivedByteNonZero :=
  step_keeps_seq (fun m i => (Seq.start_lawful m i).1) fun _ _ h _ => h.gotNonZero

/-- Settles O36: a byte is fetched only where there is room for it, and it is the one byte stored. -/
theorem stepKeepsReceiveBufferFits : Obligations.StepKeepsReceiveBufferFits :=
  step_keeps_seq (fun m i => (Seq.start_lawful m i).2) fun _ _ h => h.keeps_bufferFits

end Sys2Proof.Machine
end

section
/-! The bounded commands (rule R166). -/

namespace Sys2Proof.Machine

variable {env : Nat → Draws} {s s' : State} {i : Instr} {q q' : Seq} {n bound : Nat}

theorem LineStage.remaining_bounds (stage : LineStage) : 1 ≤ stage.remaining ∧ stage.remaining ≤ 2 := by
  cases stage <;> decide

theorem TogglePos.remaining_bounds (t : TogglePos) : 1 ≤ t.remaining ∧ t.remaining ≤ 7 := by
  cases t with
  | onLine stage | offLine stage =>
    have := stage.remaining_bounds
    simp only [TogglePos.remaining]
    omega
  | _ => decide

/-- Each micro-step of a TOGGLE leaves fewer (rules R210 to R212). -/
theorem TogglePos.remaining_next_lt {t t' : TogglePos} (h : t.next s = some t') :
    t'.remaining < t.remaining := by
  cases t with
  | flip =>
    cases hm : s.mode
    all_goals
      simp only [TogglePos.next, hm] at h
      cases h
      decide
  | prime | drain =>
    cases h
    have := LineStage.remaining_bounds
    simp only [TogglePos.remaining]
    exact Nat.lt_succ_of_le (this _).2
  | onLine stage | offLine stage =>
    cases stage with
    | text =>
      cases h
      decide
    | crlf => cases h
  | enableLine | abortRx | disableLine | clearInFlight =>
    cases h
    decide

/-- The rank of a command's position is at least 1 and at most the command's bound. -/
theorem Seq.remaining_bounds (hi : q.instr = some i) (hb : i.stepBound = some bound) :
    ∃ n, q.remaining = some n ∧ 1 ≤ n ∧ n ≤ bound := by
  cases q with
  | idle => cases hi
  | recvByte | receive =>
    cases hi
    cases hb
  | sendLine p stage =>
    cases hi
    cases hb
    exact ⟨_, rfl, stage.remaining_bounds⟩
  | toggle t =>
    cases hi
    cases hb
    exact ⟨_, rfl, t.remaining_bounds⟩
  | send | acquire | release =>
    cases hi
    cases hb
    exact ⟨1, rfl, le_rfl, le_rfl⟩

theorem Seq.remaining_pos (hq : q ≠ .idle) (hn : q.remaining = some n) : 1 ≤ n := by
  cases q with
  | idle => exact absurd rfl hq
  | recvByte | receive => cases hn
  | sendLine p stage =>
    cases hn
    exact stage.remaining_bounds.1
  | toggle t =>
    cases hn
    exact t.remaining_bounds.1
  | send | acquire | release =>
    cases hn
    exact le_rfl

/-- Going on lowers the rank. -/
theorem SeqTo.remaining_lt (h : SeqTo q q') (hn : q.remaining = some n) :
    ∃ m, m < n ∧ q'.remaining = some m := by
  cases h with
  | source hrec => cases hrec <;> cases hn
  | delivers | echo | echoLf | finishes => cases hn
  | lineText =>
    cases hn
    exact ⟨1, by decide, rfl⟩
  | toggle t u =>
    cases hn
    unfold Seq.afterToggle
    split
    · exact ⟨_, TogglePos.remaining_next_lt ‹_›, rfl⟩
    · exact ⟨0, t.remaining_bounds.1, rfl⟩
  | send | lineEnd | acquire | release =>
    cases hn
    exact ⟨0, by decide, rfl⟩

theorem stepUnder_remaining (h : stepUnder env s = .next s') (hs : s.seq ≠ .idle)
    (hn : s.seq.remaining = some n) :
    (s.makes env .foreground → s'.fault ≠ none ∨ ∃ m, m < n ∧ s'.seq.remaining = some m) ∧
      (¬s.makes env .foreground → s'.seq = s.seq) := by
  obtain ⟨hf, ⟨hmoves, rfl⟩ | ⟨m, s1, hm, hs1, hmove⟩⟩ := stepUnder_cases env s s' h
  · refine ⟨fun hmake => ?_, fun _ => rfl⟩
    simp [State.makes, State.moveUnder, State.schedule, hmoves] at hmake
  have hseq : s1.seq = s.seq ∧ s1.fault = none := by obtain rfl | rfl := hs1 <;> exact ⟨rfl, hf⟩
  have hmakes : s.makes env .foreground ↔ m = .foreground := by simp [State.makes, hm]
  rw [hmakes, ← hseq.1]
  rw [← hseq.1] at hs hn
  refine ⟨?_, fun hne => ((hmove.fieldWrites hseq.2).keeps_seq_port hne).1⟩
  rintro rfl
  cases hmove with
  | micro =>
    obtain hnext | ⟨hfault, -⟩ := s1.micro_seqFrom (env s1.drawn) hs
    · exact .inr (hnext.remaining_lt hn)
    · exact .inl hfault
  | intake _ _ _ hidle | illegal _ _ _ hidle => exact absurd hidle hs

/-- While the command runs, FG's steps so far and the rank together keep within the bound. -/
theorem count_add_remaining_le {r : Nat → State} {len : Nat} {made : Finset Nat}
    (hrun : ∀ k, k < len → stepUnder env (r k) = .next (r (k + 1)) ∧ (r k).seq ≠ .idle)
    (hi : (r 0).seq.instr = some i) (hb : i.stepBound = some bound)
    (hmade : ∀ k, k ∈ made → k < len ∧ (r k).makes env .foreground) (k : Nat) (hk : k < len) :
    ∃ n, (r k).seq.remaining = some n ∧ Nat.count (· ∈ made) k + n ≤ bound := by
  induction k with
  | zero =>
    obtain ⟨n, hn, -, hle⟩ := Seq.remaining_bounds hi hb
    exact ⟨n, hn, by simpa using hle⟩
  | succ k ih =>
    obtain ⟨n, hn, hle⟩ := ih (by omega)
    obtain ⟨hstep, hne⟩ := hrun k (by omega)
    obtain ⟨hfg, hother⟩ := stepUnder_remaining hstep hne hn
    rw [Nat.count_succ]
    by_cases hfgk : (r k).makes env .foreground
    · obtain hfault | ⟨m, hlt, hm⟩ := hfg hfgk
      · exact absurd (stepUnder_cases env _ _ (hrun (k + 1) hk).1).1 hfault
      · refine ⟨m, hm, ?_⟩
        split <;> omega
    · have hnot : k ∉ made := fun hmem => hfgk (hmade k hmem).2
      exact ⟨n, by rw [hother hfgk, hn], by simpa [hnot] using hle⟩

/-- Settles O50: FG's moves of a run are counted against the rank, which each lowers. -/
theorem boundedCommands : Obligations.BoundedCommands := by
  refine ⟨fun q i bound => Seq.remaining_bounds, fun env s s' n => stepUnder_remaining,
    fun env r i bound len made hrun hi hb hmade => ?_⟩
  have hcard : made.card = Nat.count (· ∈ made) len := by
    rw [Nat.count_eq_card_filter_range]
    congr 1
    ext k
    simpa using fun hmem => (hmade k hmem).1
  rw [hcard]
  cases len with
  | zero => simp
  | succ k =>
    obtain ⟨n, hn, hle⟩ := count_add_remaining_le hrun hi hb hmade k k.lt_succ_self
    have hpos : 1 ≤ n := Seq.remaining_pos (hrun k k.lt_succ_self).2 hn
    rw [Nat.count_succ]
    split <;> omega

end Sys2Proof.Machine
end

section
/-! The byte source's micro-steps, in RECV_BYTE and in RECEIVE (rules R160 to R162). -/

namespace Sys2Proof.Machine

variable {s : State} {d : Draws} {i : Instr} {o : Origin} {after : SourceNext → Seq} {pos : SourcePos}

theorem Receives.instr (h : Receives i o after) (r : SourceNext) : (after r).instr = some i := by
  cases h <;> rfl

/-- A command's move at a position of the byte source is the source's micro-step (rule R161). -/
theorem Receives.execUnder_eq (h : Receives i o after) (env : Nat → Draws) (hf : s.fault = none)
    (hs : s.seq = after (.goOn pos)) :
    execUnder env i s = .next ((s.sourceStep (env s.drawn) o pos).2.thenDo fun u =>
      u.goto (after (s.sourceStep (env s.drawn) o pos).1)) := by
  rw [execUnder_running env i s hf (by rw [hs, h.instr]), h.micro hs]

/-! ## The hook -/

/-- The hook's micro-step changes the sequencer and the count of free values alone (rule R160). -/
theorem Receives.execUnder_hook (h : Receives i o after) (env : Nat → Draws) (hf : s.fault = none)
    (hs : s.seq = after (.goOn .hook)) :
    execUnder env i s = .next { s with
      drawn := s.drawn + 1, seq := after (.goOn (SourcePos.afterHook (env s.drawn).hook)) } := by
  rw [h.execUnder_eq env hf hs]
  exact congrArg _ (s.drew.thenDo_of_none _ hf)

theorem SourcePos.afterHook_cases (toggles : Bool) :
    SourcePos.afterHook toggles = .attempt ∨ SourcePos.afterHook toggles = .toggling .flip := by
  cases toggles
  · exact .inl rfl
  · exact .inr rfl

/-- A draw under which the hook gives the answer that leads to the position. -/
def drawHook (pos : SourcePos) : Draws :=
  { pick := 0, sent := 0, take := false, hook := decide (pos ≠ .attempt) }

theorem SourcePos.afterHook_drawHook (hpos : pos = .attempt ∨ pos = .toggling .flip) :
    SourcePos.afterHook (drawHook pos).hook = pos := by
  obtain rfl | rfl := hpos <;> rfl

/-- Both answers of the hook are possible, and one of them is given (rules R160 and R273). -/
theorem Receives.hook_answers (h : Receives i o after) (hf : s.fault = none)
    (hs : s.seq = after (.goOn .hook)) :
    (∃ pos, (pos = .attempt ∨ pos = .toggling .flip) ∧
      exec i s = .next { s with drawn := s.drawn + 1, seq := after (.goOn pos) }) ∧
    ∀ pos, (pos = .attempt ∨ pos = .toggling .flip) → ∃ d, execUnder (fun _ => d) i s =
      .next { s with drawn := s.drawn + 1, seq := after (.goOn pos) } := by
  refine ⟨⟨_, SourcePos.afterHook_cases (Config.drawsAt s.drawn).hook, ?_⟩, fun pos hpos =>
    ⟨drawHook pos, ?_⟩⟩
  · rw [exec_eq_execUnder, h.execUnder_hook _ hf hs]
  · rw [h.execUnder_hook _ hf hs, SourcePos.afterHook_drawHook hpos]

/-- Settles O28: the hook's micro-step is one draw, in either receive. -/
theorem hookAnswers : Obligations.HookAnswers := fun _ cap w hf =>
  ⟨Receives.recvByte.hook_answers hf, (Receives.receive cap w).hook_answers hf⟩

/-! ## The nested TOGGLE -/

/-- The position a nested TOGGLE is at, where the command's own sequencer is at `q`. -/
def SourcePos.nested : Seq → SourcePos
  | .toggle t => .toggling t
  | _ => .attempt

theorem SourcePos.nested_afterToggle (t : TogglePos) (u : State) :
    SourcePos.nested (Seq.afterToggle t u) = SourcePos.afterToggle t u := by
  cases h : t.next u with
  | some t' => simp only [Seq.afterToggle, SourcePos.afterToggle, SourcePos.nested, h]
  | none => simp only [Seq.afterToggle, SourcePos.afterToggle, SourcePos.nested, h]

theorem Seq.afterToggle_withSeq (q : Seq) (t : TogglePos) (u : State) :
    Seq.afterToggle t { u with seq := q } = Seq.afterToggle t u := by
  simp only [Seq.afterToggle, TogglePos.next_withSeq]

/-- After one effect the nested TOGGLE's sequencer goes where the command's does, or stays with it at a
fault (rules R160 and R240). -/
theorem State.thenGoto_nested (u : State) (t : TogglePos) (c : SourcePos → Seq)
    (hu : u.seq = c (.toggling t)) :
    (u.thenDo fun v => v.goto (c (SourcePos.afterToggle t u))) =
      { ({ u with seq := .toggle t } : State).thenDo fun v => v.goto (Seq.afterToggle t u) with
        seq := c (SourcePos.nested
          (({ u with seq := .toggle t } : State).thenDo fun v => v.goto (Seq.afterToggle t u)).seq) } := by
  unfold State.thenDo
  dsimp only
  split
  · simp only [SourcePos.nested, ← hu]
  · simp only [State.goto, SourcePos.nested_afterToggle]

/-- What the TOGGLE command's micro-step makes of a state, the nested one makes of it (rule R160). -/
theorem Receives.exec_toggling (h : Receives i o after) {t : State} {pos : TogglePos}
    (hf : s.fault = none) (ht : exec .toggle { s with seq := .toggle pos } = .next t)
    (hs : s.seq = after (.goOn (.toggling pos))) :
    exec i s = .next { t with seq := after (.goOn (SourcePos.nested t.seq)) } := by
  rw [exec_running .toggle { s with seq := .toggle pos } hf rfl, State.micro_toggle rfl] at ht
  obtain rfl := Host.Outcome.next.inj ht
  have hu : (s.toggleEffect (Config.drawsAt s.drawn) pos).seq = after (.goOn (.toggling pos)) := by
    rw [s.toggleEffect_seq, hs]
  rw [exec_eq_execUnder, h.execUnder_eq _ hf hs, State.toggleEffect_withSeq, Seq.afterToggle_withSeq]
  exact congrArg _ (State.thenGoto_nested _ pos (fun p => after (.goOn p)) hu)

/-- Settles O29: a TOGGLE's effect does not read the sequencer. -/
theorem nestedToggleRunsAsToggle : Obligations.NestedToggleRunsAsToggle := fun _ _ _ cap w hf ht =>
  ⟨Receives.recvByte.exec_toggling hf ht, (Receives.receive cap w).exec_toggling hf ht⟩

/-! ## The attempt -/

/-- A 0x00 leads back to the hook, any other byte has been got (rule R161). -/
theorem SourceNext.after_afterAttempt (after : SourceNext → Seq) (b : Byte) :
    after (SourceNext.afterAttempt b) = if b = 0#8 then after (.goOn .hook) else after (.got b) :=
  apply_ite after _ _ _

theorem State.attempt_interrupt (hm : s.mode = .interrupt) : s.attempt d o = s.attemptInterrupt o := by
  simp only [State.attempt, hm]

/-- An attempt in interrupt mode, in either receive (rule R162). -/
theorem Receives.exec_attempt_interrupt (h : Receives i o after) (hf : s.fault = none)
    (hm : s.mode = .interrupt) (hs : s.seq = after (.goOn .attempt)) :
    (s.depth = 255#8 → exec i s = .next { s with fault := some (.guardOverflow o) }) ∧
    (s.depth ≠ 255#8 → exec i s = .next { s with
      rx := (s.rx.pop s.params.nulIsEmpty).2,
      seq := after (SourceNext.afterAttempt (s.rx.contents.headD 0#8)) }) := by
  rw [exec_eq_execUnder, h.execUnder_eq _ hf hs, State.sourceStep, State.attempt_interrupt hm]
  refine ⟨fun hd => ?_, fun hd => ?_⟩
  · rw [s.attemptInterrupt_max o hd, State.thenDo_of_some _ _ rfl, State.raise]
  · rw [s.attemptInterrupt_eq o hf hd, Ring.pop_getD]
    exact congrArg _ (State.thenDo_of_none { s with rx := (s.rx.pop s.params.nulIsEmpty).2 } _ hf)

/-- The attempt's position in either receive, as the statements spell it out. -/
theorem Receives.of_attempt {again : Seq} {got : Byte → Seq} (hi : s.seq.instr = some i)
    (h : (s.seq = .recvByte (.source .attempt) ∧ o = .recvByte ∧
        again = .recvByte (.source .hook) ∧ got = fun b => .recvByte (.deliver b)) ∨
      ∃ cap filled, s.seq = .receive cap filled (.source .attempt) ∧ o = .receive ∧
        again = .receive cap filled (.source .hook) ∧
        got = fun b => .receive cap filled (.echo b)) :
    ∃ after, Receives i o after ∧ s.seq = after (.goOn .attempt) ∧ again = after (.goOn .hook) ∧
      got = fun b => after (.got b) := by
  obtain ⟨hs, rfl, rfl, rfl⟩ | ⟨cap, w, hs, rfl, rfl, rfl⟩ := h <;> rw [hs] at hi <;> cases hi
  · exact ⟨_, .recvByte, hs, rfl, rfl⟩
  · exact ⟨_, .receive cap w, hs, rfl, rfl⟩

/-- Settles O30: the attempt is a guarded pop, which reads the oldest byte held, or 0x00 for none. -/
theorem interruptAttempt : Obligations.InterruptAttempt := by
  intro s i o again got hf hm hi hpos
  obtain ⟨after, h, hs, rfl, rfl⟩ := Receives.of_attempt hi hpos
  obtain ⟨hmax, hpop⟩ := h.exec_attempt_interrupt hf hm hs
  refine ⟨hmax, fun hd hnil => ?_, fun b bs hd hcons => ?_⟩
  · have hempty := (Ring.contents_eq_nil_iff s.rx).1 hnil
    rw [hpop hd, hnil, Ring.pop_empty _ _ hempty]
    rfl
  · have hheld : s.rx.isEmpty = false := by
      simp [← Bool.not_eq_true, ← Ring.contents_eq_nil_iff, hcons]
    rw [hpop hd, hcons, Ring.pop_ring _ _ hheld, SourceNext.after_afterAttempt after]
    rfl

end Sys2Proof.Machine
end

section
/-! The ends of the two receives and RECEIVE's echo (rules R164 and R165). -/

namespace Sys2Proof.Machine

variable {w : List Byte}

/-- Settles O32: the micro-step is that write. -/
theorem recvByteDelivers : Obligations.RecvByteDelivers := by
  intro s b hf hs
  rw [exec_running .recvByte s hf (by rw [hs]; rfl), State.micro_recvByte_deliver hs]

/-- Where the echo leads, by the byte and by the room left (rule R165). -/
theorem Seq.afterEcho_eq (cap : Byte) (w : List Byte) (b : Byte) :
    Seq.afterEcho cap w b =
      if b = cr then .receive cap w .echoLf
      else if w.length + 1 = cap.toNat then .receive cap (w ++ [b]) .finish
      else .receive cap (w ++ [b]) (.source .hook) := by
  rw [Seq.afterEcho, ReceivePos.loopHead, List.length_append, List.length_singleton,
    apply_ite (Seq.receive cap (w ++ [b]))]

/-- Settles O34: each of the two micro-steps is one SEND. -/
theorem receiveEchoes : Obligations.ReceiveEchoes := by
  intro s cap w b hf
  refine ⟨fun hs hc => ?_, fun hs hc => ?_⟩
  · rw [← Seq.afterEcho_eq]
    exact exec_of_sendClear hf (by rw [hs]; rfl) hc fun _ => State.micro_receive_echo hs
  · exact exec_of_sendClear hf (by rw [hs]; rfl) hc fun _ => State.micro_receive_echoLf hs

/-- What the host reads after the results are written is what was collected (rules R36 and R79). -/
theorem State.resultBytes_writeResults (s : State) (h : w.length ≤ 255) :
    (s.writeResults w).resultBytes = w := by
  simp only [State.resultBytes, State.writeResults, toNat_length_byte h]
  exact overwritePrefix_take s.resBuf w h

/-- Settles O35: the results overwrite the first slots of `res_buf`, and only those. -/
theorem receiveFinishes : Obligations.ReceiveFinishes := by
  intro s cap w hf hs hw
  refine ⟨overwritePrefix s.resBuf w, ?_, s.resultBytes_writeResults hw,
    overwritePrefix_of_le s.resBuf w⟩
  rw [exec_running _ s hf (by rw [hs]; rfl), State.micro_receive_finish hs]
  rfl

/-- A RECEIVE at the port, by its two bytes (rule R72). -/
theorem decode_receive (cap : Byte) (rest : List Byte) :
    decode (4#8 :: cap :: rest) = .command (.receive cap) rest :=
  decodeOfEncode (.receive cap) rest rfl

theorem overwritePrefix_nil (buf : Vector Byte 255) : overwritePrefix buf [] = buf :=
  Vector.ext fun j hj => overwritePrefix_of_le buf [] j hj (Nat.zero_le j)

/-- Settles O37: intake finds the buffer full, and the results of nothing are written. -/
theorem receiveZeroCapacity : Obligations.ReceiveZeroCapacity := by
  intro env s rest hf hs hport
  have hdec : decode s.port = .command (.receive 0#8) rest := by rw [hport, decode_receive]
  have hintake : s.foregroundMove (execUnder env) =
      .next { s with port := rest, seq := .receive 0#8 [] .finish } :=
    foregroundMove_intake env s _ rest hf hs hdec
  have hfinish : ({ s with port := rest, seq := .receive 0#8 [] .finish } : State).foregroundMove
      (execUnder env) = .next (({ s with port := rest } : State).writeResults []) := by
    rw [foregroundMove_running env { s with port := rest, seq := .receive 0#8 [] .finish } hf nofun,
      State.micro_receive_finish rfl, ← hs]
    rfl
  refine ⟨⟨({ s with port := rest } : State).writeResults [], ?_, rfl, overwritePrefix_nil s.resBuf⟩,
    fun hdel j hj => ?_⟩
  · rw [foregroundRun_succ env 1 _ _ hintake, foregroundRun_succ env 0 _ _ hfinish]
    rfl
  · have hfree : s.deliverable .rxc = false ∧ s.deliverable .txc = false := by
      simpa [State.anyDeliverable] using hdel
    obtain rfl | rfl : j = 0 ∨ j = 1 := by omega
    · exact ⟨s, rfl, State.enabled_foreground.2 ⟨hf, hfree.1, hfree.2, .inr (by simp [hdec])⟩⟩
    · exact ⟨_, foregroundRun_succ env 0 _ _ hintake,
        State.enabled_foreground.2 ⟨hf, hfree.1, hfree.2, .inl nofun⟩⟩

end Sys2Proof.Machine
end

section
/-! The round trip of a line through a polling RECEIVE (rule R165, 95_test_vectors.md L1-4). -/

namespace Sys2Proof.Machine

variable {env : Nat → Draws} {s t u : State} {d : Draws} {cap b : Byte} {w line rest more : List Byte}
  {q : Seq} {j k : Nat}

/-! ## Runs up to the count of free values -/

/-- `k` steps lead from `s` to `t`, whatever count of free values they leave. -/
def Reaches (env : Nat → Draws) (k : Nat) (s t : State) : Prop :=
  ∃ n, runUnder env k s = .next { t with drawn := n }

theorem runUnder_add (h : runUnder env j s = .next t) : runUnder env (j + k) s = runUnder env k t := by
  induction j generalizing s with
  | zero =>
    cases h
    rw [Nat.zero_add]
  | succ j ih =>
    cases hstep : stepUnder env s with
    | next s1 =>
      rw [runUnder_succ env j s s1 hstep] at h
      rw [Nat.succ_add, runUnder_succ env (j + k) s s1 hstep, ih h]
    | fault | refused => simp [runUnder, hstep] at h

theorem Reaches.trans (h : Reaches env j s t) (h' : ∀ n, Reaches env k { t with drawn := n } u) :
    Reaches env (j + k) s u := by
  obtain ⟨n, hn⟩ := h
  obtain ⟨n', hn'⟩ := h' n
  exact ⟨n', (runUnder_add hn).trans hn'⟩

/-! ## FG alone in polling mode -/

/-- Polling at rest: FG is the only agent beside PER's loss step that can have a move. -/
structure State.FgOnly (s : State) : Prop where
  fault : s.fault = none
  mode : s.mode = .polling
  lineEn : s.lineEn = false
  perRxArmed : s.perRxArmed = false
  perTxBusy : s.perTxBusy = false

/-- A quiet hook, no time-out, and the first of two moves. -/
structure Delivers (d : Draws) : Prop where
  hook : d.hook = false
  take : d.take = true
  sent : d.sent % 2 = 1
  pick : d.pick % 2 = 0

theorem State.FgOnly.withDrawn (h : s.FgOnly) (n : Nat) : ({ s with drawn := n } : State).FgOnly := { h with }

theorem State.FgOnly.enabled_foreground (h : s.FgOnly) :
    s.enabled .foreground = true ↔ s.seq ≠ .idle ∨ decode s.port ≠ .incomplete := by
  simp [State.enabled_foreground, State.deliverable, h.fault, h.lineEn]

/-- With the line disabled and nothing outstanding, FG's move is the first of those enabled, and the only
one besides a loss. -/
theorem State.FgOnly.moves (h : s.FgOnly) (hfg : s.enabled .foreground = true) :
    s.moves = .foreground :: [Move.lineLoss].filter s.enabled := by
  have hirq : s.enabled .irq = false := by
    simp [State.enabled, State.anyDeliverable, State.deliverable, h.lineEn]
  have hrx : s.enabled .rxComplete = false := by simp [State.enabled, h.perRxArmed]
  have htx : s.enabled .txComplete = false := by simp [State.enabled, h.perTxBusy]
  have hwait : s.enabled .wait = false := by
    rw [← Bool.not_eq_true, State.enabled_wait]
    exact fun hw => by simp [hw.2 .foreground nofun nofun] at hfg
  simp [State.moves, List.filter_cons, hfg, hirq, hrx, htx, hwait]

/-- Where the environment picks the first of two moves, the step is FG's move, at most after a draw. -/
theorem State.FgOnly.step (h : s.FgOnly) (henv : Delivers (env s.drawn))
    (hfg : s.enabled .foreground = true) :
    ∃ n, stepUnder env s = ({ s with drawn := n } : State).foregroundMove (execUnder env) := by
  have hmove : (s.schedule (env s.drawn)).map Prod.fst = some .foreground := by
    rw [State.schedule_fst, h.moves hfg]
    cases hl : s.enabled .lineLoss with
    | true => simp [hl, henv.pick]
    | false => simp [hl, Nat.mod_one]
  obtain ⟨⟨m, s1⟩, hsch, rfl : m = .foreground⟩ := Option.map_eq_some_iff.1 hmove
  rw [stepUnder_foreground env s s1 h.fault hsch]
  obtain rfl | rfl := (s.schedule_some _ _ _ hsch).2
  · exact ⟨s1.drawn, rfl⟩
  · exact ⟨s.drawn + 1, rfl⟩

/-! ## RECEIVE's micro-steps in polling mode -/

/-- The quiet hook leads to the attempt (rule R160). -/
theorem State.FgOnly.micro_hook (h : s.FgOnly) (hd : Delivers d)
    (hs : s.seq = .receive cap w (.source .hook)) :
    s.micro d = { s with drawn := s.drawn + 1, seq := .receive cap w (.source .attempt) } := by
  rw [(Receives.receive cap w).micro hs, State.sourceStep, hd.hook]
  exact State.thenDo_of_none _ _ h.fault

/-- An attempt with a byte on the line takes it (rules R163 and R270). -/
theorem State.FgOnly.micro_attempt (h : s.FgOnly) (hd : Delivers d)
    (hs : s.seq = .receive cap w (.source .attempt)) (hl : s.lineIn = b :: rest) (hb : b ≠ 0#8) :
    s.micro d = { s with
      drawn := s.drawn + 1, lineIn := rest, seq := .receive cap w (.echo b) } := by
  have hattempt : s.attempt d .receive = (b, { s with drawn := s.drawn + 1, lineIn := rest }) := by
    simp [State.attempt, State.blockingReceive, State.drew, h.mode, h.perRxArmed, hl, hd.take]
  rw [(Receives.receive cap w).micro hs, State.sourceStep, hattempt, SourceNext.afterAttempt, if_neg hb]
  exact State.thenDo_of_none { s with drawn := s.drawn + 1, lineIn := rest } _ h.fault

/-- A SEND of one byte puts it on the line (rule R142). -/
theorem State.FgOnly.sendNow_then_goto (h : s.FgOnly) (hd : Delivers d) (o : Origin) :
    ((s.sendNow d o [b]).thenDo fun t => t.goto q) =
      { s with drawn := s.drawn + 1, lineOut := s.lineOut ++ [b], seq := q } := by
  have hclear : s.SendClear [b] := by simp [State.SendClear, h.mode, h.perTxBusy]
  rw [State.sendNow_then_goto s d o [b] q h.fault hclear]
  simp [State.afterSend, h.mode, hd.sent]

theorem State.FgOnly.micro_echo (h : s.FgOnly) (hd : Delivers d) (hs : s.seq = .receive cap w (.echo b)) :
    s.micro d =
      { s with drawn := s.drawn + 1, lineOut := s.lineOut ++ [b], seq := Seq.afterEcho cap w b } := by
  rw [State.micro_receive_echo hs, h.sendNow_then_goto hd]

theorem State.FgOnly.micro_echoLf (h : s.FgOnly) (hd : Delivers d) (hs : s.seq = .receive cap w .echoLf) :
    s.micro d =
      { s with drawn := s.drawn + 1, lineOut := s.lineOut ++ [lf], seq := .receive cap w .finish } := by
  rw [State.micro_receive_echoLf hs, h.sendNow_then_goto hd]

/-! ## The run -/

section
variable (h : s.FgOnly) (henv : ∀ n, Delivers (env n))
include h henv

/-- One step of a running command, by what its micro-step makes of the state. -/
theorem State.FgOnly.reaches_micro (hs : s.seq ≠ .idle)
    (hmicro : ∀ n, ∃ n', ({ s with drawn := n } : State).micro (env n) = { t with drawn := n' }) :
    Reaches env 1 s t := by
  obtain ⟨n, hn⟩ := h.step (henv _) (h.enabled_foreground.2 (.inl hs))
  obtain ⟨n', hn'⟩ := hmicro n
  rw [foregroundMove_running env { s with drawn := n } h.fault hs, hn'] at hn
  exact ⟨n', runUnder_succ env 0 s _ hn⟩

theorem State.FgOnly.reaches_intake (hs : s.seq = .idle) (hport : s.port = [4#8, cap]) :
    Reaches env 1 s { s with port := [], seq := .receive cap [] (ReceivePos.loopHead cap []) } := by
  have hdec : decode s.port = .command (.receive cap) [] := by rw [hport, decode_receive]
  obtain ⟨n, hn⟩ := h.step (henv _) (h.enabled_foreground.2 (.inr (by simp [hdec])))
  rw [foregroundMove_intake env { s with drawn := n } _ _ h.fault hs hdec] at hn
  exact ⟨n, runUnder_succ env 0 s _ hn⟩

/-- The hook, the attempt and the echo of one byte. -/
theorem State.FgOnly.reaches_byte (hs : s.seq = .receive cap w (.source .hook))
    (hl : s.lineIn = b :: rest) (hb : b ≠ 0#8) :
    Reaches env 3 s { s with
      lineIn := rest, lineOut := s.lineOut ++ [b], seq := Seq.afterEcho cap w b } := by
  have hhook : Reaches env 1 s { s with seq := .receive cap w (.source .attempt) } :=
    h.reaches_micro henv (by simp [hs]) fun n =>
      ⟨n + 1, (h.withDrawn n).micro_hook (henv n) hs⟩
  refine (hhook.trans fun n => ?_ : Reaches env (1 + 2) s _)
  have ha : ({ s with drawn := n, seq := .receive cap w (.source .attempt) } : State).FgOnly := { h with }
  have hattempt : Reaches env 1 _ { s with lineIn := rest, seq := .receive cap w (.echo b) } :=
    ha.reaches_micro henv nofun fun n =>
      ⟨n + 1, (ha.withDrawn n).micro_attempt (henv n) rfl hl hb⟩
  refine (hattempt.trans fun n => ?_ : Reaches env (1 + 1) _ _)
  have he : ({ s with drawn := n, lineIn := rest, seq := .receive cap w (.echo b) } : State).FgOnly :=
    { h with }
  exact he.reaches_micro henv nofun fun n => ⟨n + 1, (he.withDrawn n).micro_echo (henv n) rfl⟩

/-- The LF and the results. -/
theorem State.FgOnly.reaches_end (hs : s.seq = .receive cap w .echoLf) :
    Reaches env 2 s { s.writeResults w with lineOut := s.lineOut ++ [lf], seq := .idle } := by
  have hlf : Reaches env 1 s { s with lineOut := s.lineOut ++ [lf], seq := .receive cap w .finish } :=
    h.reaches_micro henv (by simp [hs]) fun n =>
      ⟨n + 1, (h.withDrawn n).micro_echoLf (henv n) hs⟩
  refine (hlf.trans fun n => ?_ : Reaches env (1 + 1) s _)
  have he : ({ s with
      drawn := n, lineOut := s.lineOut ++ [lf], seq := .receive cap w .finish } : State).FgOnly :=
    { h with }
  exact he.reaches_micro henv nofun fun n => ⟨n, State.micro_receive_finish rfl⟩

end

/-- From the hook on, a line that fits is echoed and stored byte by byte, and its CR ends it (rule R165). -/
theorem State.FgOnly.reaches_line (h : s.FgOnly) (henv : ∀ n, Delivers (env n))
    (hs : s.seq = .receive cap w (.source .hook)) (hl : s.lineIn = line ++ cr :: more) (hnul : 0#8 ∉ line) (hcr : cr ∉ line)
    (hfit : w.length + line.length < cap.toNat) :
    Reaches env (3 * line.length + 5) s { s.writeResults (w ++ line) with
      lineIn := more, lineOut := s.lineOut ++ line ++ [cr, lf], seq := .idle } := by
  induction line generalizing s w with
  | nil =>
    have hecho : Seq.afterEcho cap w cr = .receive cap w .echoLf := if_pos rfl
    refine ((h.reaches_byte henv hs hl (by decide)).trans fun n => ?_ : Reaches env (3 + 2) s _)
    rw [hecho]
    have hend := State.FgOnly.reaches_end (s := { s with
      drawn := n, lineIn := more, lineOut := s.lineOut ++ [cr], seq := .receive cap w .echoLf })
      { h with } henv rfl
    simpa [State.writeResults, Reaches] using hend
  | cons b line ih =>
    obtain ⟨hb, hnul⟩ : 0#8 ≠ b ∧ 0#8 ∉ line := by simpa using hnul
    obtain ⟨hbcr, hcr⟩ : cr ≠ b ∧ cr ∉ line := by simpa using hcr
    have hfit : (w ++ [b]).length + line.length < cap.toNat := by
      simp only [List.length_append, List.length_cons, List.length_nil] at hfit ⊢
      omega
    have hecho : Seq.afterEcho cap w b = .receive cap (w ++ [b]) (.source .hook) := by
      rw [Seq.afterEcho, if_neg hbcr.symm, ReceivePos.loopHead, if_neg (by omega)]
    rw [show 3 * (b :: line).length + 5 = 3 + (3 * line.length + 5) by rw [List.length_cons]; omega]
    refine (h.reaches_byte henv hs hl hb.symm).trans fun n => ?_
    rw [hecho]
    have hrest := ih (s := { s with
      drawn := n, lineIn := line ++ cr :: more, lineOut := s.lineOut ++ [b],
      seq := .receive cap (w ++ [b]) (.source .hook) }) { h with } rfl rfl hnul hcr hfit
    simpa [State.writeResults, Reaches] using hrest

/-- Settles O38: intake, then the line. -/
theorem roundTripEchoPolling : Obligations.RoundTripEchoPolling := by
  intro env s cap line more henv hf hs hm hen ha hb hport hl hnul hcr hfit
  have h : s.FgOnly := ⟨hf, hm, hen, ha, hb⟩
  have henv' (n : Nat) : Delivers (env n) := by
    obtain ⟨hhook, htake, hsent, hpick⟩ := henv n
    exact ⟨hhook, htake, hsent, hpick⟩
  have hhead : ReceivePos.loopHead cap [] = .source .hook := by
    rw [ReceivePos.loopHead, if_neg (by rw [List.length_nil]; omega)]
  have hintake := h.reaches_intake henv' hs hport
  rw [hhead] at hintake
  have hrun : Reaches env (1 + (3 * line.length + 5)) s { s.writeResults line with
      port := [], lineIn := more, lineOut := s.lineOut ++ line ++ [cr, lf], seq := .idle } :=
    hintake.trans fun n => State.FgOnly.reaches_line
      (s := { s with drawn := n, port := [], seq := .receive cap [] (.source .hook) })
      { h with } henv' rfl hl hnul hcr (by simpa using hfit)
  obtain ⟨n, hn⟩ := hrun
  have hlen : line.length ≤ 255 := by omega
  rw [show 3 * line.length + 6 = 1 + (3 * line.length + 5) by omega]
  exact ⟨_, hn, rfl, hf, hm, rfl, rfl, State.resultBytes_writeResults s hlen, toNat_length_byte hlen, rfl,
    rfl, rfl, rfl, rfl⟩

end Sys2Proof.Machine
end

section
/-! The two event handlers, and the rounds they make with the peripheral (rules R190 to R193, R196 and R197). -/

namespace Sys2Proof.Machine

variable {s : State} {q : Ring} {nul : Bool} {b : Byte} {bs rest : List Byte}

/-- Settles O39: the IRQ step is the receive handler's body, at depth 0. -/
theorem rxcHandlerRuns : Obligations.RxcHandlerRuns := by
  intro s h
  rw [s.irqStep_rxc h]
  exact ⟨fun ha => if_neg (by simp [ha]), fun ha => if_pos ha⟩

/-- Settles O40: the IRQ step is the transmit handler's body, at depth 0, by what its pop answers. -/
theorem txcHandlerRuns : Obligations.TxcHandlerRuns := by
  intro s hr ht
  rw [s.irqStep_txc hr ht]
  refine ⟨fun q hq => ?ends, fun b q hq hb => ?arms, fun b q hq hb => ?overlaps⟩ <;> rw [hq]
  case ends => rfl
  case arms => exact if_neg (by simp [hb])
  case overlaps => exact if_pos hb

/-! ## The transmit burst -/

theorem Ring.not_isEmpty_of_contents_cons (hc : q.contents = b :: bs) : q.isEmpty = false := by
  rw [← Bool.not_eq_true, ← Ring.contents_eq_nil_iff, hc]
  exact List.cons_ne_nil b bs

/-- A pop that meets no 0x00 sentinel answers the oldest byte held (rule R104). -/
theorem Ring.pop_of_contents_cons (hc : q.contents = b :: bs) (hnul : nul = false ∨ 0#8 ∉ q.contents) :
    q.pop nul = (some b, { q with head := q.head + 1#7 }) := by
  have hpop := Ring.pop_contents q nul
  rw [hc] at hpop
  obtain ⟨hbyte, -⟩ := hpop
  have hread : ¬(b = 0#8 ∧ nul = true) := by
    rintro ⟨rfl, rfl⟩
    simp [hc] at hnul
  exact Prod.ext (hbyte.trans (if_neg hread))
    (Ring.pop_ring q nul (Ring.not_isEmpty_of_contents_cons hc))

theorem Ring.contents_after_head (hc : q.contents = b :: bs) :
    ({ q with head := q.head + 1#7 } : Ring).contents = bs := by
  rw [Ring.contents_cons q (Ring.not_isEmpty_of_contents_cons hc)] at hc
  exact (List.cons.inj hc).2

theorem Ring.drain_of_isEmpty (h : q.isEmpty = true) : q.drain = q := by
  obtain ⟨buf, head, tail⟩ := q
  obtain rfl : head = tail := (Ring.isEmpty_iff _).1 h
  rfl

/-- A byte is outstanding, and its TXC will be delivered as soon as it is raised: where each round of the
burst law begins (rule R197). -/
structure State.Bursting (s : State) : Prop where
  fault : s.fault = none
  depth : s.depth = 0#8
  lineEn : s.lineEn = true
  rxPend : s.rxPend = false
  txPend : s.txPend = false
  perTxBusy : s.perTxBusy = true
  noSentinel : s.params.nulIsEmpty = false ∨ 0#8 ∉ s.tx.contents

theorem State.Bursting.txc_deliverable (h : s.Bursting) :
    s.txComplete.deliverable .rxc = false ∧ s.txComplete.deliverable .txc = true :=
  ⟨by simp [State.deliverable, State.pend, State.txComplete, h.rxPend],
    (State.deliverable_iff _ _).2 ⟨rfl, h.lineEn, h.depth, h.fault⟩⟩

theorem State.Bursting.round_enabled (h : s.Bursting) :
    s.enabled .txComplete = true ∧ s.txComplete.enabled .irq = true :=
  ⟨State.enabled_txComplete.2 ⟨h.fault, h.perTxBusy⟩, State.enabled_irq.2 (.inr h.txc_deliverable.2)⟩

/-- The last round finds the ring empty and ends the burst (rule R191). -/
theorem State.Bursting.burstRound_nil (h : s.Bursting) (hc : s.tx.contents = []) :
    s.burstRound =
      { s with lineOut := s.lineOut ++ [s.txStage], perTxBusy := false, txInFlight := false } := by
  have hpop : s.tx.pop s.params.nulIsEmpty = (none, s.tx) :=
    Ring.pop_empty _ _ ((Ring.contents_eq_nil_iff _).1 hc)
  obtain ⟨hr, ht⟩ := h.txc_deliverable
  obtain ⟨hends, -, -⟩ := txcHandlerRuns _ hr ht
  exact (hends _ hpop).trans (by simp [State.txComplete, State.emit, h.txPend])

/-- Every other round emits the byte outstanding and stages the oldest byte held (rule R191). -/
theorem State.Bursting.burstRound_cons (h : s.Bursting) (hc : s.tx.contents = b :: bs) :
    s.burstRound =
      { s with
        lineOut := s.lineOut ++ [s.txStage], tx := { s.tx with head := s.tx.head + 1#7 },
        txStage := b } := by
  have hpop := Ring.pop_of_contents_cons hc h.noSentinel
  obtain ⟨hr, ht⟩ := h.txc_deliverable
  obtain ⟨-, harms, -⟩ := txcHandlerRuns _ hr ht
  exact (harms _ _ hpop rfl).trans (by simp [State.txComplete, State.emit, h.txPend, h.perTxBusy])

theorem State.Bursting.next (h : s.Bursting) (hc : s.tx.contents = b :: bs) : s.burstRound.Bursting := by
  rw [h.burstRound_cons hc]
  refine { h with noSentinel := h.noSentinel.imp_right fun hnul => ?_ }
  rw [Ring.contents_after_head hc]
  exact List.not_mem_of_not_mem_cons (hc ▸ hnul)

/-- Each of the rounds that the bytes held ask for begins with a byte outstanding (rule R197). -/
theorem State.Bursting.before_round (h : s.Bursting) {j : Nat} (hj : j ≤ s.tx.count) :
    (rounds State.burstRound j s).Bursting := by
  induction j generalizing s with
  | zero => exact h
  | succ j ih =>
    rw [← Ring.length_contents] at hj
    obtain ⟨b, bs, hc⟩ := List.exists_cons_of_length_pos (Nat.zero_lt_of_lt hj)
    refine ih (h.next hc) ?_
    rw [h.burstRound_cons hc, ← Ring.length_contents, Ring.contents_after_head hc]
    simpa [hc] using hj

/-- The rounds of the burst law, by the bytes held (rule R197). -/
theorem State.Bursting.drains (h : s.Bursting) (hc : s.tx.contents = bs) :
    rounds State.burstRound (bs.length + 1) s =
      { s with
        lineOut := s.lineOut ++ s.txStage :: bs, tx := s.tx.drain, txStage := bs.getLastD s.txStage,
        perTxBusy := false, txInFlight := false } := by
  induction bs generalizing s with
  | nil =>
    rw [Ring.drain_of_isEmpty ((Ring.contents_eq_nil_iff _).1 hc)]
    exact h.burstRound_nil hc
  | cons b bs ih =>
    have hround := h.burstRound_cons hc
    have hrest := ih (h.next hc) (by rw [hround]; exact Ring.contents_after_head hc)
    exact hrest.trans (by
      simp only [hround, Ring.drain, List.getLastD_cons, List.append_assoc, List.singleton_append])

/-- Settles O41: by the bytes held; before each round a byte is outstanding. -/
theorem transmitBurstDrains : Obligations.TransmitBurstDrains := by
  intro s hf hd hl hr ht hb _ hnul
  have h : s.Bursting := ⟨hf, hd, hl, hr, ht, hb, hnul⟩
  refine ⟨?_, fun j hj => (h.before_round hj).round_enabled⟩
  rw [← Ring.length_contents]
  exact h.drains rfl

/-! ## The receive pipeline -/

/-- Delivering a byte and pushing the non-zero ones of the rest pushes the non-zero ones of all
(rule R190). -/
theorem Ring.pushAll_deliver (q : Ring) (b : Byte) (bs : List Byte) :
    (q.deliver b).pushAll (bs.filter fun b => b != 0#8) =
      q.pushAll ((b :: bs).filter fun b => b != 0#8) := by
  by_cases hb : b = 0#8 <;> simp [Ring.deliver, hb]

/-- Reception is armed, and its RXC will be delivered as soon as it is raised: where each round of the
pipeline law begins (rule R196). -/
structure State.Receiving (s : State) : Prop where
  fault : s.fault = none
  depth : s.depth = 0#8
  lineEn : s.lineEn = true
  rxPend : s.rxPend = false
  perRxArmed : s.perRxArmed = true

theorem State.rxComplete_cons (hl : s.lineIn = b :: rest) :
    s.rxComplete = { s with lineIn := rest, rxStage := b, perRxArmed := false, rxPend := true } := by
  simp [State.rxComplete, hl]

theorem State.Receiving.rxc_deliverable (h : s.Receiving) (hl : s.lineIn = b :: rest) :
    s.rxComplete.deliverable .rxc = true := by
  rw [State.rxComplete_cons hl]
  exact (State.deliverable_iff _ _).2 ⟨rfl, h.lineEn, h.depth, h.fault⟩

theorem State.Receiving.round_enabled (h : s.Receiving) (hl : s.lineIn ≠ []) :
    s.enabled .rxComplete = true ∧ s.rxComplete.enabled .irq = true := by
  obtain ⟨b, rest, hcons⟩ := List.exists_cons_of_ne_nil hl
  exact ⟨State.enabled_rxComplete.2 ⟨h.fault, h.perRxArmed, hl⟩,
    State.enabled_irq.2 (.inl (h.rxc_deliverable hcons))⟩

/-- A round takes the line's front byte, delivers it and arms reception again (rules R190 and R266). -/
theorem State.Receiving.receptionRound_cons (h : s.Receiving) (hl : s.lineIn = b :: rest) :
    s.receptionRound = { s with lineIn := rest, rxStage := b, rx := s.rx.deliver b } := by
  obtain ⟨harms, -⟩ := rxcHandlerRuns _ (h.rxc_deliverable hl)
  have hfree : s.rxComplete.perRxArmed = false := by rw [State.rxComplete_cons hl]
  exact (harms hfree).trans (by
    simp [State.rxComplete_cons hl, Ring.deliver, h.rxPend, h.perRxArmed])

/-- The rounds of the pipeline law, whether or not the ring has room (rule R196). -/
theorem State.Receiving.fills (h : s.Receiving) (hl : s.lineIn = bs ++ rest) :
    rounds State.receptionRound bs.length s =
      { s with
        lineIn := rest, rxStage := bs.getLastD s.rxStage,
        rx := s.rx.pushAll (bs.filter fun b => b != 0#8) } := by
  induction bs generalizing s with
  | nil => rw [← show s.lineIn = rest from hl]; rfl
  | cons b bs ih =>
    have hround := h.receptionRound_cons hl
    have hnext : s.receptionRound.Receiving := by
      rw [hround]
      exact { h with }
    have hrest := ih hnext (by rw [hround]; rfl)
    exact hrest.trans (by simp only [hround, List.getLastD_cons, Ring.pushAll_deliver])

/-- Settles O42: by the line bytes; the state before round `j` is that after the first `j` bytes. -/
theorem receptionPipelineFills : Obligations.ReceptionPipelineFills := by
  intro s bs rest hf hd hen hr ha hl hroom
  have h : s.Receiving := ⟨hf, hd, hen, hr, ha⟩
  refine ⟨h.fills hl, ?_, fun j hj => ?_⟩
  · have hfit : (bs.filter fun b => b != 0#8).length ≤ 127 - s.rx.count :=
      (List.length_filter_le _ bs).trans (by omega)
    rw [h.fills hl, Ring.pushAll_contents, List.take_of_length_le hfit]
  · have hbefore := h.fills (bs := bs.take j) (rest := bs.drop j ++ rest)
      (by rw [hl, ← List.append_assoc, List.take_append_drop])
    rw [List.length_take_of_le hj.le] at hbefore
    rw [hbefore]
    exact State.Receiving.round_enabled { h with } (by simp [List.drop_eq_nil_iff, hj])

end Sys2Proof.Machine
end

section
/-! The micro-steps of a TOGGLE command (rules R194 and R210 to R215). -/

namespace Sys2Proof.Machine

variable {s u : State} {d : Draws} {t : TogglePos} {f : Fault}

/-! ## A micro-step is its effect and a move of the sequencer -/

theorem State.micro_toggle_of_clear (hs : s.seq = .toggle t) (he : s.toggleEffect d t = u)
    (hu : u.fault = none) : s.micro d = { u with seq := Seq.afterToggle t u } := by
  rw [State.micro_toggle hs, he, u.thenDo_of_none _ hu]
  rfl

theorem exec_toggle_of_clear (hf : s.fault = none) (hs : s.seq = .toggle t)
    (he : s.toggleEffect (Config.drawsAt s.drawn) t = u) (hu : u.fault = none) :
    exec .toggle s = .next { u with seq := Seq.afterToggle t u } := by
  rw [exec_running .toggle s hf (by rw [hs]; rfl), State.micro_toggle_of_clear hs he hu]

/-- After the raise nothing is written, so the sequencer stays (rule R240). -/
theorem exec_toggle_of_fault (hf : s.fault = none) (hs : s.seq = .toggle t)
    (he : s.toggleEffect (Config.drawsAt s.drawn) t = u) (hu : u.fault = some f) :
    exec .toggle s = .next u := by
  rw [exec_running .toggle s hf (by rw [hs]; rfl), State.micro_toggle hs, he, u.thenDo_of_some _ hu]

theorem Seq.afterToggle_prime (s : State) :
    Seq.afterToggle .prime s =
      .toggle (.onLine (if s.mode = .polling ∧ s.params.confirmOn = [] then .crlf else .text)) := by
  rw [← LineStage.start_eq]
  rfl

theorem Seq.afterToggle_drain (s : State) :
    Seq.afterToggle .drain s =
      .toggle (.offLine (if s.mode = .polling ∧ s.params.confirmOff = [] then .crlf else .text)) := by
  rw [← LineStage.start_eq]
  rfl

/-! ## The effects -/

theorem State.toggleEffect_flip_polling (hm : s.mode = .polling) :
    s.toggleEffect d .flip = { s with mode := .interrupt } := by
  rw [State.toggleEffect, hm]
  rfl

theorem State.toggleEffect_flip_interrupt (hm : s.mode = .interrupt) :
    s.toggleEffect d .flip = { s with mode := .polling } := by
  rw [State.toggleEffect, hm]
  rfl

theorem State.toggleEffect_enableLine : s.toggleEffect d .enableLine = { s with lineEn := true } := rfl

theorem State.toggleEffect_abortRx : s.toggleEffect d .abortRx = { s with perRxArmed := false } := rfl

theorem State.toggleEffect_disableLine : s.toggleEffect d .disableLine = { s with lineEn := false } := rfl

theorem State.toggleEffect_clearInFlight :
    s.toggleEffect d .clearInFlight = { s with txInFlight := false } := rfl

theorem State.toggleEffect_prime_arms (hf : s.fault = none) (hd : s.depth ≠ 255#8)
    (ha : s.perRxArmed = false) :
    s.toggleEffect d .prime = { s with rx := s.rx.deliver s.rxStage, perRxArmed := true } := by
  rw [State.toggleEffect, State.armFirstReceive, s.rxHandlerBody_eq .toggle hf hd, if_neg (by simp [ha])]

theorem State.toggleEffect_prime_doubleArm (hf : s.fault = none) (hd : s.depth ≠ 255#8)
    (ha : s.perRxArmed = true) :
    s.toggleEffect d .prime =
      { s with rx := s.rx.deliver s.rxStage, fault := some (.rxDoubleArm .toggle) } := by
  rw [State.toggleEffect, State.armFirstReceive, s.rxHandlerBody_eq .toggle hf hd, if_pos ha]

theorem State.toggleEffect_prime_overflow (hd : s.depth = 255#8) :
    s.toggleEffect d .prime = { s with fault := some (.guardOverflow .toggle) } :=
  s.rxHandlerBody_max .toggle hd

theorem State.toggleEffect_drain (hf : s.fault = none) (hd : s.depth ≠ 255#8) :
    s.toggleEffect d .drain = { s with rx := s.rx.drain, tx := s.tx.drain } :=
  s.drainRings_eq .toggle hf hd

theorem State.toggleEffect_drain_overflow (hd : s.depth = 255#8) :
    s.toggleEffect d .drain = { s with fault := some (.guardOverflow .toggle) } :=
  s.drainRings_max .toggle hd

/-- Settles O44: each effect is one write, the guarded receive handler's body, or a SEND. -/
theorem toggleToInterruptMicroSteps : Obligations.ToggleToInterruptMicroSteps := by
  intro s hf
  refine ⟨fun hs hm => ?flip, fun hs => ?enableLine, fun hs hd ha => ?arms, fun hs hd ha => ?doubleArm,
    fun hs hd => ?overflow, fun hs hc => ?text, fun hs hc => ?crlf⟩
  case flip => exact exec_toggle_of_clear hf hs (State.toggleEffect_flip_polling hm) hf
  case enableLine => exact exec_toggle_of_clear hf hs State.toggleEffect_enableLine hf
  case arms =>
    rw [exec_toggle_of_clear hf hs (State.toggleEffect_prime_arms hf hd ha) hf, Seq.afterToggle_prime]
    rfl
  case doubleArm =>
    exact exec_toggle_of_fault hf hs (State.toggleEffect_prime_doubleArm hf hd ha) rfl
  case overflow => exact exec_toggle_of_fault hf hs (State.toggleEffect_prime_overflow hd) rfl
  case text | crlf => exact exec_of_sendClear hf (by rw [hs]; rfl) hc fun _ => State.micro_toggle hs

/-- Settles O45: each effect is one write, the guarded drain, or a SEND. -/
theorem toggleToPollingMicroSteps : Obligations.ToggleToPollingMicroSteps := by
  intro s hf
  refine ⟨fun hs hm => ?flip, fun hs => ?abortRx, fun hs => ?disableLine, fun hs => ?clearInFlight,
    fun hs hd => ?drains, fun hs hd => ?overflow, fun hs hc => ?text, fun hs hc => ?crlf⟩
  case flip => exact exec_toggle_of_clear hf hs (State.toggleEffect_flip_interrupt hm) hf
  case abortRx => exact exec_toggle_of_clear hf hs State.toggleEffect_abortRx hf
  case disableLine => exact exec_toggle_of_clear hf hs State.toggleEffect_disableLine hf
  case clearInFlight => exact exec_toggle_of_clear hf hs State.toggleEffect_clearInFlight hf
  case drains =>
    rw [exec_toggle_of_clear hf hs (State.toggleEffect_drain hf hd) hf, Seq.afterToggle_drain]
    rfl
  case overflow => exact exec_toggle_of_fault hf hs (State.toggleEffect_drain_overflow hd) rfl
  case text | crlf => exact exec_of_sendClear hf (by rw [hs]; rfl) hc fun _ => State.micro_toggle hs

end Sys2Proof.Machine
end

section
/-! A whole TOGGLE made by FG alone: the switch, then the confirmation line (rules R56 and R210 to R213). -/

namespace Sys2Proof.Machine

variable {env : Nat → Draws} {s t u : State} {d : Draws} {o : Origin} {p rest : List Byte} {b : Byte}
  {q : Ring} {nul : Bool} {pos : TogglePos} {nextSeq : Seq}
  {j k : Nat}

/-! ## Runs of FG alone -/

/-- No fault, and no event that could become deliverable: none is pending, or the guard is held. -/
structure State.Undisturbed (s : State) : Prop where
  fault : s.fault = none
  noEvent : (s.rxPend = false ∧ s.txPend = false) ∨ s.depth ≠ 0#8

theorem State.Undisturbed.foreground_enabled (h : s.Undisturbed) (hs : s.seq ≠ .idle) :
    s.enabled .foreground = true := by
  refine State.enabled_foreground.2 ⟨h.fault, ?_, ?_, .inl hs⟩ <;>
    obtain ⟨hr, ht⟩ | hd := h.noEvent <;> simp [State.deliverable, State.pend, State.irqMasked, *]

/-- `k` moves of FG lead from `s` to `t`, and FG is enabled at each of them (rule R56). -/
def ForegroundRuns (env : Nat → Draws) (k : Nat) (s t : State) : Prop :=
  foregroundRun env k s = .next t ∧
    ∀ j, j < k → ∃ u, foregroundRun env j s = .next u ∧ u.enabled .foreground = true

theorem ForegroundRuns.refl (env : Nat → Draws) (s : State) : ForegroundRuns env 0 s s :=
  ⟨rfl, nofun⟩

/-- One more micro-step of a TOGGLE in front of a run, by its effect and the position it leads to. -/
theorem ForegroundRuns.toggle (hs : s.seq = .toggle pos) (h : s.Undisturbed)
    (he : s.toggleEffect (env s.drawn) pos = u) (hu : u.fault = none)
    (hq : Seq.afterToggle pos u = nextSeq) (hrest : ForegroundRuns env k { u with seq := nextSeq } t) :
    ForegroundRuns env (k + 1) s t := by
  have hne : s.seq ≠ .idle := by simp [hs]
  have hmove (n : Nat) : foregroundRun env (n + 1) s =
      foregroundRun env n { u with seq := nextSeq } := by
    rw [foregroundRun_micro env n s h.fault hne, State.micro_toggle_of_clear hs he hu, hq]
  refine ⟨(hmove k).trans hrest.1, fun j hj => ?_⟩
  cases j with
  | zero => exact ⟨s, rfl, h.foreground_enabled hne⟩
  | succ j =>
    rw [hmove j]
    exact hrest.2 j (Nat.lt_of_succ_lt_succ hj)

theorem foregroundRun_add (h : foregroundRun env j s = .next t) :
    foregroundRun env (j + k) s = foregroundRun env k t := by
  induction j generalizing s with
  | zero =>
    cases h
    rw [Nat.zero_add]
  | succ j ih =>
    cases hmove : s.foregroundMove (execUnder env) with
    | next s1 =>
      rw [foregroundRun_succ env j s s1 hmove] at h
      rw [Nat.succ_add, foregroundRun_succ env (j + k) s s1 hmove, ih h]
    | fault | refused => simp [foregroundRun, hmove] at h

theorem ForegroundRuns.trans (h : ForegroundRuns env j s t) (h' : ForegroundRuns env k t u) :
    ForegroundRuns env (j + k) s u := by
  refine ⟨(foregroundRun_add h.1).trans h'.1, fun i hi => ?_⟩
  by_cases hij : i < j
  · exact h.2 i hij
  · obtain ⟨n, rfl⟩ := Nat.exists_eq_add_of_le (Nat.le_of_not_lt hij)
    rw [foregroundRun_add h.1]
    exact h'.2 n (by omega)

/-! ## The two SENDs of a confirmation line -/

theorem Ring.pushAll_contents_of_fits (h : q.count + p.length ≤ 127) :
    (q.pushAll p).contents = q.contents ++ p := by
  rw [Ring.pushAll_contents, List.take_of_length_le (by omega)]

/-- A pop that meets a readable byte at the front answers it (rule R104). -/
theorem Ring.pop_of_front (hc : q.contents = b :: rest) (hb : b ≠ 0#8 ∨ nul = false) :
    ∃ r, q.pop nul = (some b, r) ∧ r.contents = rest := by
  have hpop := Ring.pop_contents q nul
  rw [hc] at hpop
  obtain ⟨hbyte, hrest⟩ := hpop
  rw [if_neg (by rintro ⟨rfl, rfl⟩; simp at hb)] at hbyte
  exact ⟨_, Prod.ext hbyte rfl, hrest⟩

/-- A polling SEND whose draw lets every byte out before the timeout (rule R142). -/
theorem State.sendNow_completes (hf : s.fault = none) (hm : s.mode = .polling)
    (hb : s.perTxBusy = false) (hp : p ≠ []) (hk : d.sent % (p.length + 1) = p.length) :
    s.sendNow d o p = { s with lineOut := s.lineOut ++ p, drawn := s.drawn + 1 } := by
  have hclear : s.SendClear p := by simp [State.SendClear, hm, hb]
  obtain ⟨b, rest, rfl⟩ := List.exists_cons_of_ne_nil hp
  rw [s.sendNow_of_clear d o _ hf hclear, hk]
  simp only [State.afterSend, hm, List.take_length]

/-- An interrupt-mode SEND into an empty ring with nothing in flight starts a burst (rule R141). -/
theorem State.sendNow_starts_burst (hf : s.fault = none) (hm : s.mode = .interrupt)
    (hd : s.depth.toNat < 254) (hb : s.perTxBusy = false) (hi : s.txInFlight = false)
    (he : s.tx.isEmpty = true) (hnul : b ≠ 0#8 ∨ s.params.nulIsEmpty = false)
    (hlen : (b :: rest).length ≤ 127) :
    ∃ r : Ring, r.contents = rest ∧ s.sendNow d o (b :: rest) =
      { s with tx := r, txStage := b, perTxBusy := true, txInFlight := true } := by
  have hcount : s.tx.count = 0 := (Ring.count_eq_zero_iff _).2 he
  have hcontents : (s.tx.pushAll (b :: rest)).contents = b :: rest := by
    rw [Ring.pushAll_contents_of_fits (by omega), (Ring.contents_eq_nil_iff _).2 he, List.nil_append]
  obtain ⟨r, hpop, hr⟩ := Ring.pop_of_front hcontents hnul
  have hclear : s.SendClear (b :: rest) := by simp [State.SendClear, hm, hi, hd, hb]
  refine ⟨r, hr, ?_⟩
  rw [s.sendNow_of_clear d o _ hf hclear]
  simp only [State.afterSend, hm, hi, hpop, Bool.false_eq_true, if_false]

/-- An interrupt-mode SEND with a burst in flight only queues (rule R141). -/
theorem State.sendNow_joins_burst (hf : s.fault = none) (hm : s.mode = .interrupt)
    (hd : s.depth ≠ 255#8) (hi : s.txInFlight = true) :
    s.sendNow d o p = { s with tx := s.tx.pushAll p } := by
  have hclear : s.SendClear p := by simp [State.SendClear, hm, hi, hd]
  rw [s.sendNow_of_clear d o p hf hclear]
  simp only [State.afterSend, hm, hi, if_true]

/-! ## From polling mode -/

theorem depth_ne_max_of_lt {n : Byte} (h : n.toNat < 254) : n ≠ 255#8 := by
  rintro rfl
  exact absurd h (by decide)

/-- The flip, the line enable and the prime (rules R194, R210 and R211). -/
theorem State.Undisturbed.switchesToInterrupt (h : s.Undisturbed) (hs : s.seq = .toggle .flip)
    (hm : s.mode = .polling) (hd : s.depth ≠ 255#8) (ha : s.perRxArmed = false) :
    ForegroundRuns env 3 s { s with
      mode := .interrupt, lineEn := true, rx := s.rx.deliver s.rxStage, perRxArmed := true,
      seq := .toggle (.onLine .text) } :=
  .toggle hs h (State.toggleEffect_flip_polling hm) h.fault rfl <|
  .toggle rfl { h with } State.toggleEffect_enableLine h.fault rfl <|
  .toggle rfl { h with } (State.toggleEffect_prime_arms h.fault hd ha) h.fault rfl <|
  .refl env _

/-- The ON line: its first byte starts a burst, the others wait behind it (rules R141, R211 and R213). -/
theorem State.Undisturbed.queuesOnLine (h : s.Undisturbed) (hs : s.seq = .toggle (.onLine .text))
    (hm : s.mode = .interrupt) (hd : s.depth.toNat < 254) (hb : s.perTxBusy = false)
    (hi : s.txInFlight = false) (he : s.tx.isEmpty = true) (hon : s.params.confirmOn = b :: rest)
    (hnul : b ≠ 0#8 ∨ s.params.nulIsEmpty = false) (hlen : (b :: rest).length ≤ 125) :
    ∃ q : Ring, q.contents = rest ++ [cr, lf] ∧
      ForegroundRuns env 2 s { s with
        tx := q, txStage := b, perTxBusy := true, txInFlight := true, seq := .idle } := by
  have htext : s.toggleEffect (env s.drawn) (.onLine .text) =
      s.sendNow (env s.drawn) .toggle (b :: rest) := by rw [State.toggleEffect, hon]
  obtain ⟨r, hr, hsend⟩ := s.sendNow_starts_burst (d := env s.drawn) (o := .toggle) h.fault hm hd hb hi he
    hnul (hlen.trans (by decide))
  have hfits : r.count + [cr, lf].length ≤ 127 := by
    rw [List.length_cons] at hlen
    rw [← Ring.length_contents, hr, List.length_cons, List.length_singleton]
    omega
  refine ⟨r.pushAll [cr, lf], by rw [Ring.pushAll_contents_of_fits hfits, hr], ?_⟩
  exact .toggle hs h (htext.trans hsend) h.fault rfl <|
    .toggle rfl { h with } (State.sendNow_joins_burst h.fault hm (depth_ne_max_of_lt hd) rfl) h.fault rfl <|
    .refl env _

/-- Settles O46: the switch, then the ON line. -/
theorem toggleFromPollingRuns : Obligations.ToggleFromPollingRuns := by
  intro env s b rest hf hs hm hd ha hb hi he hev hon hnul hlen
  have h : s.Undisturbed := ⟨hf, hev⟩
  have hswitch := h.switchesToInterrupt (env := env) hs hm (depth_ne_max_of_lt hd) ha
  obtain ⟨q, hq, hline⟩ := State.Undisturbed.queuesOnLine (env := env) (s := { s with
    mode := .interrupt, lineEn := true, rx := s.rx.deliver s.rxStage, perRxArmed := true,
    seq := .toggle (.onLine .text) }) { h with } rfl rfl hd hb hi he hon hnul (hon ▸ hlen)
  obtain ⟨hrun, henabled⟩ := hswitch.trans hline
  exact ⟨⟨q, hq, hrun⟩, henabled⟩

/-! ## From interrupt mode -/

/-- The flip, the abort, the line disable, the flag and the drain (rules R210, R212 and R215). -/
theorem State.Undisturbed.switchesToPolling (h : s.Undisturbed) (hs : s.seq = .toggle .flip)
    (hm : s.mode = .interrupt) (hd : s.depth ≠ 255#8) (hoff : s.params.confirmOff ≠ []) :
    ForegroundRuns env 5 s { s with
      mode := .polling, perRxArmed := false, lineEn := false, txInFlight := false, rx := s.rx.drain,
      tx := s.tx.drain, seq := .toggle (.offLine .text) } := by
  have hline (u : State) (hu : u.params = s.params) :
      Seq.afterToggle .drain u = .toggle (.offLine .text) := by
    rw [Seq.afterToggle_drain, hu, if_neg fun hnil => hoff hnil.2]
  exact .toggle hs h (State.toggleEffect_flip_interrupt hm) h.fault rfl <|
    .toggle rfl { h with } State.toggleEffect_abortRx h.fault rfl <|
    .toggle rfl { h with } State.toggleEffect_disableLine h.fault rfl <|
    .toggle rfl { h with } State.toggleEffect_clearInFlight h.fault rfl <|
    .toggle rfl { h with } (State.toggleEffect_drain h.fault hd) h.fault (hline _ rfl) <|
    .refl env _

/-- The OFF line under draws that complete both transmits (rules R142, R212 and R213). -/
theorem State.Undisturbed.sendsOffLine (h : s.Undisturbed) (hs : s.seq = .toggle (.offLine .text))
    (hm : s.mode = .polling) (hb : s.perTxBusy = false) (hoff : s.params.confirmOff ≠ [])
    (htext : (env s.drawn).sent % (s.params.confirmOff.length + 1) = s.params.confirmOff.length)
    (hcrlf : (env (s.drawn + 1)).sent % 3 = 2) :
    ForegroundRuns env 2 s { s with
      lineOut := s.lineOut ++ s.params.confirmOff ++ [cr, lf], drawn := s.drawn + 2, seq := .idle } :=
  .toggle hs h (State.sendNow_completes h.fault hm hb hoff htext) h.fault rfl <|
  .toggle rfl { h with } (State.sendNow_completes h.fault hm hb (List.cons_ne_nil _ _) hcrlf) h.fault rfl <|
  .refl env _

/-- Settles O47: the switch, then the OFF line. -/
theorem toggleFromInterruptRuns : Obligations.ToggleFromInterruptRuns := by
  intro env s hf hs hm hd hb hoff hev htext hcrlf
  have h : s.Undisturbed := ⟨hf, hev⟩
  have hline := State.Undisturbed.sendsOffLine (env := env) (s := { s with
    mode := .polling, perRxArmed := false, lineEn := false, txInFlight := false, rx := s.rx.drain,
    tx := s.tx.drain, seq := .toggle (.offLine .text) }) { h with } rfl rfl hb hoff htext hcrlf
  exact (h.switchesToPolling hs hm hd hoff).trans hline

end Sys2Proof.Machine
end

section
/-! One reception outstanding or unhandled (rule R251), and RX_DOUBLE_ARM under it (rules R246 and R315). -/

namespace Sys2Proof.Machine

variable {s s' : State} {d : Draws} {o o' : Origin} {p : List Byte} {m : Move}

/-- A pending RXC is alone where no reception is armed. -/
theorem State.OneReception.of_not_armed (h : s.perRxArmed = false) : s.OneReception :=
  fun hc => by simp [h] at hc

/-- An armed reception is alone where no RXC is pending. -/
theorem State.OneReception.of_not_pend (h : s.rxPend = false) : s.OneReception :=
  fun hc => by simp [h] at hc

/-- RXC's entry clears the pending bit before its handler arms (rule R192). -/
theorem IrqTo.keeps_oneReception (h : IrqTo s s') (ho : s.OneReception) : s'.OneReception := by
  cases h with
  | rxcArms | rxcDoubleArm => exact .of_not_pend rfl
  | txcArms | txcOverlap | txcEnds => exact ho

theorem ToggleTo.keeps_oneReception {t : TogglePos} (h : ToggleTo s t s') (ho : s.OneReception)
    (hprime : t = .prime → s.rxPend = false) : s'.OneReception := by
  cases h with
  | primeArms => exact .of_not_pend (hprime rfl)
  | abortRx => exact .of_not_armed rfl
  | flip | enableLine | primeOverflow | primeDoubleArm | disableLine | clearInFlight | drainOverflow |
    drains => exact ho

theorem EffectTo.keeps_oneReception (h : EffectTo s s') (ho : s.OneReception)
    (hprime : s.seq.togglePos = some .prime → s.rxPend = false) : s'.OneReception := by
  cases h with
  | toggles t _ ht h => exact h.keeps_oneReception ho fun he => hprime (he ▸ ht)
  | sends _ _ _ _ h => cases h <;> exact ho
  | attempts _ _ _ h => cases h <;> exact ho
  | hook | delivers | finishes | acquires | acquireOverflow | releases | releaseUnderflow => exact ho

theorem MoveTo.keeps_oneReception (h : MoveTo d s m s') (hf : s.fault = none) (ho : s.OneReception)
    (hprime : s.seq.togglePos = some .prime → s.rxPend = false) : s'.OneReception := by
  cases h with
  | irq h => exact (s.irqStep_cases h).keeps_oneReception ho
  | micro _ hs =>
    exact (s.micro_cases d hs).of_effects hf (fun _ _ h => h) fun _ h => h.keeps_oneReception ho hprime
  | rxComplete => exact .of_not_armed rfl
  | intake | illegal | txComplete | lineLoss | wait => exact ho

/-- Settles O59: a completion uses up the arm, RXC's handler the pending bit, and the prime arms where no
RXC is pending. -/
theorem stepKeepsOneReception : Obligations.StepKeepsOneReception := by
  intro env s s' ho hprime h
  obtain ⟨env', h⟩ := stepUnder_of_step env s s' h
  obtain ⟨hf, ⟨-, rfl⟩ | ⟨m, s1, -, rfl | rfl, hmove⟩⟩ := stepUnder_cases env' s s' h
  · exact ho
  · exact hmove.keeps_oneReception hf ho hprime
  · exact hmove.keeps_oneReception (s := s.drew) hf ho hprime

/-- A byte attempt is made outside a TOGGLE's body. -/
theorem Seq.togglePos_of_attempting {q : Seq} (h : q.attempting = true) : q.togglePos = none := by
  unfold Seq.attempting at h
  split at h
  · rfl
  · rfl
  · cases h

/-- RXC's handler finds no reception armed beside the one it handles. -/
theorem IrqTo.no_doubleArm (h : IrqTo s s') (hf : s.fault = none) (hone : s.OneReception) :
    s'.fault ≠ some (.rxDoubleArm o) := by
  cases h with
  | rxcDoubleArm hp ha => exact absurd ⟨ha, hp⟩ hone
  | rxcArms | txcArms | txcOverlap | txcEnds => simp [hf]

/-- Of a TOGGLE's micro-steps the prime alone arms a reception. -/
theorem ToggleTo.doubleArm_prime {t : TogglePos} (h : ToggleTo s t s') (hf : s.fault = none)
    (hd : s'.fault = some (.rxDoubleArm o)) : o = .toggle ∧ t = .prime ∧ s.perRxArmed = true := by
  cases h with
  | primeDoubleArm ha => exact ⟨by simpa using hd.symm, rfl, ha⟩
  | flip | enableLine | primeOverflow | primeArms | abortRx | disableLine | clearInFlight |
    drainOverflow | drains => simp [hf] at hd

/-- At rest in polling mode no reception is armed, so a blocking receive finds none. -/
theorem AttemptTo.no_doubleArm (h : AttemptTo s o' s') (hf : s.fault = none) (hrest : s.PollingAtRest) :
    s'.fault ≠ some (.rxDoubleArm o) := by
  cases h with
  | doubleArm hm ha =>
    obtain ⟨⟨-, harmed⟩, -⟩ := hrest hm
    simp [harmed] at ha
  | overflow | pops | getsNothing | takes => simp [hf]

theorem EffectTo.doubleArm_prime (h : EffectTo s s') (hf : s.fault = none) (hl : s.ModeLaws)
    (hd : s'.fault = some (.rxDoubleArm o)) :
    o = .toggle ∧ s.seq.togglePos = some .prime ∧ s.perRxArmed = true := by
  cases h with
  | toggles t _ ht h =>
    obtain ⟨rfl, rfl, ha⟩ := h.doubleArm_prime hf hd
    exact ⟨rfl, ht, ha⟩
  | attempts _ _ ha h =>
    have hrest := (State.modeLaws_iff_of_rest (.inl (Seq.togglePos_of_attempting ha))).1 hl
    exact absurd hd (h.no_doubleArm hf hrest)
  | sends _ _ _ _ h => cases h <;> simp [hf] at hd
  | hook | delivers | acquires | acquireOverflow | releases | releaseUnderflow => simp [hf] at hd
  | finishes => simp [State.writeResults, hf] at hd

theorem MoveTo.doubleArm_prime (h : MoveTo d s m s') (hf : s.fault = none) (hone : s.OneReception)
    (hl : s.ModeLaws) (hd : s'.fault = some (.rxDoubleArm o)) :
    o = .toggle ∧ s.seq.togglePos = some .prime ∧ s.perRxArmed = true := by
  cases h with
  | irq h => exact absurd hd ((s.irqStep_cases h).no_doubleArm hf hone)
  | micro _ hs =>
    exact (s.micro_cases d hs).of_effects (P := fun u => u.fault = some (.rxDoubleArm o) → _) hf
      (fun _ _ h => h) (fun _ h => h.doubleArm_prime hf hl) hd
  | intake | illegal | rxComplete | txComplete | lineLoss | wait => simp [hf] at hd

/-- Settles O60: RXC's handler and the blocking receive find no reception armed, by the two invariants. -/
theorem doubleArmOnlyAtPrime : Obligations.DoubleArmOnlyAtPrime := by
  intro env s s' o hone hl h hd
  obtain ⟨env', h⟩ := stepUnder_of_step env s s' h
  obtain ⟨hf, ⟨-, rfl⟩ | ⟨m, s1, -, rfl | rfl, hmove⟩⟩ := stepUnder_cases env' s s' h
  · simp [hf] at hd
  · exact hmove.doubleArm_prime hf hone hl hd
  · exact hmove.doubleArm_prime (s := s.drew) hf hone hl hd

end Sys2Proof.Machine
end

section
/-! The order of the two events (rules R254 to R256). -/

namespace Sys2Proof.Machine

variable {s : State}

theorem State.irqStep_of_rxc (h : s.deliverable .rxc = true) : s.irqStep = s.onRxc := if_pos h

theorem State.irqStep_of_not_rxc (h : s.deliverable .rxc = false) : s.irqStep = s.onTxc :=
  if_neg (by simp [h])

/-- RXC's entry clears its pending bit, whatever its handler's body does (rule R192). -/
@[simp] theorem State.onRxc_rxPend (s : State) : s.onRxc.rxPend = false := by
  obtain ⟨_, _, _, _, h⟩ := ({ s with rxPend := false } : State).rxHandlerBody_shape .rxc
  rw [State.onRxc, h]

/-- TXC's entry clears its pending bit, whatever its handler's body does (rule R193). -/
@[simp] theorem State.onTxc_txPend (s : State) : s.onTxc.txPend = false := by
  obtain ⟨_, _, _, _, _, _, h⟩ := ({ s with txPend := false } : State).txHandlerBody_shape .txc
  rw [State.onTxc, h]

/-- RXC's handler leaves all that makes TXC deliverable, but for the fault it may raise (rule R255). -/
theorem State.irqStep_keeps_txc (hr : s.deliverable .rxc = true) (ht : s.deliverable .txc = true)
    (hf : s.irqStep.fault = none) : s.irqStep.deliverable .txc = true := by
  obtain ⟨harms, hdouble⟩ := rxcHandlerRuns s hr
  cases ha : s.perRxArmed with
  | true => simp [hdouble ha] at hf
  | false =>
    rw [harms ha]
    obtain ⟨hp, hfree⟩ := (s.deliverable_iff .txc).1 ht
    exact (State.deliverable_iff _ .txc).2 ⟨hp, hfree⟩

/-- While an event is deliverable FG is not enabled, so no step is FG's (rule R256). -/
theorem State.not_makes_foreground (h : s.deliverable .rxc = true ∨ s.deliverable .txc = true)
    (env : Nat → Draws) : ¬s.makes env .foreground := by
  intro hmakes
  obtain ⟨-, hr, ht, -⟩ := State.enabled_foreground.1 (State.enabled_iff_makes.2 ⟨env, hmakes⟩)
  simp [hr, ht] at h

/-- Settles O12: the IRQ step asks for RXC first, and each handler writes its own event's bit alone. -/
theorem rxcBeforeTxc : Obligations.RxcBeforeTxc := by
  intro s
  refine ⟨fun hr => ⟨State.irqStep_of_rxc hr, ?_, State.irqStep_keeps_txc hr⟩,
    fun hr => ⟨State.irqStep_of_not_rxc hr, ?_⟩, State.not_makes_foreground⟩
  · rw [State.irqStep_of_rxc hr, State.onRxc_rxPend]
  · rw [State.irqStep_of_not_rxc hr, State.onTxc_txPend]

end Sys2Proof.Machine
end

section
/-! The byte attempt in polling mode (rules R163 and R270). -/

namespace Sys2Proof.Machine

variable {s u : State} {env : Nat → Draws} {d : Draws} {i : Instr} {o : Origin}
  {after : SourceNext → Seq} {b c : Byte} {rest : List Byte}

/-! ## The blocking receive by its cases (rule R270) -/

theorem State.blockingReceive_of_armed (ha : s.perRxArmed = true) :
    s.blockingReceive d o = (0#8, s.raise (.rxDoubleArm o)) := if_pos ha

theorem State.blockingReceive_of_no_byte (ha : s.perRxArmed = false) (hl : s.lineIn = []) :
    s.blockingReceive d o = (0#8, s) := by
  simp [State.blockingReceive, ha, hl]

/-- With a byte on the line the draw decides between TAKE and TIMEOUT. -/
theorem State.blockingReceive_of_byte (ha : s.perRxArmed = false) (hl : s.lineIn = b :: rest) :
    s.blockingReceive d o =
      if d.take then (b, { s with lineIn := rest, drawn := s.drawn + 1 })
      else (0#8, { s with drawn := s.drawn + 1 }) := by
  simp only [State.blockingReceive, ha, hl, Bool.false_eq_true, if_false, State.drew]

/-! ## The attempt's micro-step -/

theorem State.attempt_polling (hm : s.mode = .polling) : s.attempt d o = s.blockingReceive d o := by
  simp only [State.attempt, hm]

/-- An attempt in polling mode is a blocking receive (rule R163); its fault ends the micro-step. -/
theorem Receives.execUnder_attempt_fault (h : Receives i o after) {f : Fault} (hf : s.fault = none)
    (hm : s.mode = .polling) (hs : s.seq = after (.goOn .attempt))
    (hr : s.blockingReceive (env s.drawn) o = (c, u)) (hu : u.fault = some f) :
    execUnder env i s = .next u := by
  rw [h.execUnder_eq env hf hs, State.sourceStep, State.attempt_polling hm, hr, State.thenDo_of_some _ _ hu]

/-- Without a fault the receive goes back to the hook at a 0x00, and on with any other byte (rule R161). -/
theorem Receives.execUnder_attempt_byte (h : Receives i o after) (hf : s.fault = none)
    (hm : s.mode = .polling) (hs : s.seq = after (.goOn .attempt))
    (hr : s.blockingReceive (env s.drawn) o = (c, u)) (hu : u.fault = none) :
    execUnder env i s = .next { u with
      seq := if c = 0#8 then after (.goOn .hook) else after (.got c) } := by
  rw [h.execUnder_eq env hf hs, State.sourceStep, State.attempt_polling hm, hr, State.thenDo_of_none _ _ hu,
    SourceNext.after_afterAttempt after, State.goto]

/-- The attempt with a byte on the line, by the draw. -/
theorem Receives.execUnder_attempt_line (h : Receives i o after) (env : Nat → Draws) (hf : s.fault = none)
    (hm : s.mode = .polling) (hs : s.seq = after (.goOn .attempt)) (ha : s.perRxArmed = false)
    (hl : s.lineIn = b :: rest) :
    ((env s.drawn).take = true → execUnder env i s = .next { s with
      lineIn := rest, drawn := s.drawn + 1,
      seq := if b = 0#8 then after (.goOn .hook) else after (.got b) }) ∧
    ((env s.drawn).take = false →
      execUnder env i s = .next { s with drawn := s.drawn + 1, seq := after (.goOn .hook) }) := by
  have hr := State.blockingReceive_of_byte (d := env s.drawn) (o := o) ha hl
  refine ⟨fun ht => ?_, fun ht => ?_⟩
  · exact h.execUnder_attempt_byte hf hm hs (hr.trans (if_pos ht)) hf
  · exact h.execUnder_attempt_byte hf hm hs (hr.trans (if_neg (by simp [ht]))) hf

/-- Draws whose blocking receive takes the byte on the line, or times out. -/
def drawTake (take : Bool) : Draws := { pick := 0, sent := 0, take := take, hook := false }

/-- Settles O31: the attempt is a blocking receive, and one draw decides what it does with a byte. -/
theorem pollingAttempt : Obligations.PollingAttempt := by
  intro s i o again got hf hm hi hpos
  obtain ⟨after, h, hs, rfl, rfl⟩ := Receives.of_attempt hi hpos
  rw [exec_eq_execUnder]
  refine ⟨fun ha => ?_, fun ha hl => ?_, fun b rest ha hl => ⟨?_, ?_, ?_⟩⟩
  · exact h.execUnder_attempt_fault hf hm hs (State.blockingReceive_of_armed ha) rfl
  · exact h.execUnder_attempt_byte hf hm hs (State.blockingReceive_of_no_byte ha hl) hf
  · obtain ⟨htake, htimeout⟩ := h.execUnder_attempt_line Config.drawsAt hf hm hs ha hl
    cases ht : (Config.drawsAt s.drawn).take with
    | true => exact .inl (htake ht)
    | false => exact .inr (htimeout ht)
  · exact ⟨fun _ => drawTake true, (h.execUnder_attempt_line _ hf hm hs ha hl).1 rfl⟩
  · exact ⟨fun _ => drawTake false, (h.execUnder_attempt_line _ hf hm hs ha hl).2 rfl⟩

end Sys2Proof.Machine
end

section
/-! The peripheral's moves (rules R266, R267 and R271). -/

namespace Sys2Proof.Machine

variable {s : State}

/-- A loss is never forced: where it is enabled, so is another move, if only to wait (rule R271). -/
theorem State.enabled_beside_lineLoss (h : s.enabled .lineLoss = true) :
    ∃ m, m ≠ .lineLoss ∧ s.enabled m = true := by
  by_contra hnone
  push Not at hnone
  have hwait : s.enabled .wait = true :=
    State.enabled_wait.2 ⟨h, fun m hm _ => by simpa using hnone m hm⟩
  exact hnone .wait nofun hwait

/-- Settles O43: the three steps on a line that is not empty, and the environment's freedom to make any
enabled move. -/
theorem peripheralMoves : Obligations.PeripheralMoves := by
  intro s run
  refine ⟨fun h => ?_, fun _ => rfl, fun h => ?_, fun h => ⟨State.enabled_iff_makes.1 h, ?_⟩, rfl⟩
  · obtain ⟨-, -, hne⟩ := State.enabled_rxComplete.1 h
    obtain ⟨b, rest, hl⟩ := List.exists_cons_of_ne_nil hne
    exact ⟨b, rest, hl, congrArg _ (State.rxComplete_cons hl)⟩
  · obtain ⟨-, -, hne⟩ := State.enabled_lineLoss.1 h
    obtain ⟨b, rest, hl⟩ := List.exists_cons_of_ne_nil hne
    exact ⟨b, rest, hl, by rw [State.perform, State.lineLoss, hl, List.tail_cons]⟩
  · obtain ⟨m, hm, hen⟩ := State.enabled_beside_lineLoss h
    obtain ⟨env, hmakes⟩ := State.enabled_iff_makes.1 hen
    exact ⟨env, m, hm, hmakes⟩

end Sys2Proof.Machine
end

section
/-! A burst in flight is live (rule R319). -/

namespace Sys2Proof.Machine

variable {s s' : State} {d : Draws} {o : Origin} {p : List Byte} {m : Move}

/-- Only a block without a fault owes its burst a further event (rule R319). -/
theorem State.BurstLive.of_fault {f : Fault} (h : s.fault = some f) : s.BurstLive :=
  fun hf => by simp [h] at hf

theorem State.BurstLive.of_not_inFlight (h : s.txInFlight = false) : s.BurstLive :=
  fun _ hi => by simp [h] at hi

/-- The outstanding byte will complete. -/
theorem State.BurstLive.of_busy (h : s.perTxBusy = true) : s.BurstLive := fun _ _ => .inl h

/-- The pending TXC will be handled. -/
theorem State.BurstLive.of_pend (h : s.txPend = true) : s.BurstLive := fun _ _ => .inr h

/-- A TX handler body, which uses up the TXC, arms a byte or ends the burst (rule R191). -/
theorem IrqTo.keeps_burstLive (h : IrqTo s s') (hl : s.BurstLive) : s'.BurstLive := by
  cases h with
  | rxcArms => exact hl
  | rxcDoubleArm | txcOverlap => exact .of_fault rfl
  | txcArms => exact .of_busy rfl
  | txcEnds => exact .of_not_inFlight rfl

/-- A SEND that starts a burst arms a byte or clears the flag again (rule R141). -/
theorem SendTo.keeps_burstLive (h : SendTo s o p s') (hl : s.BurstLive) : s'.BurstLive := by
  cases h with
  | silent | transmits | queues => exact hl
  | kicks => exact .of_busy rfl
  | kicksNothing => exact .of_not_inFlight rfl
  | overlap | overflow | kickOverflow | kickOverlap => exact .of_fault rfl

theorem ToggleTo.keeps_burstLive {t : TogglePos} (h : ToggleTo s t s') (hl : s.BurstLive) :
    s'.BurstLive := by
  cases h with
  | clearInFlight => exact .of_not_inFlight rfl
  | primeOverflow | primeDoubleArm | drainOverflow => exact .of_fault rfl
  | flip | enableLine | primeArms | abortRx | disableLine | drains => exact hl

theorem AttemptTo.keeps_burstLive (h : AttemptTo s o s') (hl : s.BurstLive) : s'.BurstLive := by
  cases h with
  | overflow | doubleArm => exact .of_fault rfl
  | pops | getsNothing | takes => exact hl

theorem EffectTo.keeps_burstLive (h : EffectTo s s') (hl : s.BurstLive) : s'.BurstLive := by
  cases h with
  | sends _ _ _ _ h => exact h.keeps_burstLive hl
  | toggles _ _ _ h => exact h.keeps_burstLive hl
  | attempts _ _ _ h => exact h.keeps_burstLive hl
  | acquireOverflow | releaseUnderflow => exact .of_fault rfl
  | hook | delivers | finishes | acquires | releases => exact hl

theorem MoveTo.keeps_burstLive (h : MoveTo d s m s') (hf : s.fault = none) (hl : s.BurstLive) :
    s'.BurstLive := by
  cases h with
  | irq h => exact (s.irqStep_cases h).keeps_burstLive hl
  | micro _ hs =>
    exact (s.micro_cases d hs).of_effects hf (fun _ _ h => h) fun _ h => h.keeps_burstLive hl
  | illegal => exact .of_fault rfl
  | txComplete => exact .of_pend rfl
  | intake | rxComplete | lineLoss | wait => exact hl

/-- Settles O58: an outstanding byte becomes a pending TXC, and what uses that up arms the next byte or
ends the burst. -/
theorem stepKeepsBurstLive : Obligations.StepKeepsBurstLive := by
  intro env s s' hl h
  obtain ⟨env', h⟩ := stepUnder_of_step env s s' h
  exact stepUnder_keeps State.BurstLive (fun _ h => h)
    (fun _ _ _ _ hf hl hm => hm.keeps_burstLive hf hl) env' s s' hl h

end Sys2Proof.Machine
end

section
/-! Reset (rules R300, R301 and R305). -/

namespace Sys2Proof.Machine

/-- A ring's storage is 0x00 at reset (rule R301). -/
@[simp] theorem Ring.reset_at (i : Index) : Ring.reset.at i = 0#8 := by
  simp [Ring.at, Ring.reset]

@[simp] theorem Ring.reset_isEmpty : Ring.reset.isEmpty = true := rfl

@[simp] theorem Ring.reset_contents : Ring.reset.contents = [] :=
  (Ring.contents_eq_nil_iff _).2 Ring.reset_isEmpty

/-- Settles O51: the two storages by index, every other field by its definition. -/
theorem resetValues : Obligations.ResetValues := by
  have hrings (i : Index) : State.reset.rx.at i = 0#8 ∧ State.reset.tx.at i = 0#8 :=
    ⟨Ring.reset_at i, Ring.reset_at i⟩
  have hres (j : Nat) (hj : j < 255) : State.reset.resBuf[j] = 0#8 := by simp [State.reset]
  exact ⟨rfl, rfl, rfl, rfl, rfl, rfl, rfl, rfl, rfl, rfl, rfl, hrings, rfl, rfl, rfl, rfl, rfl, rfl, rfl,
    hres, rfl, rfl⟩

/-- Settles O52: a power-on reset reads nothing of the state but what it keeps. -/
theorem powerOnResetClears : Obligations.PowerOnResetClears :=
  fun _ => ⟨rfl, rfl, rfl, rfl, rfl⟩

/-- At reset no TOGGLE runs, the line is off, nothing is armed and both rings are empty (rule R305). -/
theorem State.reset_modeLaws : State.reset.ModeLaws :=
  (State.modeLaws_iff_of_rest (.inl rfl)).2 fun _ => ⟨⟨rfl, rfl⟩, Ring.reset_isEmpty, Ring.reset_isEmpty⟩

theorem State.reset_rxRingNoNul : State.reset.RxRingNoNul := by
  simp [State.RxRingNoNul, State.reset]

theorem State.reset_ti : State.reset.TI := by
  simp [State.TI, State.reset]

theorem State.reset_goodEnd : State.reset.GoodEnd :=
  ⟨rfl, rfl, rfl, rfl, rfl, rfl, rfl⟩

/-- Settles O53: nothing is in flight, armed, pending or running at reset. -/
theorem resetMeetsInvariants : Obligations.ResetMeetsInvariants :=
  ⟨State.reset_modeLaws, State.reset_rxRingNoNul, State.reset_ti, .of_not_inFlight rfl, .of_not_armed rfl,
    trivial, trivial, State.reset_goodEnd⟩

end Sys2Proof.Machine
end
